-- ==== Sys2Proof/Word.lean ====
section
/-! DEFINITION. The plain value types of the block (00_scope.md R8): bytes, byte buffers and text. -/

namespace Sys2Proof

/-- R8, R50: one element of a buffer or stream, 8 bits. -/
abbrev Byte := BitVec 8

/-- R8: a finite ordered sequence of bytes, indexed from 0, of any length. -/
abbrev Bytes := List Byte

/-- R8: a finite ordered sequence of characters. R93 allows a model to keep the text as characters. -/
abbrev Text := List Char

end Sys2Proof
end

