-- ==== Sys2Proof/Config.lean ====
section
/-! DEFINITION. What an implementation fixes (the OPEN parameters of 00_scope.md R7) and the free values: constants
without a body, so that every claim holds whatever they are. -/

namespace Sys2Proof

/-- `FRAMING_INIT` (R7, R36, D5): the value of `framing_enabled` at creation. Log 9. -/
opaque Config.framingInit : Bool

/-- `POLL_MS` (R7, D21) is this number plus one, so that it is at least 1. Log 10. -/
opaque Config.pollMsPred : Nat

/-- R133: the fixed interval of the disconnect poll, in ms. -/
def Config.pollMs : Nat := Config.pollMsPred + 1

/-- `W_LENIENT` (R7, R203, D18): what an implementation makes of a `W` argument that is not all digits; `none`
rejects it, and the function that is always `none` is the default. Log 11. -/
opaque Config.lenientWait : Text → Option Nat

/-- R20, R36: the device handle given at creation. Log 22. -/
opaque Config.handle : Nat

/-- R36: whether the device has a readable channel at creation, "chosen by the device". Log 25. -/
opaque Config.devReadableInit : Bool

/-- R35, R36, N20: the levels of DTR and of RTS before the first request for the line. Log 6. -/
opaque Config.dtrLineInit : Bool

/-- See `Config.dtrLineInit`. Log 6. -/
opaque Config.rtsLineInit : Bool

/-- FREE VALUE. R229, U15: the level of a line after a request the device rejected, fresh at every draw. Log 6. -/
opaque Config.levelAfterFail : Nat → Bool

/-- FREE VALUE. R133, R35, D34: whether the device is still open after a close that failed, fresh at every draw.
Log 30. -/
opaque Config.openAfterFailedClose : Nat → Bool

/-- FREE VALUE. R226, D16: whether `TimerFire` is taken before a chunk that arrives in the same millisecond,
fresh at every draw. Log 4. -/
opaque Config.timerFirst : Nat → Bool

end Sys2Proof
end

