-- ==== Sys2Proof/Syntax.lean ====
section
/-! DEFINITION. The instruction set: one constructor per row of spec/opcode_table.json (30_encoding.md R99), and
the operand types of its rows. -/

namespace Sys2Proof

/-- R180, R96: what a reset program runs against. The Transport is one such object; any other object with the
capability `setDTR`, `setRTS`, `sleep` is `foreign` (log 18). -/
inductive Target where
  | transport
  | foreign
  deriving DecidableEq, Repr

/-- R180: a reset command. The same three shapes are the calls of the capability trace (R14, R97). -/
inductive Command where
  | setDTR (b : Bool)
  | setRTS (b : Bool)
  | wait (n : Nat)
  deriving DecidableEq, Repr

/-- R99: the three encoded languages the rows of the table belong to. -/
inductive Format where
  | slip
  | token
  | op
  deriving DecidableEq, Repr

/-- R99: every row of the opcode table. Operands as in R83 (symbols), R91 (tokens) and R95 (operations). -/
inductive Instr where
  /-- `END` -/
  | slipEnd
  /-- `ESC_END_PAIR` -/
  | escEndPair
  /-- `ESC_ESC_PAIR` -/
  | escEscPair
  /-- `LITERAL` -/
  | literal (b : Byte)
  /-- `LONE_ESC` -/
  | loneEsc
  /-- `D0` -/
  | d0
  /-- `D1` -/
  | d1
  /-- `R0` -/
  | r0
  /-- `R1` -/
  | r1
  /-- `W`, with the value of its decimal argument (R92) -/
  | w (n : Nat)
  /-- `SEP` -/
  | sep
  | encode (payload : Bytes)
  | decode (buffer : Bytes)
  | connect (baud : Nat)
  | disconnect
  | setDTR (state : Bool)
  | setRTS (state : Bool)
  | sleep (ms : Nat)
  | setFraming (b : Bool)
  | write (payload : Bytes)
  | read (timeout : Int) (minLength : Nat)
  | rawRead (timeout : Int)
  /-- `resetDelay` absent is the form `classic(t)`, whose delay is the default 50 (R185) -/
  | classic (target : Target) (resetDelay : Option Nat)
  | usbJTAGSerial (target : Target)
  | hard (target : Target) (usingUsbOtg : Bool)
  | validateCustomSequence (text : Text)
  | customReset (target : Target) (text : Text)
  deriving DecidableEq, Repr

/-- R99: the format column of the table. -/
def Instr.format : Instr → Format
  | .slipEnd => .slip
  | .escEndPair => .slip
  | .escEscPair => .slip
  | .literal _ => .slip
  | .loneEsc => .slip
  | .d0 => .token
  | .d1 => .token
  | .r0 => .token
  | .r1 => .token
  | .w _ => .token
  | .sep => .token
  | .encode _ => .op
  | .decode _ => .op
  | .connect _ => .op
  | .disconnect => .op
  | .setDTR _ => .op
  | .setRTS _ => .op
  | .sleep _ => .op
  | .setFraming _ => .op
  | .write _ => .op
  | .read _ _ => .op
  | .rawRead _ => .op
  | .classic _ _ => .op
  | .usbJTAGSerial _ => .op
  | .hard _ _ => .op
  | .validateCustomSequence _ => .op
  | .customReset _ _ => .op

/-- R95: the rows a host can invoke, each selected by its name. -/
def Instr.isOp (i : Instr) : Bool := i.format == .op

end Sys2Proof
end

