-- ==== Sys2Proof/WellFormed.lean ====
section
/-! DEFINITION. Which terms of `Instr` stand for an instruction the spec has. -/

namespace Sys2Proof

/-- R83: a literal is any byte but 0xC0 and 0xDB. R180: a `Wait` has n ≥ 1. R96, R185: `resetDelay` is ≥ 1.
Every other operand may take every value of its type (R96). -/
def Instr.wf : Instr → Bool
  | .literal b => b != 0xC0#8 && b != 0xDB#8
  | .w n => n != 0
  | .classic _ (some d) => d != 0
  | .classic _ none => true
  | .slipEnd => true
  | .escEndPair => true
  | .escEscPair => true
  | .loneEsc => true
  | .d0 => true
  | .d1 => true
  | .r0 => true
  | .r1 => true
  | .sep => true
  | .encode _ => true
  | .decode _ => true
  | .connect _ => true
  | .disconnect => true
  | .setDTR _ => true
  | .setRTS _ => true
  | .sleep _ => true
  | .setFraming _ => true
  | .write _ => true
  | .read _ _ => true
  | .rawRead _ => true
  | .usbJTAGSerial _ => true
  | .hard _ _ => true
  | .validateCustomSequence _ => true
  | .customReset _ _ => true

end Sys2Proof
end

