-- ==== Sys2Proof/Decode.lean ====
section
/-! DEFINITION. The two encoded languages (30_encoding.md R80 to R94): decoders total on any input, which reject by
name, and the encoders written from the same tables. Operations have no encoding (R95): they are selected by name. -/

namespace Sys2Proof

/-- R80: END, the frame boundary. -/
def endMarker : Byte := 0xC0

/-- R80: ESC, the escape. -/
def escMarker : Byte := 0xDB

/-- R80: ESC_END, which after ESC stands for END. -/
def escEndCode : Byte := 0xDC

/-- R80: ESC_ESC, which after ESC stands for ESC. -/
def escEscCode : Byte := 0xDD

/-- Why an input holds no instruction at its front. -/
inductive DecodeError where
  /-- no byte or character is left -/
  | endOfInput
  /-- R94 (a): an empty token -/
  | emptyToken
  /-- R94 (b): the first character is not D, R or W -/
  | badLetter
  /-- R94 (c): D or R with a remainder that is not exactly 0 or 1 -/
  | badBoolArgument
  /-- R94 (d): W with an empty remainder -/
  | emptyWait
  /-- R94 (d): W with a value of 0 -/
  | zeroWait
  /-- R94 (d): W with a remainder that holds a character that is not a digit -/
  | badWaitArgument
  deriving DecidableEq, Repr

/-- A code of one of the two encoded languages: bytes of the wire, or characters of a custom sequence. -/
inductive Code where
  | wire (b : Bytes)
  | chars (t : Text)
  deriving DecidableEq, Repr

/-! ## SLIP symbols -/

/-- R83: the symbol at the front of a byte sequence, and the bytes after it. The pair rows are tested before
`LONE_ESC` (R99). -/
def decodeSymbol : Bytes → Except DecodeError (Instr × Bytes)
  | [] => .error .endOfInput
  | b :: rest =>
    if b = endMarker then .ok (.slipEnd, rest)
    else if b = escMarker then
      match rest with
      | [] => .ok (.loneEsc, [])
      | c :: rest' =>
        if c = escEndCode then .ok (.escEndPair, rest')
        else if c = escEscCode then .ok (.escEscPair, rest')
        else .ok (.loneEsc, rest)
    else .ok (.literal b, rest)

/-- R80 to R83: the bytes of a SLIP symbol; the other rows have none. -/
def symbolBytes : Instr → Bytes
  | .slipEnd => [endMarker]
  | .escEndPair => [escMarker, escEndCode]
  | .escEscPair => [escMarker, escEscCode]
  | .literal b => [b]
  | .loneEsc => [escMarker]
  | .d0 | .d1 | .r0 | .r1 | .w _ | .sep => []
  | .encode _ | .decode _ | .connect _ | .disconnect | .setDTR _ | .setRTS _ | .sleep _ | .setFraming _ => []
  | .write _ | .read _ _ | .rawRead _ | .classic _ _ | .usbJTAGSerial _ | .hard _ _ => []
  | .validateCustomSequence _ | .customReset _ _ => []

/-- R83: the payload byte a symbol stands for inside an interior; END stands for none. -/
def symbolPayload : Instr → Bytes
  | .slipEnd => []
  | .escEndPair => [endMarker]
  | .escEscPair => [escMarker]
  | .literal b => [b]
  | .loneEsc => [escMarker]
  | .d0 | .d1 | .r0 | .r1 | .w _ | .sep => []
  | .encode _ | .decode _ | .connect _ | .disconnect | .setDTR _ | .setRTS _ | .sleep _ | .setFraming _ => []
  | .write _ | .read _ _ | .rawRead _ | .classic _ _ | .usbJTAGSerial _ | .hard _ _ => []
  | .validateCustomSequence _ | .customReset _ _ => []

/-- R82: the symbol the framer emits for a payload byte. -/
def symbolOf (p : Byte) : Instr :=
  if p = endMarker then .escEndPair else if p = escMarker then .escEscPair else .literal p

/-! ## Tokens of a custom sequence -/

/-- R91, R201: the separator character. -/
def sepChar : Char := '|'

/-- R203: one of the characters 0 to 9. -/
def isDecDigit (c : Char) : Bool := decide (48 ≤ c.toNat) && decide (c.toNat ≤ 57)

/-- R92: an unsigned base-10 numeral, most significant digit first, continued from the value `acc`. -/
def decimalFrom (acc : Nat) : Text → Nat
  | [] => acc
  | c :: cs => decimalFrom (10 * acc + (c.toNat - 48)) cs

/-- R92: the value of a numeral. -/
def decimalValue (t : Text) : Nat := decimalFrom 0 t

/-- R203, rows of `W`: the wait a remainder stands for. `-5` is settled by the source (R204, U10); for the other
remainders with a character that is not a digit, `Config.lenientWait` decides (D18), and never to a value of 0. -/
def parseWait (rest : Text) : Except DecodeError Command :=
  if rest = [] then .error .emptyWait
  else if rest.all isDecDigit then
    if decimalValue rest = 0 then .error .zeroWait else .ok (.wait (decimalValue rest))
  else if rest = ['-', '5'] then .error .badWaitArgument
  else
    match Config.lenientWait rest with
    | some 0 => .error .zeroWait
    | some (n + 1) => .ok (.wait (n + 1))
    | none => .error .badWaitArgument

/-- R92, R203, rows of `D` and `R`: the truth value a remainder stands for. -/
def parseBool (rest : Text) : Except DecodeError Bool :=
  if rest = ['0'] then .ok false
  else if rest = ['1'] then .ok true
  else .error .badBoolArgument

/-- R203: `parse_token`, which also says by name why a token is invalid. -/
def parseToken : Text → Except DecodeError Command
  | [] => .error .emptyToken
  | c :: rest =>
    if c = 'D' then
      match parseBool rest with
      | .ok b => .ok (.setDTR b)
      | .error e => .error e
    else if c = 'R' then
      match parseBool rest with
      | .ok b => .ok (.setRTS b)
      | .error e => .error e
    else if c = 'W' then parseWait rest
    else .error .badLetter

/-- R203: `valid_token`. -/
def validToken (k : Text) : Bool :=
  match parseToken k with
  | .ok _ => true
  | .error _ => false

/-- R201: `split`; a text with k separators gives k + 1 tokens. -/
def splitText : Text → List Text
  | [] => [[]]
  | c :: cs =>
    if c = sepChar then [] :: splitText cs
    else
      match splitText cs with
      | [] => [[c]]
      | t :: ts => (c :: t) :: ts

/-- R202: `validateCustomSequence`. -/
def validText (text : Text) : Bool := (splitText text).all validToken

/-- The command of a token, if it is valid. -/
def commandOf (k : Text) : Option Command :=
  match parseToken k with
  | .ok c => some c
  | .error _ => none

/-- R206: `parse`, the commands of a text's tokens in order. -/
def parseText (text : Text) : List Command := (splitText text).filterMap commandOf

/-- R91: the row of the table a command's token belongs to. -/
def instrOfCommand : Command → Instr
  | .setDTR false => .d0
  | .setDTR true => .d1
  | .setRTS false => .r0
  | .setRTS true => .r1
  | .wait n => .w n

/-- R91: the characters of the token at the front: up to the next separator or the end. -/
def tokenChars (t : Text) : Text := t.takeWhile (· != sepChar)

/-- R91: what follows the token at the front. -/
def afterToken (t : Text) : Text := t.dropWhile (· != sepChar)

/-- R91, R94: the token or separator at the front of a text, and the text after it. -/
def decodeToken : Text → Except DecodeError (Instr × Text)
  | [] => .error .endOfInput
  | c :: cs =>
    if c = sepChar then .ok (.sep, cs)
    else
      match parseToken (tokenChars (c :: cs)) with
      | .ok k => .ok (instrOfCommand k, afterToken (c :: cs))
      | .error e => .error e

/-- One decimal digit as a character. -/
def digitChar (d : Nat) : Char := Char.ofNat (48 + d)

/-- The decimal digits of `n`, most significant first; `fuel` bounds their number. -/
def decimalDigits : Nat → Nat → Text
  | 0, _ => []
  | fuel + 1, n => if n < 10 then [digitChar n] else decimalDigits fuel (n / 10) ++ [digitChar (n % 10)]

/-- R92: the numeral of `n` without leading zeros. -/
def decimalText (n : Nat) : Text := decimalDigits (n + 1) n

/-- R91: the token of a command. -/
def tokenText : Command → Text
  | .setDTR false => ['D', '0']
  | .setDTR true => ['D', '1']
  | .setRTS false => ['R', '0']
  | .setRTS true => ['R', '1']
  | .wait n => 'W' :: decimalText n

/-- R97, R206: a program written as a text, its tokens joined by the separator. -/
def programText : List Command → Text
  | [] => []
  | [c] => tokenText c
  | c :: d :: cs => tokenText c ++ sepChar :: programText (d :: cs)

/-! ## Both languages -/

/-- The instruction at the front of a code and the code after it; total, rejecting by name. -/
def decodeInstr : Code → Except DecodeError (Instr × Code)
  | .wire b =>
    match decodeSymbol b with
    | .ok (i, rest) => .ok (i, .wire rest)
    | .error e => .error e
  | .chars t =>
    match decodeToken t with
    | .ok (i, rest) => .ok (i, .chars rest)
    | .error e => .error e

/-- R80 to R83, R91: the code of an instruction; `none` for the operations, which have no encoding (R95). -/
def encodeInstr : Instr → Option Code
  | .slipEnd => some (.wire (symbolBytes .slipEnd))
  | .escEndPair => some (.wire (symbolBytes .escEndPair))
  | .escEscPair => some (.wire (symbolBytes .escEscPair))
  | .literal b => some (.wire (symbolBytes (.literal b)))
  | .loneEsc => some (.wire (symbolBytes .loneEsc))
  | .d0 => some (.chars (tokenText (.setDTR false)))
  | .d1 => some (.chars (tokenText (.setDTR true)))
  | .r0 => some (.chars (tokenText (.setRTS false)))
  | .r1 => some (.chars (tokenText (.setRTS true)))
  | .w n => some (.chars (tokenText (.wait n)))
  | .sep => some (.chars [sepChar])
  | .encode _ | .decode _ | .connect _ | .disconnect | .setDTR _ | .setRTS _ | .sleep _ | .setFraming _ => none
  | .write _ | .read _ _ | .rawRead _ | .classic _ _ | .usbJTAGSerial _ | .hard _ _ => none
  | .validateCustomSequence _ | .customReset _ _ => none

/-! ## The words of spec/opcode_table.json -/

/-- The low `k` bytes of a number, the first one most significant (R99: "the first byte in the most significant
position"). -/
def bytesOfNumber : Nat → Nat → Bytes
  | 0, _ => []
  | k + 1, w => bytesOfNumber k (w / 256) ++ [BitVec.ofNat 8 w]

/-- R93: the character with a given code. -/
def charOfByte (b : Byte) : Char := Char.ofNat b.toNat

/-- R93: the four characters a token or separator can begin with: D, R, W and the separator. -/
def isTokenLead (b : Byte) : Bool := b == 0x44#8 || b == 0x52#8 || b == 0x57#8 || b == 0x7C#8

/-- The code a table word of `nbits` bits stands for. A word does not say which language it is in: one whose first
byte can begin a token is read as characters, every other as bytes of the wire (log 16). -/
def codeOfWord (nbits w : Nat) : Code :=
  match bytesOfNumber ((nbits + 7) / 8) w with
  | [] => .wire (bytesOfNumber 1 w)
  | b :: bs => if isTokenLead b then .chars ((b :: bs).map charOfByte) else .wire (b :: bs)

/-- The instruction the decoder reads from a word of the opcode table. -/
def decodeTableWord (nbits w : Nat) : Option Instr :=
  match decodeInstr (codeOfWord nbits w) with
  | .ok (i, _) => some i
  | .error _ => none

end Sys2Proof
end

