-- ==== Sys2Proof/Machine/State.lean ====
section
/-! DEFINITION. The state of the block and of what it is connected to, as plain data, and the state at creation
(10_state.md R20 to R37). -/

namespace Sys2Proof.Machine

/-- R25: the lifecycle of the Transport. -/
inductive Life where
  | created
  | connected
  | closed
  deriving DecidableEq, Repr

/-- R220: the device's own cause of a failure, passed on unchanged and not interpreted. That it is written as a number
is the model's choice; the number has no meaning (log 31). -/
abbrev Cause := Nat

/-- R12: the two control lines. -/
inductive Line where
  | dtr
  | rts
  deriving DecidableEq, Repr

/-- R12, R236: how a call to the device (or to a foreign target) ends: it succeeds, it fails, or it never returns. -/
inductive Answer where
  | ok
  | fail (cause : Cause)
  | never
  deriving DecidableEq, Repr

/-- R12: what ends a `DevRead`, other than the block's own `DevCancel`. -/
inductive ReadOutcome where
  | chunk (bytes : Bytes)
  | fail (cause : Cause)
  deriving DecidableEq, Repr

/-- R35, R56: an entry of the inbound stream: the ms (on the time line of `State.now`) from which the device has it,
and what a `DevRead` then yields. -/
structure Arrival where
  time : Nat
  what : ReadOutcome
  deriving DecidableEq, Repr

/-- R220: the complete list of error kinds. -/
inductive ErrorKind where
  | deviceOpenError
  | timeoutError
  | customSequenceError
  | deviceError (cause : Cause)
  deriving DecidableEq, Repr

/-- R113: the three results of `decode`. -/
structure Frame where
  payload : Bytes
  remainder : Bytes
  complete : Bool
  deriving DecidableEq, Repr

/-- R95: what a finished operation hands to its caller. -/
inductive Result where
  /-- it returns no value -/
  | done
  | bytes (b : Bytes)
  | frame (f : Frame)
  | bool (b : Bool)
  /-- R11, R220: it raises an error -/
  | error (e : ErrorKind)
  deriving DecidableEq, Repr

/-- R14: an entry of the device trace. -/
inductive DevEvent where
  | open (baud : Nat)
  | close
  | sig (line : Line) (level : Bool)
  | tx (bytes : Bytes)
  | rx (bytes : Bytes)
  | cancel
  | sleep (ms : Nat)
  deriving DecidableEq, Repr

/-- R35: what the device, or a foreign target, does on its own: it changes whether it has a readable channel, gets
another entry for its inbound stream, or settles how it will answer a coming call (log 2, log 3, log 18). -/
inductive DeviceEvent where
  | readable (b : Bool)
  | arrives (a : Arrival)
  | willAnswer (a : Answer)
  | targetWillAnswer (a : Answer)
  deriving DecidableEq, Repr

/-- R6, R60: what comes from outside. -/
inductive Input where
  /-- the host invokes an operation once the block is idle; it runs to its end in one step (log 1) -/
  | invoke (i : Instr)
  /-- the same, but the operation runs in its own small steps where it has any (log 1) -/
  | invokeStepped (i : Instr)
  /-- the host invokes an operation without waiting for the one in progress (R61) -/
  | invokeNow (i : Instr)
  | device (e : DeviceEvent)
  deriving DecidableEq, Repr

/-- R34: what a suspended `read` or `rawRead` holds. `timer` is the ms (on the time line of `State.now`) at which the
armed timer fires; R34's `timer_armed` is that it is not `none`. `deframes` says whether the bytes pass through SlipCodec at the end: they do
for a framed `read` only (R157, R158, R160). -/
structure ReadRun where
  acc : Bytes
  timer : Option Nat
  minLength : Nat
  deframes : Bool
  deriving DecidableEq, Repr

/-- R30, R184: a reset program in progress: its target, the text of it still to be run, the number of commands
completed, and whether a failure is re-signalled as `CustomSequenceError` (R228). -/
structure SeqRun where
  target : Target
  rest : Text
  rpc : Nat
  wraps : Bool
  deriving DecidableEq, Repr

/-- R31: a `decode` in progress: its argument, the index of the byte it looks at next, the index `s` of the START
once it is found, and the payload bytes unescaped so far. -/
structure DeframeRun where
  buffer : Bytes
  pos : Nat
  start : Option Nat
  out : Bytes
  deriving DecidableEq, Repr

/-- R60, R61: the Transport operation or reset program in progress, if there is one. -/
inductive Run where
  | idle
  | sequence (q : SeqRun)
  | reading (r : ReadRun)
  /-- `disconnect` polling the locks (R133) -/
  | closing
  deriving DecidableEq, Repr

/-- Why the machine is stuck: an operation is suspended in a call that never completes and no timer is armed
(R236, R272). The spec gives no step that ends it, so each of these is SAFE. -/
inductive Fault where
  /-- raised by `connect` when `DevOpen` never returns -/
  | openHangs
  /-- raised by `disconnect` when `DevClose` never returns -/
  | closeHangs
  /-- raised by `write` when `DevWrite` never returns -/
  | writeHangs
  /-- raised by `setDTR`, `setRTS` and reset programs when a `DevSignal` never returns -/
  | signalHangs
  /-- raised by `read` and `rawRead` without a timer when the device yields nothing more -/
  | readHangs
  /-- raised by reset programs when a call on a foreign target never returns -/
  | targetHangs
  deriving DecidableEq, Repr

/-- Why an invocation has no meaning in the spec (R11, R236). -/
inductive Refusal where
  /-- raised by `exec` for a row that has no meaning in the model; SAFE -/
  | notModelled (mnemonic : String)
  /-- raised by every Transport operation and reset program while another is in progress (R61); SAFE -/
  | busy
  /-- raised by every Transport operation, and reset program against the Transport, in a lifecycle state in which
  it is not legal (R25); SAFE -/
  | wrongLifecycle (life : Life)
  /-- raised by `classic` with `resetDelay = 0` (R185); SAFE -/
  | resetDelayZero
  /-- raised by `write`, `read` and `rawRead` when the lock they take is held (R63, U19); SAFE -/
  | lockHeld
  /-- raised by a SLIP symbol when no `decode` is in progress for it to stand in (log 24); SAFE -/
  | noDecodeRunning
  /-- raised by a token or separator when no reset program is in progress for it to stand in (log 24); SAFE -/
  | noProgramRunning
  /-- raised by `W` with a value of 0 and by `LITERAL` of 0xC0 or 0xDB: such terms are no symbol or token
  (R83, R180); SAFE -/
  | illFormed
  /-- raised by the step when the host invokes a symbol or a token, which is no operation (R95); SAFE -/
  | notAnOperation
  /-- raised by the step at a text that is no custom sequence, which no validated program reaches (R206); SAFE -/
  | undecodable (e : DecodeError)
  deriving DecidableEq, Repr

/-- R20, R33, R34, R35, R14: every piece of state. -/
structure State where
  /-- R21 `T.leftover` -/
  leftover : Bytes
  /-- R22 `T.framing_enabled` -/
  framingEnabled : Bool
  /-- R23 `T.baud_rate` -/
  baudRate : Nat
  /-- R24 `T.dtr_state` -/
  dtrState : Bool
  /-- R20 `T.handle` -/
  handle : Nat
  /-- R25 `T.life` -/
  life : Life
  /-- R33 `rd_locked` -/
  rdLocked : Bool
  /-- R33 `wr_locked` -/
  wrLocked : Bool
  /-- R30, R34, R61: the Transport operation or reset program in progress -/
  run : Run
  /-- R31: the `decode` in progress -/
  codec : Option DeframeRun
  /-- R35 `dev_open` -/
  devOpen : Bool
  /-- R35 `dev_readable` -/
  devReadable : Bool
  /-- R35: the inbound stream; past its end the device yields nothing -/
  inbound : List Arrival
  /-- R12: the device's answers to its coming calls; past the end of the list it answers `ok` -/
  answers : List Answer
  /-- R35: the outbound stream -/
  outbound : Bytes
  /-- R35 `DTR_line` -/
  dtrLine : Bool
  /-- R35 `RTS_line` -/
  rtsLine : Bool
  /-- R180: a foreign target's answers to its coming calls; past the end of the list it answers `ok` -/
  targetAnswers : List Answer
  /-- R6: what the host and the device do next -/
  inputs : List Input
  /-- R95: what the finished operations handed over, oldest first -/
  results : List Result
  /-- R14: the capability trace, oldest first -/
  capTrace : List Command
  /-- R14: the device trace, oldest first -/
  devTrace : List DevEvent
  /-- R13: the time line, in whole ms: it grows by what the block is suspended in `Sleep` and `DevRead` (the model's
  own field, log 19) -/
  now : Nat
  /-- how many free values have been drawn (the model's own field, log 7) -/
  draws : Nat
  deriving DecidableEq, Repr

/-- R36: creation, the block's only reset event (R260). -/
def State.reset : State where
  leftover := []
  framingEnabled := Config.framingInit
  baudRate := 0
  dtrState := false
  handle := Config.handle
  life := .created
  rdLocked := false
  wrLocked := false
  run := .idle
  codec := none
  devOpen := false
  devReadable := Config.devReadableInit
  inbound := []
  answers := []
  outbound := []
  dtrLine := Config.dtrLineInit
  rtsLine := Config.rtsLineInit
  targetAnswers := []
  inputs := []
  results := []
  capTrace := []
  devTrace := []
  now := 0
  draws := 0

end Sys2Proof.Machine
end

