-- ==== Sys2Proof/Machine/Flags.lean ====
section
/-! DEFINITION. The values that steer behaviour (10_state.md R32); the block has no condition-code register. R32 (b)
and (c) are fields of the state, (a) is a field of `Frame`, (e) is `validText`, (f) an operand. -/

namespace Sys2Proof.Machine

/-- R156: the length gate of `read`: the accumulated wire bytes, old leftover included, have reached `minLength`. -/
def gateOpen (acc : Bytes) (minLength : Nat) : Bool := decide (minLength ≤ acc.length)

/-- R32 (d), R133: a channel lock is held. -/
def State.anyLocked (s : State) : Bool := s.rdLocked || s.wrLocked

/-- R34: `timer_armed`. -/
def ReadRun.timerArmed (r : ReadRun) : Bool := r.timer.isSome

end Sys2Proof.Machine
end

