-- ==== Sys2Proof/Machine/Operands.lean ====
section
/-! DEFINITION. Operand forms of the operations (30_encoding.md R95, R96). -/

namespace Sys2Proof.Machine

/-- R154, R96: when the timer of a call begun at time `now` fires. Only `timeout > 0` arms one; 0 and every negative
value mean none. -/
def timerOf (timeout : Int) (now : Nat) : Option Nat := if 0 < timeout then some (now + timeout.toNat) else none

/-- R7, R185: the default of `resetDelay`. -/
def resetDelayDefault : Nat := 50

/-- R185: the delay the operand of `classic` stands for. -/
def resetDelayOf : Option Nat → Nat
  | none => resetDelayDefault
  | some d => d

end Sys2Proof.Machine
end

