-- ==== Sys2Proof/Machine/Ops.lean ====
section
/-! DEFINITION. The named operations every meaning is made of: updates of the state, the primitives of the device
and timer interfaces (00_scope.md R12, R13), and handing a result or an error to the caller (60_exceptions.md R220,
R229, R231). -/

namespace Sys2Proof.Machine

/-- How one step of this machine ends. -/
abbrev Out := Host.Outcome State Fault Refusal

/-! ## Updates of the state -/

/-- R14: enter a call in the device trace. -/
def State.log (s : State) (e : DevEvent) : State := { s with devTrace := s.devTrace ++ [e] }

/-- R14: enter a call in the capability trace. -/
def State.logCap (s : State) (c : Command) : State := { s with capTrace := s.capTrace ++ [c] }

/-- R95: hand a result to the caller of an operation. -/
def State.give (s : State) (r : Result) : State := { s with results := s.results ++ [r] }

/-- R13: let `n` ms pass. -/
def State.tick (s : State) (n : Nat) : State := { s with now := s.now + n }

/-- R13: wait until time `t`; when that is past already, no time passes. -/
def State.waitUntil (s : State) (t : Nat) : State := { s with now := max s.now t }

/-- Count one free value as drawn (log 7). -/
def State.draw (s : State) : State := { s with draws := s.draws + 1 }

/-- R35: a line takes a level. -/
def State.setLine (s : State) (l : Line) (v : Bool) : State :=
  match l with
  | .dtr => { s with dtrLine := v }
  | .rts => { s with rtsLine := v }

/-- R12: how the device answers its next call (log 2). -/
def State.nextAnswer (s : State) : Answer := s.answers.headD .ok

/-- That answer is used up. -/
def State.dropAnswer (s : State) : State := { s with answers := s.answers.tail }

/-- R180: how a foreign target answers its next call (log 18). -/
def State.nextTargetAnswer (s : State) : Answer := s.targetAnswers.headD .ok

/-- That answer is used up. -/
def State.dropTargetAnswer (s : State) : State := { s with targetAnswers := s.targetAnswers.tail }

/-! ## Ending an operation -/

/-- R60: the operation in progress ends and hands `r` to its caller; the block is idle. -/
def State.finish (s : State) (r : Result) : State := { s with run := .idle, results := s.results ++ [r] }

/-- R11, R220, R231: taking an exception. The error is handed to the caller and to nobody else, what has been
written stays written, nothing is saved, and the block is idle. There is no return from it: R231 asks for no
acknowledgement and no return instruction. -/
def State.raise (s : State) (e : ErrorKind) : State := s.finish (.error e)

/-- How a call inside an operation ends: it returns, it raises an error (R11), or it never returns (R236). -/
inductive Call where
  | ok (s : State)
  | raised (e : ErrorKind) (s : State)
  | stuck (f : Fault)
  deriving DecidableEq, Repr

/-- R60 (c): what comes after a call is done only when the call has returned. -/
def Call.andThen (c : Call) (k : State → Call) : Call :=
  match c with
  | .ok s => k s
  | .raised e s => .raised e s
  | .stuck f => .stuck f

/-- R95, R11: an operation that returns no value ends as its last call did. -/
def Call.deliver (c : Call) : Out :=
  match c with
  | .ok s => .next (s.finish .done)
  | .raised e s => .next (s.raise e)
  | .stuck f => .fault f

/-- R205, R227: every failure is re-signalled as `CustomSequenceError`, and its cause is lost. -/
def Call.wrapErrors (c : Call) : Call :=
  match c with
  | .ok s => .ok s
  | .raised _ s => .raised .customSequenceError s
  | .stuck f => .stuck f

/-! ## Requirements (R11, R130) -/

/-- R61: no other Transport operation or reset program is in progress. -/
def State.whenIdle (s : State) (k : Out) : Out :=
  match s.run with
  | .idle => k
  | .sequence _ => .refused .busy
  | .reading _ => .refused .busy
  | .closing => .refused .busy

/-- R25: the Transport is connected. -/
def State.whenConnected (s : State) (k : Out) : Out :=
  match s.life with
  | .connected => k
  | .created => .refused (.wrongLifecycle .created)
  | .closed => .refused (.wrongLifecycle .closed)

/-- R25: the Transport has not been connected yet. -/
def State.whenCreated (s : State) (k : Out) : Out :=
  match s.life with
  | .created => k
  | .connected => .refused (.wrongLifecycle .connected)
  | .closed => .refused (.wrongLifecycle .closed)

/-- R25: the Transport is not closed. -/
def State.whenNotClosed (s : State) (k : Out) : Out :=
  match s.life with
  | .created => k
  | .connected => k
  | .closed => .refused (.wrongLifecycle .closed)

/-- R25: a reset program against the Transport needs it connected; against another object it does not (log 18). -/
def State.whenTarget (s : State) (t : Target) (k : Out) : Out :=
  match t with
  | .transport => s.whenConnected k
  | .foreign => k

/-! ## Device primitives (R12) and the delay (R13) -/

/-- R12: `DevOpen`. R221: it fails with `DeviceOpenError`, which carries nothing, and the device is not open then (log 32).
-/
def devOpenCall (baud : Nat) (s : State) : Call :=
  match s.nextAnswer with
  | .ok => .ok { (s.log (.open baud)).dropAnswer with devOpen := true }
  | .fail _ => .raised .deviceOpenError (s.log (.open baud)).dropAnswer
  | .never => .stuck .openHangs

/-- R12: `DevClose`; the device is closed when it succeeds (R133). Whether it is still open when the close fails is not
given (D34), so that it is a free value (log 30). -/
def devCloseCall (s : State) : Call :=
  match s.nextAnswer with
  | .ok => .ok { (s.log .close).dropAnswer with devOpen := false }
  | .fail c =>
    .raised (.deviceError c)
      { (s.log .close).dropAnswer.draw with devOpen := Config.openAfterFailedClose s.draws }
  | .never => .stuck .closeHangs

/-- R12, R35: `DevSignal`. On success the line has the level; when the request is rejected its level is unknown, a
free value (R229, U15). -/
def devSignal (l : Line) (v : Bool) (s : State) : Call :=
  match s.nextAnswer with
  | .ok => .ok ((s.log (.sig l v)).dropAnswer.setLine l v)
  | .fail c =>
    .raised (.deviceError c)
      (((s.log (.sig l v)).dropAnswer.setLine l (Config.levelAfterFail s.draws)).draw)
  | .never => .stuck .signalHangs

/-- R12, R35, R150: `DevWrite` under the write lock, which is released on success and on failure alike. The outbound
stream takes the argument of the call (log 21). -/
def devWriteLocked (b : Bytes) (s : State) : Call :=
  match s.nextAnswer with
  | .ok => .ok { (s.log (.tx b)).dropAnswer with outbound := s.outbound ++ b, wrLocked := false }
  | .fail c =>
    .raised (.deviceError c) { (s.log (.tx b)).dropAnswer with outbound := s.outbound ++ b, wrLocked := false }
  | .never => .stuck .writeHangs

/-- R13: `Sleep`, as the operation `sleep` and the command `Wait` use it, with its trace entry (R139). -/
def sleepCall (ms : Nat) (s : State) : Call := .ok ((s.tick ms).log (.sleep ms))

/-- How one `DevRead` ends (R12): a chunk, the block's own cancellation, a failure, or never. -/
inductive ReadAnswer where
  | chunk (bytes : Bytes) (s : State)
  | cancelled (s : State)
  | failed (cause : Cause) (s : State)
  | never
  deriving DecidableEq, Repr

/-- R54: once the device has it, the first entry of the inbound stream is taken off. -/
def takeArrival (a : Arrival) (rest : List Arrival) (s : State) : ReadAnswer :=
  match a.what with
  | .chunk c => .chunk c { (s.waitUntil a.time).log (.rx c) with inbound := rest }
  | .fail cause => .failed cause { s.waitUntil a.time with inbound := rest }

/-- R155, R224: at time `t` the timer fires and the block cancels the `DevRead`; what the device holds or will hold
stays in the inbound stream (R226). -/
def fireTimer (t : Nat) (s : State) : ReadAnswer := .cancelled ((s.waitUntil t).log .cancel)

/-- R12, R13, R224, R226: one `DevRead` under a timer that fires at `timer`. When that time has come already (R226
(a)) it is cancelled at once; an entry that comes in the very ms of the firing is taken before or after it, as the
free choice says (R226). -/
def devRead (timer : Option Nat) (s : State) : ReadAnswer :=
  match timer, s.inbound with
  | none, [] => .never
  | none, a :: rest => takeArrival a rest s
  | some t, [] => fireTimer t s
  | some t, a :: rest =>
    if t ≤ s.now then fireTimer t s
    else if a.time < t then takeArrival a rest s
    else if t < a.time then fireTimer t s
    else if Config.timerFirst s.draws then fireTimer t s.draw
    else takeArrival a rest s.draw

end Sys2Proof.Machine
end

