-- ==== Sys2Proof/Machine/Slip.lean ====
section
/-! DEFINITION. SlipCodec (40_slip_codec.md): the framer and the deframer as functions, the operations `encode` and
`decode`, and the SLIP symbols as the steps of a `decode` in progress. -/

namespace Sys2Proof.Machine

/-- R110: the framer. -/
def slipEncode (payload : Bytes) : Bytes :=
  symbolBytes .slipEnd ++ payload.flatMap (fun p => symbolBytes (symbolOf p)) ++ symbolBytes .slipEnd

/-- R114: `unescape`, one pass from left to right. -/
def unescape : Bytes → Bytes
  | [] => []
  | [b] => [b]
  | b :: c :: rest =>
    if b = escMarker ∧ c = escEndCode then endMarker :: unescape rest
    else if b = escMarker ∧ c = escEscCode then escMarker :: unescape rest
    else b :: unescape (c :: rest)

/-- R113: the least index of an END. -/
def firstEnd : Bytes → Option Nat
  | [] => none
  | b :: bs => if b = endMarker then some 0 else (firstEnd bs).map (· + 1)

/-- R113: the deframer. The remainder begins directly after the closing END (R117). -/
def slipDecode (buffer : Bytes) : Frame :=
  match firstEnd buffer with
  | none => ⟨[], buffer, false⟩
  | some s =>
    match firstEnd (buffer.drop (s + 1)) with
    | none => ⟨[], buffer, false⟩
    | some k => ⟨unescape ((buffer.drop (s + 1)).take k), buffer.drop (s + 1 + k + 1), true⟩

/-! ## The operations -/

/-- R110: no state is read or written; the frame is the result. -/
def execEncode (payload : Bytes) (s : State) : Out := .next (s.give (.bytes (slipEncode payload)))

/-- R113: no state is read or written; payload, remainder and `complete` are the result. -/
def execDecode (buffer : Bytes) (s : State) : Out := .next (s.give (.frame (slipDecode buffer)))

/-! ## The symbols of a `decode` in progress -/

/-- R31, R113: a `decode` in progress begins at the front of its argument. -/
def beginDecode (buffer : Bytes) (s : State) : Out := .next { s with codec := some ⟨buffer, 0, none, []⟩ }

/-- R113: the argument ends without a closing END: it is the remainder, whole and unchanged. -/
def endOfBuffer (d : DeframeRun) (s : State) : Out :=
  .next ({ s with codec := none }.give (.frame ⟨[], d.buffer, false⟩))

/-- R83, R84: a symbol of `len` bytes that is no END. Outside a frame it is passed over; in an interior its payload
byte is produced. -/
def passSymbol (len : Nat) (payload : Bytes) (d : DeframeRun) (s : State) : Out :=
  match d.start with
  | none => .next { s with codec := some { d with pos := d.pos + len } }
  | some _ => .next { s with codec := some { d with pos := d.pos + len, out := d.out ++ payload } }

/-- R113: an END is the START when there is none yet, and otherwise the closing END, at index `e = pos`: the
interior is done and the remainder is what lies directly behind. -/
def meetEnd (d : DeframeRun) (s : State) : Out :=
  match d.start with
  | none => .next { s with codec := some { d with pos := d.pos + 1, start := some d.pos } }
  | some _ => .next ({ s with codec := none }.give (.frame ⟨d.out, d.buffer.drop (d.pos + 1), true⟩))

/-- R113: `END`. -/
def execSlipEnd (s : State) : Out :=
  match s.codec with
  | none => .refused .noDecodeRunning
  | some d => meetEnd d s

/-- R83, R114: `ESC_END_PAIR` produces 0xC0 and advances by 2. -/
def execEscEndPair (s : State) : Out :=
  match s.codec with
  | none => .refused .noDecodeRunning
  | some d => passSymbol 2 (symbolPayload .escEndPair) d s

/-- R83, R114: `ESC_ESC_PAIR` produces 0xDB and advances by 2. -/
def execEscEscPair (s : State) : Out :=
  match s.codec with
  | none => .refused .noDecodeRunning
  | some d => passSymbol 2 (symbolPayload .escEscPair) d s

/-- R83, R114: `LITERAL` produces the byte itself and advances by 1. -/
def execLiteral (b : Byte) (s : State) : Out :=
  if b = endMarker ∨ b = escMarker then .refused .illFormed
  else
    match s.codec with
    | none => .refused .noDecodeRunning
    | some d => passSymbol 1 (symbolPayload (.literal b)) d s

/-- R83, R85, R114: `LONE_ESC` produces 0xDB and advances by 1; the byte behind it is its own symbol. -/
def execLoneEsc (s : State) : Out :=
  match s.codec with
  | none => .refused .noDecodeRunning
  | some d => passSymbol 1 (symbolPayload .loneEsc) d s

end Sys2Proof.Machine
end

