-- ==== Sys2Proof/Machine/Io.lean ====
section
/-! DEFINITION. Buffered I/O of the Transport (42_transport_io.md): `write`, `read`, `rawRead`. -/

namespace Sys2Proof.Machine

/-! ## write -/

/-- R150: the bytes handed to the device. -/
def wireBytes (payload : Bytes) (s : State) : Bytes := if s.framingEnabled then slipEncode payload else payload

/-- R63: `LockWr`; what it does on a held lock is given no meaning. -/
def State.withWriteLock (s : State) (k : State → Out) : Out :=
  if s.wrLocked then .refused .lockHeld else k { s with wrLocked := true }

/-- R150: `write`: one `DevWrite` of the whole buffer, under the write lock. -/
def execWrite (payload : Bytes) (s : State) : Out :=
  s.whenIdle (s.whenConnected
    (s.withWriteLock (fun s' => (devWriteLocked (wireBytes payload s) s').deliver)))

/-! ## read and rawRead -/

/-- R63, R152: `LockRd` and `TimerArm`, and the accumulation begins; what `LockRd` does on a held lock is given no
meaning. -/
def State.startReading (s : State) (r : ReadRun) : Out :=
  if s.rdLocked then .refused .lockHeld else .next { s with rdLocked := true, run := .reading r }

/-- R155, R159: the exit on a timeout or a device failure: everything accumulated is saved, the timer is gone, the
lock is released, and the error is raised. -/
def abandonRead (r : ReadRun) (e : ErrorKind) (s : State) : State :=
  ({ s with leftover := r.acc, rdLocked := false }).raise e

/-- R157, R158: the exit through the length gate. A framed `read` decodes once, returns the payload and keeps the
remainder; the others return all of `acc`. -/
def completeRead (r : ReadRun) (s : State) : State :=
  if r.deframes then
    ({ s with rdLocked := false, leftover := (slipDecode r.acc).remainder }).finish (.bytes (slipDecode r.acc).payload)
  else ({ s with rdLocked := false }).finish (.bytes r.acc)

/-- R156: a chunk is appended, and the gate is tested. -/
def acceptChunk (r : ReadRun) (s : State) : Out :=
  if gateOpen r.acc r.minLength then .next (completeRead r s) else .next { s with run := .reading r }

/-- R152: one `DevRead` of a `read` or `rawRead` in progress. -/
def readStep (r : ReadRun) (s : State) : Out :=
  match devRead r.timer s with
  | .chunk c s' => acceptChunk { r with acc := r.acc ++ c } s'
  | .cancelled s' => .next (abandonRead r .timeoutError s')
  | .failed cause s' => .next (abandonRead r (.deviceError cause) s')
  | .never => .fault .readHangs

/-- R152: `DevRead` after `DevRead` until the call ends. Each one that does not end it takes an entry off the inbound
stream, so a fuel of two more than that stream's length is enough. -/
def readToEnd : Nat → State → Out
  | 0, _ => .fault .readHangs
  | fuel + 1, s =>
    match s.run with
    | .reading r =>
      match readStep r s with
      | .next s' => readToEnd fuel s'
      | .fault f => .fault f
      | .refused x => .refused x
    | .idle => .next s
    | .sequence _ => .next s
    | .closing => .next s

/-- R60: an operation that may be suspended in `DevRead` runs to its end. -/
def finishReading (o : Out) : Out :=
  match o with
  | .next s => readToEnd (s.inbound.length + 2) s
  | .fault f => .fault f
  | .refused x => .refused x

/-- R152, R153, R159: `read` up to its first `DevRead`. The leftover is consumed before it is extended; a frame that
it holds alone is returned at once; without a readable channel it is put back. -/
def beginRead (timeout : Int) (minLength : Nat) (s : State) : Out :=
  s.whenIdle (s.whenConnected
    (if s.framingEnabled && (slipDecode s.leftover).complete then
      .next (({ s with leftover := (slipDecode s.leftover).remainder }).finish
        (.bytes (slipDecode s.leftover).payload))
    else if s.devReadable then
      ({ s with leftover := [] }).startReading ⟨s.leftover, timerOf timeout s.now, minLength, s.framingEnabled⟩
    else .next (s.finish (.bytes []))))

/-- R152: `read`. -/
def execRead (timeout : Int) (minLength : Nat) (s : State) : Out := finishReading (beginRead timeout minLength s)

/-- R160: `rawRead` up to its one `DevRead`: a leftover that is not empty is returned whole. -/
def beginRawRead (timeout : Int) (s : State) : Out :=
  s.whenIdle (s.whenConnected
    (match s.leftover with
    | b :: bs => .next (({ s with leftover := [] }).finish (.bytes (b :: bs)))
    | [] =>
      if s.devReadable then s.startReading ⟨[], timerOf timeout s.now, 0, false⟩
      else .next (s.finish (.bytes []))))

/-- R160: `rawRead`: exactly one chunk, so the length gate is 0 and nothing is decoded. -/
def execRawRead (timeout : Int) (s : State) : Out := finishReading (beginRawRead timeout s)

end Sys2Proof.Machine
end

