-- ==== Sys2Proof/Machine/Control.lean ====
section
/-! DEFINITION. Transport lifecycle, control lines and delay (41_transport_control.md) and `setFraming`
(10_state.md R26). -/

namespace Sys2Proof.Machine

/-! ## Lifecycle -/

/-- R131: what a successful open writes: the leftover, the baud rate and the lifecycle, and nothing else (R261). -/
def State.nowConnected (s : State) (baud : Nat) : State :=
  { s with leftover := [], baudRate := baud, life := .connected }

/-- R131: `connect`. What the device chooses anew at the open (R36: whether it is readable, its inbound stream) is no part
of it and is left to device inputs behind it (log 33). -/
def execConnect (baud : Nat) (s : State) : Out :=
  s.whenIdle (s.whenCreated
    ((devOpenCall baud s).andThen (fun s' => .ok (s'.nowConnected baud))).deliver)

/-- R133: one round of the disconnect poll: while a lock is held another `POLL_MS` pass, and they enter no trace;
when both are free the handle is closed. -/
def pollStep (s : State) : Out :=
  if s.anyLocked then .next (s.tick Config.pollMs) else (devCloseCall s).deliver

/-- R133: `disconnect`. The lifecycle is closed first, whatever comes of the close. With a lock held the operation
stays in progress, polling. -/
def execDisconnect (s : State) : Out :=
  s.whenIdle (s.whenConnected
    (if s.anyLocked then .next { s with life := .closed, run := .closing }
      else (devCloseCall { s with life := .closed }).deliver))

/-- R26: `setFraming`: one field is written and nothing else. -/
def execSetFraming (b : Bool) (s : State) : Out :=
  s.whenIdle (s.whenNotClosed (Call.ok { s with framingEnabled := b }).deliver)

/-! ## Control lines -/

/-- R136: the body of `setDTR`: the latch is written before the request and keeps its value when that fails. -/
def setDTRCall (state : Bool) (s : State) : Call := devSignal .dtr state { s with dtrState := state }

/-- R137: the body of `setRTS`: the RTS request, and directly after it the last commanded DTR value. -/
def setRTSCall (state : Bool) (s : State) : Call :=
  (devSignal .rts state s).andThen (fun s' => devSignal .dtr s'.dtrState s')

/-- R136: `setDTR`. -/
def execSetDTR (state : Bool) (s : State) : Out := s.whenIdle (s.whenConnected (setDTRCall state s).deliver)

/-- R137: `setRTS`. -/
def execSetRTS (state : Bool) (s : State) : Out := s.whenIdle (s.whenConnected (setRTSCall state s).deliver)

/-! ## Delay -/

/-- R139: `sleep`; it returns when the whole delay has elapsed. -/
def execSleep (ms : Nat) (s : State) : Out := s.whenIdle (s.whenConnected (sleepCall ms s).deliver)

end Sys2Proof.Machine
end

