-- ==== Sys2Proof/Machine/Programs.lean ====
section
/-! DEFINITION. Reset commands, the runner, the three fixed programs (43_reset_programs.md) and the custom program
(44_custom_sequence.md). -/

namespace Sys2Proof.Machine

/-! ## Commands and the runner -/

/-- R181 to R183 with a foreign target: the call is made and the object answers it; a delay that returns has fully
elapsed (log 18). -/
def foreignCall (c : Command) (s : State) : Call :=
  match s.nextTargetAnswer with
  | .ok =>
    match c with
    | .setDTR _ => .ok s.dropTargetAnswer
    | .setRTS _ => .ok s.dropTargetAnswer
    | .wait n => .ok (s.dropTargetAnswer.tick n)
  | .fail cause => .raised (.deviceError cause) s.dropTargetAnswer
  | .never => .stuck .targetHangs

/-- R181 to R183: a command is one call on the target, entered in the capability trace (R14). -/
def runCommand (t : Target) (c : Command) (s : State) : Call :=
  match t with
  | .transport =>
    match c with
    | .setDTR b => setDTRCall b (s.logCap c)
    | .setRTS b => setRTSCall b (s.logCap c)
    | .wait n => sleepCall n (s.logCap c)
  | .foreign => foreignCall c (s.logCap c)

/-- R184: the runner: strictly in order, each command complete before the next; a failing one ends the run. -/
def runProgram (t : Target) : List Command → State → Call
  | [], s => .ok s
  | c :: cs, s => (runCommand t c s).andThen (runProgram t cs)

/-! ## Fixed programs (R185 to R187) -/

/-- R185: the commands of `classic`. -/
def classicProgram (resetDelay : Nat) : List Command :=
  [.setDTR false, .setRTS true, .wait 100, .setDTR true, .setRTS false, .wait resetDelay, .setDTR false]

/-- R186: the commands of `usbJTAGSerial`. -/
def usbJTAGSerialProgram : List Command :=
  [.setRTS false, .setDTR false, .wait 100, .setDTR true, .setRTS false, .wait 100,
    .setRTS true, .setDTR false, .setRTS true, .wait 100, .setRTS false, .setDTR false]

/-- R187: the commands of `hard`. -/
def hardProgram (usingUsbOtg : Bool) : List Command :=
  if usingUsbOtg then [.wait 200, .setRTS false, .wait 200] else [.wait 100, .setRTS false]

/-- R185, R96: `resetDelay = 0` is refused. -/
def whenDelayPositive (d : Nat) (k : Out) : Out :=
  match d with
  | 0 => .refused .resetDelayZero
  | _ + 1 => k

/-- R185: `classic`. -/
def execClassic (t : Target) (resetDelay : Option Nat) (s : State) : Out :=
  s.whenIdle (s.whenTarget t (whenDelayPositive (resetDelayOf resetDelay)
    (runProgram t (classicProgram (resetDelayOf resetDelay)) s).deliver))

/-- R186: `usbJTAGSerial`. -/
def execUsbJTAGSerial (t : Target) (s : State) : Out :=
  s.whenIdle (s.whenTarget t (runProgram t usbJTAGSerialProgram s).deliver)

/-- R187: `hard`. -/
def execHard (t : Target) (usingUsbOtg : Bool) (s : State) : Out :=
  s.whenIdle (s.whenTarget t (runProgram t (hardProgram usingUsbOtg) s).deliver)

/-! ## The custom program -/

/-- R202: no state is read or written. -/
def execValidateCustomSequence (text : Text) (s : State) : Out := .next (s.give (.bool (validText text)))

/-- R205: an invalid text is a silent no-op; a valid one is parsed and run, and every failure of its execution is
re-signalled as `CustomSequenceError`. -/
def execCustomReset (t : Target) (text : Text) (s : State) : Out :=
  s.whenIdle (s.whenTarget t
    (if validText text then (runProgram t (parseText text) s).wrapErrors.deliver else .next (s.finish .done)))

/-! ## The tokens of a program in progress -/

/-- R30, R184: a program in progress begins at its first token. -/
def beginProgram (t : Target) (text : Text) (wraps : Bool) (s : State) : Out :=
  .next { s with run := .sequence ⟨t, text, 0, wraps⟩ }

/-- R205: `customReset` up to its first command. -/
def beginCustomReset (t : Target) (text : Text) (s : State) : Out :=
  s.whenIdle (s.whenTarget t (if validText text then beginProgram t text true s else .next (s.finish .done)))

/-- R185, R98: `classic` up to its first command, its program as a text. -/
def beginClassic (t : Target) (resetDelay : Option Nat) (s : State) : Out :=
  s.whenIdle (s.whenTarget t (whenDelayPositive (resetDelayOf resetDelay)
    (beginProgram t (programText (classicProgram (resetDelayOf resetDelay))) false s)))

/-- R186, R98: `usbJTAGSerial` up to its first command, its program as a text. -/
def beginUsbJTAGSerial (t : Target) (s : State) : Out :=
  s.whenIdle (s.whenTarget t (beginProgram t (programText usbJTAGSerialProgram) false s))

/-- R187, R98: `hard` up to its first command, its program as a text. -/
def beginHard (t : Target) (usingUsbOtg : Bool) (s : State) : Out :=
  s.whenIdle (s.whenTarget t (beginProgram t (programText (hardProgram usingUsbOtg)) false s))

/-- R30: the token has been run: the position moves behind it and `rpc` by one. -/
def SeqRun.advance (q : SeqRun) : SeqRun := { q with rest := afterToken q.rest, rpc := q.rpc + 1 }

/-- R228: what a program in progress raises when a command of it raises `e`. -/
def SeqRun.errorOf (q : SeqRun) (e : ErrorKind) : ErrorKind := if q.wraps then .customSequenceError else e

/-- R184, R228: how a program in progress goes on after a command of it. -/
def afterCommand (q : SeqRun) (c : Call) : Out :=
  match c with
  | .ok s => .next { s with run := .sequence q.advance }
  | .raised e s => .next (s.raise (q.errorOf e))
  | .stuck f => .fault f

/-- R184, R25: a command of the program in progress. -/
def stepCommand (c : Command) (s : State) : Out :=
  match s.run with
  | .sequence q => s.whenTarget q.target (afterCommand q (runCommand q.target c s))
  | .idle => .refused .noProgramRunning
  | .reading _ => .refused .noProgramRunning
  | .closing => .refused .noProgramRunning

/-- R181: `D0`. -/
def execD0 (s : State) : Out := stepCommand (.setDTR false) s

/-- R181: `D1`. -/
def execD1 (s : State) : Out := stepCommand (.setDTR true) s

/-- R182: `R0`. -/
def execR0 (s : State) : Out := stepCommand (.setRTS false) s

/-- R182: `R1`. -/
def execR1 (s : State) : Out := stepCommand (.setRTS true) s

/-- R183: `W`; a wait of 0 is no reset command (R180). -/
def execW (n : Nat) (s : State) : Out :=
  match n with
  | 0 => .refused .illFormed
  | m + 1 => stepCommand (.wait (m + 1)) s

/-- R201: `SEP` belongs to no token and is no command: the position moves behind it and nothing else happens. -/
def execSep (s : State) : Out :=
  match s.run with
  | .sequence q => .next { s with run := .sequence { q with rest := q.rest.tail } }
  | .idle => .refused .noProgramRunning
  | .reading _ => .refused .noProgramRunning
  | .closing => .refused .noProgramRunning

end Sys2Proof.Machine
end

