-- ==== Sys2Proof/Machine/Dispatch.lean ====
section
/-! DEFINITION. One arm per row of the opcode table. -/

namespace Sys2Proof.Machine

def exec (i : Instr) (s : State) : Host.Outcome State Fault Refusal :=
  match i with
  | .slipEnd => Sys2Proof.Machine.execSlipEnd s
  | .escEndPair => Sys2Proof.Machine.execEscEndPair s
  | .escEscPair => Sys2Proof.Machine.execEscEscPair s
  | .literal b => Sys2Proof.Machine.execLiteral b s
  | .loneEsc => Sys2Proof.Machine.execLoneEsc s
  | .d0 => Sys2Proof.Machine.execD0 s
  | .d1 => Sys2Proof.Machine.execD1 s
  | .r0 => Sys2Proof.Machine.execR0 s
  | .r1 => Sys2Proof.Machine.execR1 s
  | .w n => Sys2Proof.Machine.execW n s
  | .sep => Sys2Proof.Machine.execSep s
  | .encode payload => Sys2Proof.Machine.execEncode payload s
  | .decode buffer => Sys2Proof.Machine.execDecode buffer s
  | .connect baud => Sys2Proof.Machine.execConnect baud s
  | .disconnect => Sys2Proof.Machine.execDisconnect s
  | .setDTR state => Sys2Proof.Machine.execSetDTR state s
  | .setRTS state => Sys2Proof.Machine.execSetRTS state s
  | .sleep ms => Sys2Proof.Machine.execSleep ms s
  | .setFraming b => Sys2Proof.Machine.execSetFraming b s
  | .write payload => Sys2Proof.Machine.execWrite payload s
  | .read timeout minLength => Sys2Proof.Machine.execRead timeout minLength s
  | .rawRead timeout => Sys2Proof.Machine.execRawRead timeout s
  | .classic target resetDelay => Sys2Proof.Machine.execClassic target resetDelay s
  | .usbJTAGSerial target => Sys2Proof.Machine.execUsbJTAGSerial target s
  | .hard target usingUsbOtg => Sys2Proof.Machine.execHard target usingUsbOtg s
  | .validateCustomSequence text => Sys2Proof.Machine.execValidateCustomSequence text s
  | .customReset target text => Sys2Proof.Machine.execCustomReset target text s

end Sys2Proof.Machine
end

