-- ==== Sys2Proof/Machine/Fetch.lean ====
section
/-! DEFINITION. What a step does next: where the next instruction comes from, what the block does between
instructions, and how a word is put where it is fetched next. -/

namespace Sys2Proof.Machine

/-- What a step does: run an instruction in a state, or something that is no instruction. -/
inductive Fetched where
  | instr (i : Instr) (s : State)
  | other (o : Out)

/-- R31, R113: the next symbol of a `decode` in progress, or the end of its argument. -/
def fetchSymbol (d : DeframeRun) (s : State) : Fetched :=
  match decodeSymbol (d.buffer.drop d.pos) with
  | .ok (i, _) => .instr i s
  | .error _ => .other (endOfBuffer d s)

/-- R30, R184: the next token of a program in progress; at the end of its text the run ends. -/
def fetchToken (q : SeqRun) (s : State) : Fetched :=
  match q.rest with
  | [] => .other (.next (s.finish .done))
  | c :: cs =>
    match decodeToken (c :: cs) with
    | .ok (i, _) => .instr i s
    | .error e => .other (.refused (.undecodable e))

/-- R95: only an operation can be invoked. -/
def invoked (i : Instr) (s : State) : Fetched := if i.isOp then .instr i s else .other (.refused .notAnOperation)

/-- Log 1: the operations that have small steps of their own begin them; the others run whole. -/
def invokedStepped (i : Instr) (s : State) : Fetched :=
  match i with
  | .decode buffer => .other (beginDecode buffer s)
  | .read timeout minLength => .other (beginRead timeout minLength s)
  | .rawRead timeout => .other (beginRawRead timeout s)
  | .classic t d => .other (beginClassic t d s)
  | .usbJTAGSerial t => .other (beginUsbJTAGSerial t s)
  | .hard t otg => .other (beginHard t otg s)
  | .customReset t text => .other (beginCustomReset t text s)
  | .slipEnd | .escEndPair | .escEscPair | .literal _ | .loneEsc => .other (.refused .notAnOperation)
  | .d0 | .d1 | .r0 | .r1 | .w _ | .sep => .other (.refused .notAnOperation)
  | .encode _ | .connect _ | .disconnect | .setDTR _ | .setRTS _ | .sleep _ | .setFraming _ => .instr i s
  | .write _ | .validateCustomSequence _ => .instr i s

/-- R35: what the device or a foreign target does on its own. -/
def deviceActs (e : DeviceEvent) (s : State) : State :=
  match e with
  | .readable b => { s with devReadable := b }
  | .arrives a => { s with inbound := s.inbound ++ [a] }
  | .willAnswer a => { s with answers := s.answers ++ [a] }
  | .targetWillAnswer a => { s with targetAnswers := s.targetAnswers ++ [a] }

/-- R260: an idle block runs the next operation the host has invoked, and does nothing when there is none. -/
def fetchInput (s : State) : Fetched :=
  match s.inputs with
  | [] => .other (.next s)
  | .invoke i :: rest => invoked i { s with inputs := rest }
  | .invokeStepped i :: rest => invokedStepped i { s with inputs := rest }
  | .invokeNow i :: rest => invoked i { s with inputs := rest }
  | .device e :: rest => .other (.next (deviceActs e { s with inputs := rest }))

/-- R60, R184: what is in progress goes on; otherwise the next input is taken. -/
def continueRun (s : State) : Fetched :=
  match s.run with
  | .idle => fetchInput s
  | .sequence q => fetchToken q s
  | .reading r => .other (readStep r s)
  | .closing => .other (pollStep s)

/-- R60, R61: an input that does not wait for the operation in progress comes first. -/
def fetchUrgent (s : State) : Fetched :=
  match s.inputs with
  | .invokeNow i :: rest => invoked i { s with inputs := rest }
  | .device e :: rest => .other (.next (deviceActs e { s with inputs := rest }))
  | .invoke _ :: _ => continueRun s
  | .invokeStepped _ :: _ => continueRun s
  | [] => continueRun s

/-- What the next step does. A `decode` in progress comes before everything else: SlipCodec suspends nowhere (R1,
R60), so nothing can come between its symbols. -/
def fetch (s : State) : Fetched :=
  match s.codec with
  | some d => fetchSymbol d s
  | none => fetchUrgent s

/-- Log 17: a code put where the next step fetches it: a symbol stands directly behind the START of a buffer being
decoded, a token at the front of a custom program being run against the connected Transport. -/
def loadCode (s : State) (c : Code) : State :=
  match c with
  | .wire b => { s with codec := some ⟨endMarker :: b, 1, some 0, []⟩ }
  | .chars t =>
    { s with
      codec := none
      inputs := []
      life := .connected
      devOpen := true
      run := .sequence ⟨.transport, t, 0, true⟩ }

end Sys2Proof.Machine
end

