-- ==== Sys2Proof/Machine/Step.lean ====
section
/-! DEFINITION. One step of the machine. -/

namespace Sys2Proof.Machine

/-- What is fetched is run. -/
def step (s : State) : Host.Outcome State Fault Refusal :=
  match fetch s with
  | .instr i s' => exec i s'
  | .other o => o

/-- The instruction whose table word is `w` (`decodeTableWord`), put where `step` fetches next (log 17). -/
def State.withFetchWord (s : State) (nbits w : Nat) : State := loadCode s (codeOfWord nbits w)

end Sys2Proof.Machine
end

