-- ==== Sys2Proof/Safety.lean ====
section
/-! DEFINITION. The terms claims are stated in: what a good state is, and closed forms of what a reset program or a
list of chunks does, written from the rules and not from the meanings. -/

namespace Sys2Proof.Machine

/-! ## Good states -/

/-- The bytes a device-trace entry says were received (R14). -/
def receivedIn : DevEvent → Bytes
  | .rx c => c
  | .open _ => []
  | .close => []
  | .sig _ _ => []
  | .tx _ => []
  | .cancel => []
  | .sleep _ => []

/-- R55: the concatenation `S` of every chunk yielded by `DevRead`, in order. -/
def State.received (s : State) : Bytes := s.devTrace.flatMap receivedIn

/-- R21, R34, R153: the bytes received and not yet returned: `acc` while a read is in progress, else the leftover. -/
def State.held (s : State) : Bytes :=
  match s.run with
  | .reading r => r.acc
  | .idle => s.leftover
  | .sequence _ => s.leftover
  | .closing => s.leftover

/-- R206: what is left of a validated program: nothing, a separator and a valid text, or a valid text. -/
def restValid : Text → Bool
  | [] => true
  | c :: cs => if c = sepChar then validText cs else validText (c :: cs)

/-- R25, R34, R206, R228: what holds of the operation in progress. -/
def Run.fits (s : State) : Run → Bool
  | .idle => !s.rdLocked
  | .sequence q => !s.rdLocked && restValid q.rest && (q.target == .foreign || s.life == .connected)
  | .reading _ => s.rdLocked && s.leftover == [] && s.life == .connected
  | .closing => !s.rdLocked && s.life == .closed

/-- R31: what holds of the `decode` in progress. -/
def DeframeRun.fits (d : DeframeRun) : Bool :=
  decide (d.pos ≤ d.buffer.length) &&
    match d.start with
    | none => d.out == [] && !(d.buffer.take d.pos).contains endMarker
    | some i => decide (i < d.pos) && d.buffer[i]? == some endMarker

/-- R36: before `connect` the device is not open, and while connected it is. -/
def State.openFits (s : State) : Bool :=
  match s.life with
  | .created => !s.devOpen
  | .connected => s.devOpen
  | .closed => true

/-- The invariant of the machine. R21: what is held is a suffix of what was received. R33, R34: the locks are held
exactly while they are needed. R25, R31, R206: the operation in progress fits the lifecycle and its own form. -/
structure State.Inv (s : State) : Prop where
  heldSuffix : s.held <:+ s.received
  writeLockFree : s.wrLocked = false
  runFits : s.run.fits s = true
  codecFits : ∀ d, s.codec = some d → d.fits = true
  openFits : s.openFits = true

/-- R61, R25: an operation of the Transport that needs it connected may be invoked. -/
abbrev State.Ready (s : State) : Prop := s.run = .idle ∧ s.life = .connected

/-- R25: a reset program may be run against `t`. -/
abbrev State.ReadyFor (s : State) (t : Target) : Prop := s.run = .idle ∧ (t = .transport → s.life = .connected)

/-- R12: the device accepts its next `n` requests. -/
abbrev State.Accepts (s : State) (n : Nat) : Prop := ∀ a ∈ s.answers.take n, a = .ok

/-- A foreign target accepts its next `n` calls. -/
abbrev State.TargetAccepts (s : State) (n : Nat) : Prop := ∀ a ∈ s.targetAnswers.take n, a = .ok

/-- No input that would come before the next step of the operation in progress (R60, R61). -/
def Input.waits : Input → Bool
  | .invoke _ => true
  | .invokeStepped _ => true
  | .invokeNow _ => false
  | .device _ => false

/-- Nothing comes between the steps of the operation in progress. -/
abbrev State.Undisturbed (s : State) : Prop := ∀ x, s.inputs.head? = some x → x.waits = true

/-! ## What a reset program does to an accepting Transport (R136, R137, R139, R184) -/

/-- R136, R137: how many requests a command makes. -/
def requestsOfCommand : Command → Nat
  | .setDTR _ => 1
  | .setRTS _ => 2
  | .wait _ => 0

/-- The requests of a program. -/
def requestsOf (P : List Command) : Nat := (P.map requestsOfCommand).sum

/-- R24: the latch after a program, from the latch before it. -/
def latchAfter (d : Bool) : List Command → Bool
  | [] => d
  | .setDTR b :: P => latchAfter b P
  | .setRTS _ :: P => latchAfter d P
  | .wait _ :: P => latchAfter d P

/-- R14, R181 to R183: the device trace of a program, from the latch before it. -/
def eventsOf (d : Bool) : List Command → List DevEvent
  | [] => []
  | .setDTR b :: P => .sig .dtr b :: eventsOf b P
  | .setRTS b :: P => .sig .rts b :: .sig .dtr d :: eventsOf d P
  | .wait n :: P => .sleep n :: eventsOf d P

/-- R35: the level of a line after a device trace whose requests all succeeded, from the level before it. -/
def levelAfter (l : Line) (v : Bool) : List DevEvent → Bool
  | [] => v
  | .sig l' b :: es => levelAfter l (if l' = l then b else v) es
  | .open _ :: es => levelAfter l v es
  | .close :: es => levelAfter l v es
  | .tx _ :: es => levelAfter l v es
  | .rx _ :: es => levelAfter l v es
  | .cancel :: es => levelAfter l v es
  | .sleep _ :: es => levelAfter l v es

/-- R183: the ms of delay in a program. -/
def delayOf : List Command → Nat
  | [] => 0
  | .setDTR _ :: P => delayOf P
  | .setRTS _ :: P => delayOf P
  | .wait n :: P => n + delayOf P

/-- R180: every `Wait` of a reset program has n ≥ 1. -/
def positiveCommand : Command → Bool
  | .setDTR _ => true
  | .setRTS _ => true
  | .wait n => n != 0

/-- The state a program leaves when its target is the Transport and the device accepts every request; the operation
hands over nothing. -/
def State.afterProgram (s : State) (P : List Command) : State :=
  { s with
    dtrState := latchAfter s.dtrState P
    dtrLine := levelAfter .dtr s.dtrLine (eventsOf s.dtrState P)
    rtsLine := levelAfter .rts s.rtsLine (eventsOf s.dtrState P)
    answers := s.answers.drop (requestsOf P)
    capTrace := s.capTrace ++ P
    devTrace := s.devTrace ++ eventsOf s.dtrState P
    now := s.now + delayOf P
    results := s.results ++ [.done] }

/-- The same for a foreign target that accepts every call: nothing of the Transport or its device changes. -/
def State.afterForeign (s : State) (P : List Command) : State :=
  { s with
    targetAnswers := s.targetAnswers.drop P.length
    capTrace := s.capTrace ++ P
    now := s.now + delayOf P
    results := s.results ++ [.done] }

/-- Either of the two. -/
def State.afterRun (s : State) (t : Target) (P : List Command) : State :=
  match t with
  | .transport => s.afterProgram P
  | .foreign => s.afterForeign P

/-- The target accepts every call of the program. -/
abbrev State.AcceptsRun (s : State) (t : Target) (P : List Command) : Prop :=
  (t = .transport → s.Accepts (requestsOf P)) ∧ (t = .foreign → s.TargetAccepts P.length)

/-- R12, R136, R137, R236: a call that the command `c` makes on the target never returns. -/
def State.NeverReturns (s : State) (t : Target) (c : Command) : Prop :=
  match t with
  | .foreign => s.nextTargetAnswer = .never
  | .transport =>
    match c with
    | .setDTR _ => s.nextAnswer = .never
    | .setRTS _ => s.nextAnswer = .never ∨ (s.nextAnswer = .ok ∧ s.dropAnswer.nextAnswer = .never)
    | .wait _ => False

/-- The stuck state of a program whose call never returns. -/
def hangOf : Target → Fault
  | .transport => .signalHangs
  | .foreign => .targetHangs

/-- R185 to R187, R205: the target and the commands of a reset program; none for an operand that is refused or a text
that is a silent no-op, and for every other instruction. -/
def programOf : Instr → Option (Target × List Command)
  | .classic t d => if d = some 0 then none else some (t, classicProgram (d.getD 50))
  | .usbJTAGSerial t => some (t, usbJTAGSerialProgram)
  | .hard t otg => some (t, hardProgram otg)
  | .customReset t text => if validText text then some (t, parseText text) else none
  | _ => none

/-- R228: the error a program in progress hands over when a call on its target fails with this cause. -/
def runError (wraps : Bool) (cause : Cause) : ErrorKind :=
  if wraps then .customSequenceError else .deviceError cause

/-- Log 1: the operations that have small steps of their own. -/
def hasSmallSteps : Instr → Bool
  | .decode _ => true
  | .read _ _ => true
  | .rawRead _ => true
  | .classic _ _ => true
  | .usbJTAGSerial _ => true
  | .hard _ _ => true
  | .customReset _ _ => true
  | _ => false

/-- R227, R228: an outcome with the error handed over last, behind the results `before`, replaced by
`CustomSequenceError`. -/
def withWrappedError (before : List Result) (o : Out) : Out :=
  match o with
  | .next t =>
    match t.results.drop before.length with
    | [.error _] => .next { t with results := before ++ [.error .customSequenceError] }
    | _ => .next t
  | .fault f => .fault f
  | .refused r => .refused r

/-! ## What a list of chunks does to a read (R54, R56, R156) -/

/-- The entries of the inbound stream for chunks at given times. -/
def arrivalsOf (cs : List (Nat × Bytes)) : List Arrival := cs.map (fun c => ⟨c.1, .chunk c.2⟩)

/-- Their bytes, in order (R51). -/
def bytesOf (cs : List (Nat × Bytes)) : Bytes := cs.flatMap (fun c => c.2)

/-- Their entries in the device trace (R14). -/
def rxOf (cs : List (Nat × Bytes)) : List DevEvent := cs.map (fun c => .rx c.2)

/-- The time when the last of them has been taken. -/
def timeAfter (now : Nat) : List (Nat × Bytes) → Nat
  | [] => now
  | c :: cs => timeAfter (max now c.1) cs

/-- R154: the chunks come before the timer of a call begun at `now` fires, if there is one. -/
abbrev InTime (timeout : Int) (now : Nat) (cs : List (Nat × Bytes)) : Prop :=
  0 < timeout → ∀ c ∈ cs, c.1 < now + timeout.toNat

/-- R156, R160: a `read` that reaches its first `DevRead`. -/
abbrev State.ReadsDevice (s : State) : Prop :=
  s.Ready ∧ s.rdLocked = false ∧ s.devReadable = true ∧
    (s.framingEnabled = true → (slipDecode s.leftover).complete = false)

/-- R160: a `rawRead` that reaches its `DevRead`. -/
abbrev State.RawReadsDevice (s : State) : Prop :=
  s.Ready ∧ s.rdLocked = false ∧ s.devReadable = true ∧ s.leftover = []

/-- R157, R158: what a `read` returns and keeps when the gate opens on `acc`. -/
def returnedOf (framed : Bool) (acc : Bytes) : Bytes := if framed then (slipDecode acc).payload else acc

/-- See `returnedOf`. -/
def keptOf (framed : Bool) (acc : Bytes) : Bytes := if framed then (slipDecode acc).remainder else []

/-! ## Who may raise what (R220) -/

/-- R220, R222: the error kinds an instruction can hand over. A token of a program hands over what its run does. -/
def mayRaise : Instr → ErrorKind → Bool
  | .connect _, .deviceOpenError => true
  | .disconnect, .deviceError _ => true
  | .setDTR _, .deviceError _ => true
  | .setRTS _, .deviceError _ => true
  | .write _, .deviceError _ => true
  | .read t _, .timeoutError => decide (0 < t)
  | .read _ _, .deviceError _ => true
  | .rawRead t, .timeoutError => decide (0 < t)
  | .rawRead _, .deviceError _ => true
  | .classic _ _, .deviceError _ => true
  | .usbJTAGSerial _, .deviceError _ => true
  | .hard _ _, .deviceError _ => true
  | .customReset _ _, .customSequenceError => true
  | .d0, .deviceError _ => true
  | .d1, .deviceError _ => true
  | .r0, .deviceError _ => true
  | .r1, .deviceError _ => true
  | .w _, .deviceError _ => true
  | .d0, .customSequenceError => true
  | .d1, .customSequenceError => true
  | .r0, .customSequenceError => true
  | .r1, .customSequenceError => true
  | .w _, .customSequenceError => true
  | _, _ => false

/-- R28: the instructions that may write the leftover. -/
def writesLeftover : Instr → Bool
  | .connect _ => true
  | .read _ _ => true
  | .rawRead _ => true
  | _ => false

/-- R24, R28: the instructions that may write the latch: `setDTR`, and the commands and programs that call it. -/
def writesLatch : Instr → Bool
  | .setDTR _ => true
  | .d0 => true
  | .d1 => true
  | .classic .transport _ => true
  | .usbJTAGSerial .transport => true
  | .customReset .transport _ => true
  | _ => false

/-- R61, R130: the operations of the Transport and the reset programs. -/
def usesTransport : Instr → Bool
  | .connect _ => true
  | .disconnect => true
  | .setDTR _ => true
  | .setRTS _ => true
  | .sleep _ => true
  | .setFraming _ => true
  | .write _ => true
  | .read _ _ => true
  | .rawRead _ => true
  | .classic _ _ => true
  | .usbJTAGSerial _ => true
  | .hard _ _ => true
  | .customReset _ _ => true
  | _ => false

/-- R25: the instructions that need the Transport connected. -/
def needsConnected : Instr → Bool
  | .disconnect => true
  | .setDTR _ => true
  | .setRTS _ => true
  | .sleep _ => true
  | .write _ => true
  | .read _ _ => true
  | .rawRead _ => true
  | .classic .transport _ => true
  | .usbJTAGSerial .transport => true
  | .hard .transport _ => true
  | .customReset .transport _ => true
  | _ => false

end Sys2Proof.Machine
end

