-- ==== Sys2Proof/Certificates/Slice0/Obligations.lean ====
section
/-! DEFINITION. The statements for the provers. Each docstring names the rules of spec/ it comes from. -/

open Sys2Proof Sys2Proof.Machine

/-! ## Encodings -/

/-- R80, R91, R93, R99: words written out from the table decode to their rows. The character codes are PRESUMED (R93,
log 15), and that the first byte says which language a word is in is the model's choice (log 16). -/
def Obligations.SampleWordsDecode : Prop :=
  decodeTableWord 8 0xC0 = some .slipEnd ∧ decodeTableWord 16 0xDBDC = some .escEndPair ∧
  decodeTableWord 16 0xDBDD = some .escEscPair ∧ decodeTableWord 8 0xDB = some .loneEsc ∧
  decodeTableWord 8 0x41 = some (.literal 0x41) ∧ decodeTableWord 16 0x4430 = some .d0 ∧
  decodeTableWord 16 0x4431 = some .d1 ∧ decodeTableWord 16 0x5230 = some .r0 ∧
  decodeTableWord 16 0x5231 = some .r1 ∧ decodeTableWord 8 0x7C = some .sep ∧
  decodeTableWord 32 0x57313030 = some (.w 100) ∧ decodeTableWord 8 0x57 = none

/-- R83: the four rows of the deframer's symbol table, by what stands at the front of an interior, with the class, the
payload byte produced and the advance. That there is one pass from left to right is the spec's decision D28. -/
def Obligations.SymbolTable : Prop :=
  (∀ I, decodeSymbol (0xDB :: 0xDC :: I) = .ok (.escEndPair, I) ∧ unescape (0xDB :: 0xDC :: I) = 0xC0 :: unescape I) ∧
  (∀ I, decodeSymbol (0xDB :: 0xDD :: I) = .ok (.escEscPair, I) ∧ unescape (0xDB :: 0xDD :: I) = 0xDB :: unescape I) ∧
  (∀ I, I.head? ≠ some 0xDC → I.head? ≠ some 0xDD →
    decodeSymbol (0xDB :: I) = .ok (.loneEsc, I) ∧ unescape (0xDB :: I) = 0xDB :: unescape I) ∧
  (∀ b I, b ≠ 0xC0 → b ≠ 0xDB →
    decodeSymbol (b :: I) = .ok (.literal b, I) ∧ unescape (b :: I) = b :: unescape I)

/-- R83, R99: decoding a symbol's bytes gives the symbol back, whatever follows; a lone ESC must not be followed by
the second byte of a pair. -/
def Obligations.SymbolEncodeDecode : Prop :=
  ∀ (i : Instr) (rest : Bytes), i.format = .slip → i.wf = true →
    (i = .loneEsc → rest.head? ≠ some 0xDC ∧ rest.head? ≠ some 0xDD) →
    encodeInstr i = some (.wire (symbolBytes i)) ∧
      decodeInstr (.wire (symbolBytes i ++ rest)) = .ok (i, .wire rest)

/-- R83, R85 (f): the other direction: every byte sequence that is not empty begins with a symbol, and its
bytes followed by the rest are the sequence. -/
def Obligations.SymbolDecodeEncode : Prop :=
  ∀ (b : Byte) (bs : Bytes), ∃ i rest, decodeSymbol (b :: bs) = .ok (i, rest) ∧ i.format = .slip ∧ i.wf = true ∧
    symbolBytes i ++ rest = b :: bs

/-- R91, R92, R203: decoding a token's characters gives the token back, when a separator or the end follows. That 0 is
false and 1 true is the spec's decision D7, and what a numeral is its decision D18. -/
def Obligations.TokenEncodeDecode : Prop :=
  ∀ (i : Instr) (rest : Text), i.format = .token → i.wf = true →
    (i = .sep ∨ rest = [] ∨ rest.head? = some '|') →
    ∃ t, encodeInstr i = some (.chars t) ∧ decodeInstr (.chars (t ++ rest)) = .ok (i, .chars rest)

/-! ## SlipCodec -/

/-- R116. The remainder clauses are an inference the spec marks as its own. -/
def Obligations.FrameRoundTrip : Prop :=
  ∀ B X : Bytes, slipDecode (slipEncode B ++ X) = ⟨B, X, true⟩ ∧ slipDecode (slipEncode B) = ⟨B, [], true⟩

/-- R111. -/
def Obligations.FrameLength : Prop :=
  ∀ p : Bytes, (slipEncode p).length = p.length + 2 + p.countP (fun b => b = 0xC0 ∨ b = 0xDB) ∧
    2 ≤ (slipEncode p).length ∧ (slipEncode p).length ≤ 2 * p.length + 2

/-- R112: END first and last and nowhere else, and between them only symbols in which ESC begins a pair. An inference
the spec marks as its own. -/
def Obligations.FrameShape : Prop :=
  ∀ p : Bytes, ∃ symbols : List Instr,
    slipEncode p = 0xC0 :: (symbols.flatMap symbolBytes ++ [0xC0]) ∧
    (0xC0 : Byte) ∉ symbols.flatMap symbolBytes ∧
    ∀ i ∈ symbols, symbolBytes i = [0xDB, 0xDC] ∨ symbolBytes i = [0xDB, 0xDD] ∨
      ∃ b, symbolBytes i = [b] ∧ b ≠ 0xC0 ∧ b ≠ 0xDB

/-- R115: no 0xC0 at all, or exactly one: incomplete, and the buffer is the remainder. -/
def Obligations.PartialFrameUnchanged : Prop :=
  ∀ buffer : Bytes, buffer.count 0xC0 ≤ 1 → slipDecode buffer = ⟨[], buffer, false⟩

/-- R113, R84, R117: with two END bytes the payload is the unescaped interior between the first two, the bytes before
the first are discarded, and the remainder begins directly after the second. -/
def Obligations.FrameFoundBetweenEnds : Prop :=
  ∀ before interior after : Bytes, (0xC0 : Byte) ∉ before → (0xC0 : Byte) ∉ interior →
    slipDecode (before ++ 0xC0 :: (interior ++ 0xC0 :: after)) = ⟨unescape interior, after, true⟩

/-- R110, R113: the operations `encode` and `decode` complete in every state, hand over the framer's and the
deframer's result and change nothing else. That they do so also while an operation of the Transport is in progress is
log 28. -/
def Obligations.CodecOperationsArePure : Prop :=
  ∀ (b : Bytes) (s : State),
    exec (.encode b) s = .next { s with results := s.results ++ [.bytes (slipEncode b)] } ∧
    exec (.decode b) s = .next { s with results := s.results ++ [.frame (slipDecode b)] }

/-- R83, R84, R113: the symbols of a `decode` in progress that are no END: before the START they are passed over,
inside a frame they produce their payload byte; position and output change and nothing else. The steps of a `decode`
are the model's own (log 1, log 26). -/
def Obligations.SymbolsStepTheDecode : Prop :=
  ∀ (d : DeframeRun) (s : State) (i : Instr), s.codec = some d → i.format = .slip → i.wf = true → i ≠ .slipEnd →
    (d.start = none →
      exec i s = .next { s with codec := some { d with pos := d.pos + (symbolBytes i).length } }) ∧
    (∀ k, d.start = some k →
      exec i s = .next { s with codec := some { d with
        pos := d.pos + (symbolBytes i).length, out := d.out ++ symbolPayload i } })

/-- R113, R117: END is the START when there is none, and otherwise ends the `decode`, with the remainder directly
behind it. The steps of a `decode` are the model's own (log 1). -/
def Obligations.EndOpensAndClosesTheFrame : Prop :=
  ∀ (d : DeframeRun) (s : State), s.codec = some d →
    (d.start = none →
      exec .slipEnd s = .next { s with codec := some { d with pos := d.pos + 1, start := some d.pos } }) ∧
    (∀ k, d.start = some k →
      exec .slipEnd s = .next { s with
        codec := none, results := s.results ++ [.frame ⟨d.out, d.buffer.drop (d.pos + 1), true⟩] })

/-! ## Custom sequence texts -/

/-- R204, the six rows of the source's validation table. -/
def Obligations.ValidationTable : Prop :=
  validText "D0|R1|W100|D1|R0|W50|D0".toList = true ∧ validText "D2".toList = false ∧
  validText "W0".toList = false ∧ validText "W-5".toList = false ∧ validText "X1".toList = false ∧
  validText "R".toList = false

/-- R201: `split` cuts at every separator and nowhere else: k separators give k + 1 tokens, no token holds a
separator, and the tokens joined by separators are the text. That a text with no separator has one token is the spec's
decision D17. -/
def Obligations.SplitCutsAtSeparators : Prop :=
  ∀ t : Text, (splitText t).length = t.count '|' + 1 ∧ (∀ k ∈ splitText t, '|' ∉ k) ∧
    List.intercalate ['|'] (splitText t) = t

/-- R202, R206: `validateCustomSequence` completes in every state, hands over whether every token is valid and
changes nothing else; a valid text parses to one command per token, each a reset command. That it does so also while an
operation of the Transport is in progress is log 28. -/
def Obligations.ValidationIsPure : Prop :=
  ∀ (t : Text) (s : State),
    exec (.validateCustomSequence t) s = .next { s with results := s.results ++ [.bool (validText t)] } ∧
    (validText t = true → (parseText t).length = (splitText t).length ∧ ∀ c ∈ parseText t, positiveCommand c = true)

/-- R206, R97: every program with at least one command is what its text parses to. -/
def Obligations.ProgramTextParses : Prop :=
  ∀ P : List Command, P ≠ [] → (∀ c ∈ P, positiveCommand c = true) →
    validText (programText P) = true ∧ parseText (programText P) = P

/-- R98: the strings of the fixed programs. The strings of usbJTAGSerial and hard are an inference the spec marks as
its own. -/
def Obligations.FixedProgramStrings : Prop :=
  programText (classicProgram (resetDelayOf none)) = "D0|R1|W100|D1|R0|W50|D0".toList ∧
  programText usbJTAGSerialProgram = "R0|D0|W100|D1|R0|W100|R1|D0|R1|W100|R0|D0".toList ∧
  programText (hardProgram true) = "W200|R0|W200".toList ∧ programText (hardProgram false) = "W100|R0".toList

/-! ## Lifecycle and control lines -/

/-- R131, R221, R25: `connect`: success, failure, and the lifecycle states it is refused in. The spec's decisions D5,
D6, D8 and D9. That the
device's readability and inbound stream are as before is the model's choice (log 33), and that a device whose open
failed is as open as before is DEDUCED (log 32). -/
def Obligations.ConnectOpensOnce : Prop :=
  ∀ (baud : Nat) (s : State), s.run = .idle →
    (s.life = .created → s.nextAnswer = .ok →
      exec (.connect baud) s = .next { s with
        leftover := [], baudRate := baud, life := .connected, devOpen := true, answers := s.answers.tail,
        devTrace := s.devTrace ++ [.open baud], results := s.results ++ [.done] }) ∧
    (∀ c, s.life = .created → s.nextAnswer = .fail c →
      exec (.connect baud) s = .next { s with
        answers := s.answers.tail, devTrace := s.devTrace ++ [.open baud],
        results := s.results ++ [.error .deviceOpenError] }) ∧
    (s.life ≠ .created → exec (.connect baud) s = .refused (.wrongLifecycle s.life))

/-- R133: `disconnect` with both locks free: the Transport is closed whether the close succeeds or fails. Closing the
lifecycle first is the spec's decision D34. Whether the device is open after a close that failed is a free value
(log 30). -/
def Obligations.DisconnectCloses : Prop :=
  ∀ s : State, s.Ready → s.rdLocked = false → s.wrLocked = false →
    (s.nextAnswer = .ok →
      exec .disconnect s = .next { s with
        life := .closed, devOpen := false, answers := s.answers.tail,
        devTrace := s.devTrace ++ [.close], results := s.results ++ [.done] }) ∧
    (∀ c, s.nextAnswer = .fail c → ∃ v n,
      exec .disconnect s = .next { s with
        life := .closed, devOpen := v, draws := n, answers := s.answers.tail,
        devTrace := s.devTrace ++ [.close], results := s.results ++ [.error (.deviceError c)] })

/-- R133, R236, R272: with a lock held `disconnect` stays in progress; however many undisturbed steps follow, each of
them lets `POLL_MS` pass, nothing else changes, no trace entry is made, and it never ends. The spec's decision D21;
the interval is any number from 1 up (log 10). -/
def Obligations.DisconnectPollsWhileLocked : Prop :=
  ∀ (s : State) (n : Nat), s.Ready → s.codec = none → s.Undisturbed → (s.rdLocked = true ∨ s.wrLocked = true) →
    exec .disconnect s = .next { s with life := .closed, run := .closing } ∧
    Host.Core.run Sys2Proof.core n { s with life := .closed, run := .closing } =
      .next { s with life := .closed, run := .closing, now := s.now + n * Config.pollMs }

/-- R26: `setFraming` writes one field, in `Created` and `Connected`, makes no device call and cannot fail; it is
refused in `Closed` and while an operation is in progress. The spec's decisions D5, D8 and D27. -/
def Obligations.SetFramingWritesOneField : Prop :=
  ∀ (b : Bool) (s : State),
    (s.run = .idle → s.life ≠ .closed →
      exec (.setFraming b) s = .next { s with framingEnabled := b, results := s.results ++ [.done] }) ∧
    (s.run = .idle → s.life = .closed → exec (.setFraming b) s = .refused (.wrongLifecycle .closed)) ∧
    (s.run ≠ .idle → exec (.setFraming b) s = .refused .busy)

/-- R136: `setDTR`: one request; the latch is written also when the device rejects it, and the line's level is then
some level the statement says nothing of. The failure clause is the spec's decision D10; the level is a free value
(log 6). -/
def Obligations.SetDTRLatchesFirst : Prop :=
  ∀ (b : Bool) (s : State), s.Ready →
    (s.nextAnswer = .ok →
      exec (.setDTR b) s = .next { s with
        dtrState := b, dtrLine := b, answers := s.answers.tail,
        devTrace := s.devTrace ++ [.sig .dtr b], results := s.results ++ [.done] }) ∧
    (∀ c, s.nextAnswer = .fail c → ∃ v n,
      exec (.setDTR b) s = .next { s with
        dtrState := b, dtrLine := v, draws := n, answers := s.answers.tail,
        devTrace := s.devTrace ++ [.sig .dtr b], results := s.results ++ [.error (.deviceError c)] })

/-- R137: `setRTS`: the RTS request, then the last commanded DTR value; when the first is rejected the second is not
made. The failure clauses are the spec's decision D11; the level is a free value (log 6). -/
def Obligations.SetRTSReissuesDTR : Prop :=
  ∀ (b : Bool) (s : State), s.Ready →
    (s.nextAnswer = .ok → s.dropAnswer.nextAnswer = .ok →
      exec (.setRTS b) s = .next { s with
        rtsLine := b, dtrLine := s.dtrState, answers := s.answers.tail.tail,
        devTrace := s.devTrace ++ [.sig .rts b, .sig .dtr s.dtrState], results := s.results ++ [.done] }) ∧
    (∀ c, s.nextAnswer = .fail c → ∃ v n,
      exec (.setRTS b) s = .next { s with
        rtsLine := v, draws := n, answers := s.answers.tail,
        devTrace := s.devTrace ++ [.sig .rts b], results := s.results ++ [.error (.deviceError c)] }) ∧
    (∀ c, s.nextAnswer = .ok → s.dropAnswer.nextAnswer = .fail c → ∃ v n,
      exec (.setRTS b) s = .next { s with
        rtsLine := b, dtrLine := v, draws := n, answers := s.answers.tail.tail,
        devTrace := s.devTrace ++ [.sig .rts b, .sig .dtr s.dtrState],
        results := s.results ++ [.error (.deviceError c)] })

/-- R139: `sleep`, also of 0 ms, is entered in the device trace and lets the whole delay pass; no state of the
Transport or the device changes. The case 0 is the spec's decision D29; the time line is the model's own and a lower
bound on time (log 19). -/
def Obligations.SleepElapsesWhole : Prop :=
  ∀ (ms : Nat) (s : State), s.Ready →
    exec (.sleep ms) s = .next { s with
      now := s.now + ms, devTrace := s.devTrace ++ [.sleep ms], results := s.results ++ [.done] }

/-! ## Buffered I/O -/

/-- R150: `write`: one `DevWrite` of the whole buffer, framed or raw; the lock is free afterwards, on success and on
failure; no field of T changes. The spec's decision D30; the outbound stream says nothing of the far end (log 21). -/
def Obligations.WriteSendsWhole : Prop :=
  ∀ (p : Bytes) (s : State), s.Ready → s.wrLocked = false →
    (s.nextAnswer = .ok →
      exec (.write p) s = .next { s with
        answers := s.answers.tail,
        outbound := s.outbound ++ (if s.framingEnabled then slipEncode p else p),
        devTrace := s.devTrace ++ [.tx (if s.framingEnabled then slipEncode p else p)],
        results := s.results ++ [.done] }) ∧
    (∀ c, s.nextAnswer = .fail c →
      exec (.write p) s = .next { s with
        answers := s.answers.tail,
        outbound := s.outbound ++ (if s.framingEnabled then slipEncode p else p),
        devTrace := s.devTrace ++ [.tx (if s.framingEnabled then slipEncode p else p)],
        results := s.results ++ [.error (.deviceError c)] })

/-- R153, R164 exit 1: a framed `read` whose leftover alone holds a frame returns it, empty payload or not, whatever
`timeout` and `minLength`, without lock, timer or device. -/
def Obligations.ReadFromLeftoverAlone : Prop :=
  ∀ (t : Int) (m : Nat) (s : State), s.Ready → s.framingEnabled = true → (slipDecode s.leftover).complete = true →
    exec (.read t m) s = .next { s with
      leftover := (slipDecode s.leftover).remainder,
      results := s.results ++ [.bytes (slipDecode s.leftover).payload] }

/-- R159, R160, R164 exit 2: without a readable channel `read` and `rawRead` return nothing and change nothing. For
`read` this is the spec's decision D14. -/
def Obligations.UnreadableReturnsEmpty : Prop :=
  ∀ (t : Int) (m : Nat) (s : State), s.Ready → s.devReadable = false →
    ((s.framingEnabled = true → (slipDecode s.leftover).complete = false) →
      exec (.read t m) s = .next { s with results := s.results ++ [.bytes []] }) ∧
    (s.leftover = [] → exec (.rawRead t) s = .next { s with results := s.results ++ [.bytes []] })

/-- R152, R156 to R158, R164 exits 3 to 5: the chunks `cs` leave the gate closed (before the first chunk it is not
tested), the chunk `c` opens it, and all of them come in time. A framed `read` decodes once and keeps the remainder, a
raw one returns everything; the lock is free again. That the gate is tested after each chunk is the spec's decision
D12; arrival times are log 3. -/
def Obligations.ReadAccumulatesToTheGate : Prop :=
  ∀ (t : Int) (m : Nat) (s : State) (cs : List (Nat × Bytes)) (c : Nat × Bytes) (rest : List Arrival),
    s.ReadsDevice → s.inbound = arrivalsOf (cs ++ [c]) ++ rest → InTime t s.now (cs ++ [c]) →
    (cs ≠ [] → (s.leftover ++ bytesOf cs).length < m) → m ≤ (s.leftover ++ bytesOf (cs ++ [c])).length →
    exec (.read t m) s = .next { s with
      leftover := keptOf s.framingEnabled (s.leftover ++ bytesOf (cs ++ [c])),
      inbound := rest, now := timeAfter s.now (cs ++ [c]), devTrace := s.devTrace ++ rxOf (cs ++ [c]),
      results := s.results ++ [.bytes (returnedOf s.framingEnabled (s.leftover ++ bytesOf (cs ++ [c])))] }

/-- R155, R163, R164 exit 6: the chunks `cs` come in time and do not open the gate, and nothing else comes before the
timer fires: `TimeoutError`, with the old leftover and every chunk kept as the leftover, and the rest of the inbound
stream untouched. Arrival times are log 3. -/
def Obligations.ReadTimeoutKeepsBytes : Prop :=
  ∀ (t : Int) (m : Nat) (s : State) (cs : List (Nat × Bytes)) (rest : List Arrival),
    s.ReadsDevice → 0 < t → s.inbound = arrivalsOf cs ++ rest → InTime t s.now cs →
    (∀ a, rest.head? = some a → s.now + t.toNat < a.time) → (cs ≠ [] → (s.leftover ++ bytesOf cs).length < m) →
    exec (.read t m) s = .next { s with
      leftover := s.leftover ++ bytesOf cs, inbound := rest, now := s.now + t.toNat,
      devTrace := s.devTrace ++ rxOf cs ++ [.cancel], results := s.results ++ [.error .timeoutError] }

/-- R159, R164 exit 7: a failure of the device after the chunks `cs`: `DeviceError`, with everything kept. The spec's
decision D15. -/
def Obligations.ReadFailureKeepsBytes : Prop :=
  ∀ (t : Int) (m : Nat) (s : State) (cs : List (Nat × Bytes)) (at' : Nat) (cause : Cause) (rest : List Arrival),
    s.ReadsDevice → s.inbound = arrivalsOf cs ++ ⟨at', .fail cause⟩ :: rest → InTime t s.now (cs ++ [(at', [])]) →
    (cs ≠ [] → (s.leftover ++ bytesOf cs).length < m) →
    exec (.read t m) s = .next { s with
      leftover := s.leftover ++ bytesOf cs, inbound := rest, now := max (timeAfter s.now cs) at',
      devTrace := s.devTrace ++ rxOf cs, results := s.results ++ [.error (.deviceError cause)] }

/-- R154, R164 exit 8, R272: without a timer, and with a device that never yields enough, the call never ends. The
spec's decision D13; that past its end the inbound stream is silent is the model's choice (log 3). -/
def Obligations.ReadWithoutTimerHangs : Prop :=
  ∀ (t : Int) (m : Nat) (s : State) (cs : List (Nat × Bytes)),
    s.ReadsDevice → t ≤ 0 → s.inbound = arrivalsOf cs → (cs ≠ [] → (s.leftover ++ bytesOf cs).length < m) →
    exec (.read t m) s = .fault .readHangs

/-- R226: a chunk comes in the very ms in which the timer fires, after any chunks `cs` that came in time and left the gate
closed (before the first chunk it is not tested). Either the timer is taken first and the chunk stays in the inbound
stream for a later `DevRead`, or the chunk is: then the call succeeds if the gate opens, and otherwise the next
`DevRead` is cancelled with the chunk kept. A `rawRead` takes the chunk or the timer. Which comes first is a free value,
and the statement holds for either. The spec's decisions D16, as log 4 codes it, and D12. -/
def Obligations.TimerAndChunkTogether : Prop :=
  (∀ (t : Int) (m : Nat) (s : State) (cs : List (Nat × Bytes)) (c : Bytes) (rest : List Arrival),
    s.ReadsDevice → 0 < t → s.inbound = arrivalsOf cs ++ ⟨s.now + t.toNat, .chunk c⟩ :: rest → InTime t s.now cs →
    (cs ≠ [] → (s.leftover ++ bytesOf cs).length < m) →
    ∃ n, exec (.read t m) s = .next { s with
        leftover := s.leftover ++ bytesOf cs, inbound := ⟨s.now + t.toNat, .chunk c⟩ :: rest,
        now := s.now + t.toNat, draws := n, devTrace := s.devTrace ++ rxOf cs ++ [.cancel],
        results := s.results ++ [.error .timeoutError] } ∨
      (m ≤ (s.leftover ++ bytesOf cs ++ c).length ∧ exec (.read t m) s = .next { s with
        leftover := keptOf s.framingEnabled (s.leftover ++ bytesOf cs ++ c), inbound := rest,
        now := s.now + t.toNat, draws := n, devTrace := s.devTrace ++ rxOf cs ++ [.rx c],
        results := s.results ++ [.bytes (returnedOf s.framingEnabled (s.leftover ++ bytesOf cs ++ c))] }) ∨
      ((s.leftover ++ bytesOf cs ++ c).length < m ∧ exec (.read t m) s = .next { s with
        leftover := s.leftover ++ bytesOf cs ++ c, inbound := rest,
        now := s.now + t.toNat, draws := n, devTrace := s.devTrace ++ rxOf cs ++ [.rx c, .cancel],
        results := s.results ++ [.error .timeoutError] })) ∧
  (∀ (t : Int) (s : State) (c : Bytes) (rest : List Arrival),
    s.RawReadsDevice → 0 < t → s.inbound = ⟨s.now + t.toNat, .chunk c⟩ :: rest →
    ∃ n, exec (.rawRead t) s = .next { s with
        now := s.now + t.toNat, draws := n, devTrace := s.devTrace ++ [.cancel],
        results := s.results ++ [.error .timeoutError] } ∨
      exec (.rawRead t) s = .next { s with
        inbound := rest, now := s.now + t.toNat, draws := n, devTrace := s.devTrace ++ [.rx c],
        results := s.results ++ [.bytes c] })

/-- R160: a `rawRead` returns the whole leftover if there is one, and otherwise exactly one chunk as it is, whatever
the framing. That the leftover is emptied is the spec's decision D25. -/
def Obligations.RawReadReturnsLeftoverOrChunk : Prop :=
  ∀ (t : Int) (s : State) (c : Nat × Bytes) (rest : List Arrival),
    (s.Ready → s.leftover ≠ [] →
      exec (.rawRead t) s = .next { s with leftover := [], results := s.results ++ [.bytes s.leftover] }) ∧
    (s.RawReadsDevice → s.inbound = ⟨c.1, .chunk c.2⟩ :: rest → InTime t s.now [c] →
      exec (.rawRead t) s = .next { s with
        inbound := rest, now := max s.now c.1, devTrace := s.devTrace ++ [.rx c.2],
        results := s.results ++ [.bytes c.2] })

/-- R160, R222, R223: the errors of a `rawRead`: the timer fires before anything comes, or the device fails; the
leftover stays empty and no byte is lost. Without a timer a silent device makes it hang. The spec's decisions D13 and
D15; arrival times, and that past its end the inbound stream is silent, are the model's choice (log 3), and the fault's
name is log 12. -/
def Obligations.RawReadErrors : Prop :=
  ∀ (t : Int) (s : State), s.RawReadsDevice →
    (0 < t → (∀ a, s.inbound.head? = some a → s.now + t.toNat < a.time) →
      exec (.rawRead t) s = .next { s with
        now := s.now + t.toNat, devTrace := s.devTrace ++ [.cancel],
        results := s.results ++ [.error .timeoutError] }) ∧
    (∀ at' cause rest, s.inbound = ⟨at', .fail cause⟩ :: rest → InTime t s.now [(at', [])] →
      exec (.rawRead t) s = .next { s with
        inbound := rest, now := max s.now at', results := s.results ++ [.error (.deviceError cause)] }) ∧
    (t ≤ 0 → s.inbound = [] → exec (.rawRead t) s = .fault .readHangs)

/-- R236, R272: a call to the device that never returns leaves the operation stuck, and no step ends it: the one call of
`connect`, `setDTR`, `write` and `disconnect`, either request of `setRTS`, and any call of a reset program on its target,
after the commands before it have been accepted, whether the program runs whole or command by command. A call that
never returns is one of the answers of log 2, a foreign target's of log 18, and the faults' names are log 12. -/
def Obligations.UnansweredCallHangs : Prop :=
  (∀ (b : Bool) (n : Nat) (p : Bytes) (s : State), s.run = .idle → s.nextAnswer = .never →
    (s.life = .created → exec (.connect n) s = .fault .openHangs) ∧
    (s.life = .connected →
      exec (.setDTR b) s = .fault .signalHangs ∧ exec (.setRTS b) s = .fault .signalHangs ∧
      (s.wrLocked = false → exec (.write p) s = .fault .writeHangs) ∧
      (s.rdLocked = false → s.wrLocked = false → exec .disconnect s = .fault .closeHangs))) ∧
  (∀ (b : Bool) (s : State), s.Ready → s.nextAnswer = .ok → s.dropAnswer.nextAnswer = .never →
    exec (.setRTS b) s = .fault .signalHangs) ∧
  (∀ (i : Instr) (t : Target) (before : List Command) (c : Command) (after : List Command) (s : State),
    programOf i = some (t, before ++ c :: after) → s.ReadyFor t → s.AcceptsRun t before →
    (s.afterRun t before).NeverReturns t c → exec i s = .fault (hangOf t)) ∧
  (∀ (c : Command) (q : SeqRun) (s : State), positiveCommand c = true → s.run = .sequence q →
    (q.target = .transport → s.life = .connected) → s.NeverReturns q.target c →
    exec (instrOfCommand c) s = .fault (hangOf q.target))

/-- R162, R278: two frames that arrive in one chunk: the first `read` returns the first payload, and the second one
returns the second payload without touching the device. -/
def Obligations.SecondFrameFromLeftover : Prop :=
  ∀ (t₁ t₂ : Int) (m₁ m₂ at' : Nat) (p q : Bytes) (s : State) (rest : List Arrival),
    s.ReadsDevice → s.framingEnabled = true → s.leftover = [] →
    s.inbound = ⟨at', .chunk (slipEncode p ++ slipEncode q)⟩ :: rest → InTime t₁ s.now [(at', [])] →
    m₁ ≤ (slipEncode p ++ slipEncode q).length →
    ∃ s₁, exec (.read t₁ m₁) s = .next s₁ ∧ s₁.results = s.results ++ [.bytes p] ∧ s₁.leftover = slipEncode q ∧
      exec (.read t₂ m₂) s₁ = .next { s₁ with leftover := [], results := s₁.results ++ [.bytes q] }

/-- R163: after a `read` that timed out the leftover is the old leftover and the chunks received, and a `rawRead` returns
exactly them, if there are any. -/
def Obligations.TimedOutBytesRetrievable : Prop :=
  ∀ (t t' : Int) (m : Nat) (s s₁ : State), s.ReadsDevice → exec (.read t m) s = .next s₁ →
    s₁.results = s.results ++ [.error .timeoutError] →
    s₁.leftover = s.leftover ++ (s₁.devTrace.drop s.devTrace.length).flatMap receivedIn ∧
    (s₁.leftover ≠ [] →
      exec (.rawRead t') s₁ = .next { s₁ with leftover := [], results := s₁.results ++ [.bytes s₁.leftover] })

/-! ## Reset programs -/

/-- R181 to R183, R228: a command of a program in progress: one call on the target with the traces and the latch of
R136, R137 and R139, and the position moves behind the token. The steps of a program are the model's own (log 1); the
target accepts the command's calls. -/
def Obligations.CommandsRunInOrder : Prop :=
  ∀ (c : Command) (q : SeqRun) (s : State), positiveCommand c = true → s.run = .sequence q →
    (q.target = .transport → s.life = .connected) → s.AcceptsRun q.target [c] →
    exec (instrOfCommand c) s = .next { s.afterRun q.target [c] with
      results := s.results,
      run := .sequence { q with rest := q.rest.dropWhile (· != '|'), rpc := q.rpc + 1 } }

/-- R201: a separator in a program in progress is passed over and nothing else happens. The steps of a program are the
model's own (log 1). -/
def Obligations.SeparatorPassedOver : Prop :=
  ∀ (q : SeqRun) (s : State), s.run = .sequence q →
    exec .sep s = .next { s with run := .sequence { q with rest := q.rest.tail } }

/-- R228: a command of a program in progress that fails ends the run; the commands before it stay executed, the rest is
not executed, and the error is `CustomSequenceError` for a custom program and `DeviceError` for a fixed one. On the
Transport: a rejected `SetDTR` has written the latch; a `SetRTS` has made one request or both. On a foreign target every
command can fail, a delay included (R227). The spec's decisions D10, D11, D23 and D36; the level of the line whose
request was rejected is a free value (log 6), and how a foreign target fails is log 18. -/
def Obligations.FailingCommandEndsTheRun : Prop :=
  ∀ (c : Cause) (q : SeqRun) (s : State), s.run = .sequence q →
    (q.target = .transport → s.life = .connected → ∀ b,
      (s.nextAnswer = .fail c → ∃ v n, exec (instrOfCommand (.setDTR b)) s = .next { s with
        dtrState := b, dtrLine := v, draws := n, answers := s.answers.tail, run := .idle,
        capTrace := s.capTrace ++ [.setDTR b], devTrace := s.devTrace ++ [.sig .dtr b],
        results := s.results ++ [.error (runError q.wraps c)] }) ∧
      (s.nextAnswer = .fail c → ∃ v n, exec (instrOfCommand (.setRTS b)) s = .next { s with
        rtsLine := v, draws := n, answers := s.answers.tail, run := .idle,
        capTrace := s.capTrace ++ [.setRTS b], devTrace := s.devTrace ++ [.sig .rts b],
        results := s.results ++ [.error (runError q.wraps c)] }) ∧
      (s.nextAnswer = .ok → s.dropAnswer.nextAnswer = .fail c →
        ∃ v n, exec (instrOfCommand (.setRTS b)) s = .next { s with
          rtsLine := b, dtrLine := v, draws := n, answers := s.answers.tail.tail, run := .idle,
          capTrace := s.capTrace ++ [.setRTS b],
          devTrace := s.devTrace ++ [.sig .rts b, .sig .dtr s.dtrState],
          results := s.results ++ [.error (runError q.wraps c)] })) ∧
    (q.target = .foreign → s.nextTargetAnswer = .fail c → ∀ k, positiveCommand k = true →
      exec (instrOfCommand k) s = .next { s with
        targetAnswers := s.targetAnswers.tail, run := .idle, capTrace := s.capTrace ++ [k],
        results := s.results ++ [.error (runError q.wraps c)] })

/-- R184 to R187: the fixed programs on a target that accepts every call: the capability trace is the program, and on
the Transport the device trace, the latch and the lines are those of its commands in order. The spec's decisions D7,
D19 and D20; how a foreign target answers is log 18. -/
def Obligations.FixedProgramsComplete : Prop :=
  ∀ (t : Target) (s : State), s.ReadyFor t →
    (∀ d, d ≠ some 0 → s.AcceptsRun t (classicProgram (d.getD 50)) →
      exec (.classic t d) s = .next (s.afterRun t [.setDTR false, .setRTS true, .wait 100, .setDTR true,
        .setRTS false, .wait (d.getD 50), .setDTR false])) ∧
    (s.AcceptsRun t usbJTAGSerialProgram →
      exec (.usbJTAGSerial t) s = .next (s.afterRun t [.setRTS false, .setDTR false, .wait 100, .setDTR true,
        .setRTS false, .wait 100, .setRTS true, .setDTR false, .setRTS true, .wait 100, .setRTS false,
        .setDTR false])) ∧
    (∀ otg, s.AcceptsRun t (hardProgram otg) →
      exec (.hard t otg) s = .next (s.afterRun t
        (if otg then [.wait 200, .setRTS false, .wait 200] else [.wait 100, .setRTS false])))

/-- R185: the device trace of `classic` with the default delay, whatever the latch was. -/
def Obligations.ClassicDeviceTrace : Prop :=
  ∀ s : State, s.Ready → s.Accepts 7 →
    ∃ u, exec (.classic .transport none) s = .next u ∧ u.dtrState = false ∧
      u.devTrace = s.devTrace ++ [.sig .dtr false, .sig .rts true, .sig .dtr false, .sleep 100, .sig .dtr true,
        .sig .rts false, .sig .dtr true, .sleep 50, .sig .dtr false] ∧
      u.capTrace = s.capTrace ++ [.setDTR false, .setRTS true, .wait 100, .setDTR true, .setRTS false, .wait 50,
        .setDTR false]

/-- R205, R206: `customReset` with a valid text runs its commands in order; with an invalid one it returns having
done nothing. -/
def Obligations.CustomResetRunsOrDoesNothing : Prop :=
  ∀ (t : Target) (text : Text) (s : State), s.ReadyFor t →
    (validText text = true → s.AcceptsRun t (parseText text) →
      exec (.customReset t text) s = .next (s.afterRun t (parseText text))) ∧
    (validText text = false → exec (.customReset t text) s = .next { s with results := s.results ++ [.done] })

/-- R98, R227, R228: a fixed program and the same program given as text do the same, whatever the target answers, but
for the error handed over, which the text re-signals as `CustomSequenceError`. How a failure is reported is the spec's
decision D23. -/
def Obligations.FixedProgramsAsText : Prop :=
  ∀ (t : Target) (s : State),
    (∀ d, d ≠ some 0 → exec (.customReset t (programText (classicProgram (d.getD 50)))) s =
      withWrappedError s.results (exec (.classic t d) s)) ∧
    (exec (.customReset t (programText usbJTAGSerialProgram)) s =
      withWrappedError s.results (exec (.usbJTAGSerial t) s)) ∧
    (∀ otg, exec (.customReset t (programText (hardProgram otg))) s =
      withWrappedError s.results (exec (.hard t otg) s))

/-! ## Refusals -/

/-- R61: a Transport operation or reset program invoked while another is in progress is refused. The spec's decision
D27. -/
def Obligations.SecondOperationRefused : Prop :=
  ∀ (i : Instr) (s : State), usesTransport i = true → s.run ≠ .idle → exec i s = .refused .busy

/-- R25: an operation that needs the Transport connected is refused in `Created` and `Closed`. The spec's decision D8.
-/
def Obligations.NotConnectedRefused : Prop :=
  ∀ (i : Instr) (s : State), needsConnected i = true → s.run = .idle → s.life ≠ .connected →
    exec i s = .refused (.wrongLifecycle s.life)

/-- R185, R96: `resetDelay = 0` is refused. The spec's decision D19. -/
def Obligations.ZeroResetDelayRefused : Prop :=
  ∀ (t : Target) (s : State), s.ReadyFor t → exec (.classic t (some 0)) s = .refused .resetDelayZero

/-! ## The machine as a whole -/

/-- R28: the access summary, its writes: which instructions may write which field of T, from every state to every next
state. The table is an inference the spec marks as its own. -/
def Obligations.AccessSummary : Prop :=
  ∀ (i : Instr) (s u : State), exec i s = .next u →
    (writesLeftover i = false → u.leftover = s.leftover) ∧
    ((∀ b, i ≠ .setFraming b) → u.framingEnabled = s.framingEnabled) ∧
    ((∀ n, i ≠ .connect n) → u.baudRate = s.baudRate) ∧
    (writesLatch i = false → u.dtrState = s.dtrState) ∧
    ((∀ n, i ≠ .connect n) → i ≠ .disconnect → u.life = s.life) ∧
    u.handle = s.handle

/-- R23, R28: no step but `connect` reads or writes the baud rate: a step from a state that differs in it alone
differs in it alone. -/
def Obligations.BaudRateNeverRead : Prop :=
  ∀ (i : Instr) (s : State) (n : Nat), (∀ b, i ≠ .connect b) →
    exec i { s with baudRate := n } =
      match exec i s with
      | .next u => .next { u with baudRate := n }
      | .fault f => .fault f
      | .refused r => .refused r

/-- R220, R222: an error handed over by an instruction is of a kind the table gives it; in particular a `TimeoutError`
needs `timeout > 0`. `DeviceError` is the spec's decision D22. -/
def Obligations.ErrorsByOperation : Prop :=
  ∀ (i : Instr) (s u : State) (e : ErrorKind), exec i s = .next u → u.results = s.results ++ [.error e] →
    mayRaise i e = true

/-- R229, R231: when an error has been handed over the block is idle: nothing is in progress and no lock is held. The
invariant rules out the states in which a lock is held for no reason. An inference the spec marks as its own. -/
def Obligations.IdleAfterAnError : Prop :=
  ∀ (s u : State) (e : ErrorKind), s.Inv → step s = .next u → u.results = s.results ++ [.error e] →
    u.run = .idle ∧ u.rdLocked = false ∧ u.wrLocked = false

/-- R25: there is no way back from `Closed`. The spec's decision D8. -/
def Obligations.ClosedIsForever : Prop :=
  ∀ s u : State, step s = .next u → s.life = .closed → u.life = .closed

/-- R36, R260: creation: nothing is in progress, the Transport is `Created`, framing_enabled is `FRAMING_INIT` (OPEN,
log 9), the handle is the one given (log 22), the latch is false (the spec's decision D6), the locks are free, the device
is not open, and the invariant holds. Of what R36 leaves unspecified or to the device nothing is stated but the
leftover, which the invariant (what is held is a suffix of what was received) makes empty at creation: the model's
choice (log 8). -/
def Obligations.CreationState : Prop :=
  State.reset.life = .created ∧ State.reset.framingEnabled = Config.framingInit ∧
    State.reset.handle = Config.handle ∧ State.reset.dtrState = false ∧ State.reset.rdLocked = false ∧
    State.reset.wrLocked = false ∧ State.reset.run = .idle ∧ State.reset.codec = none ∧
    State.reset.devOpen = false ∧ State.reset.Inv

/-- R21, R33, R34, R36, R55: every step keeps the invariant: what is held is a suffix of what was received, the locks
are held only while a read is in progress, and the operation in progress fits the lifecycle. The block's state in the
middle of an operation is the model's (log 1). The device is open while `Connected` (R131, R36) and not open while
`Created`, also after a failed open, which is the model's (log 32). -/
def Obligations.InvariantKept : Prop := ∀ s u : State, s.Inv → step s = .next u → u.Inv

/-- R206, R63: from a good state no step meets a text that is no custom sequence, or a held lock. The refusals named
are the model's (log 13). -/
def Obligations.GoodStatesNeverMisfetch : Prop :=
  ∀ (s : State) (r : Refusal), s.Inv → step s = .refused r → (∀ e, r ≠ .undecodable e) ∧ r ≠ .lockHeld ∧
    (∀ m, r ≠ .notModelled m)

/-- A step runs the instruction fetched: the next symbol of a `decode` in progress, the next token of a program in
progress, or the operation the host has invoked (which leaves the queue of inputs). What else a step does: at the end of
its argument a `decode` in progress is incomplete (R113); at the end of its text a program in progress is done (R184); a
read in progress makes one `DevRead`; an operation invoked to run in small steps begins, or runs whole if it has none; a
device input changes the device's side and nothing else; an idle block with nothing invoked does nothing (R260). How
invocations reach the block is the model's choice (log 17), and so are the small steps (log 1), the device's scripts
(log 2, log 3, log 18) and what an idle step does (log 27). -/
def Obligations.StepRunsTheInstruction : Prop :=
  (∀ (s : State) (d : DeframeRun) (i : Instr) (rest : Bytes), s.codec = some d →
    decodeInstr (.wire (d.buffer.drop d.pos)) = .ok (i, .wire rest) → step s = exec i s) ∧
  (∀ (s : State) (d : DeframeRun), s.codec = some d → d.buffer.length ≤ d.pos →
    step s = .next { s with codec := none, results := s.results ++ [.frame ⟨[], d.buffer, false⟩] }) ∧
  (∀ (s : State) (q : SeqRun) (i : Instr) (rest : Text), s.codec = none → s.Undisturbed → s.run = .sequence q →
    decodeInstr (.chars q.rest) = .ok (i, .chars rest) → step s = exec i s) ∧
  (∀ (s : State) (q : SeqRun), s.codec = none → s.Undisturbed → s.run = .sequence q → q.rest = [] →
    step s = .next { s with run := .idle, results := s.results ++ [.done] }) ∧
  (∀ (s : State) (r : ReadRun), s.codec = none → s.Undisturbed → s.run = .reading r → step s = readStep r s) ∧
  (∀ (s : State) (i : Instr) (rest : List Input), s.codec = none → s.run = .idle → s.inputs = .invoke i :: rest →
    i.isOp = true → step s = exec i { s with inputs := rest }) ∧
  (∀ (s : State) (i : Instr) (rest : List Input), s.codec = none → s.inputs = .invokeNow i :: rest →
    i.isOp = true → step s = exec i { s with inputs := rest }) ∧
  (∀ (s : State) (i : Instr) (rest : List Input), s.codec = none → s.run = .idle →
    s.inputs = .invokeStepped i :: rest → i.isOp = true → hasSmallSteps i = false →
    step s = exec i { s with inputs := rest }) ∧
  (∀ (s : State) (i : Instr) (rest : List Input), s.codec = none → s.run = .idle →
    s.inputs = .invokeStepped i :: rest →
    (∀ b, i = .decode b → step s = beginDecode b { s with inputs := rest }) ∧
    (∀ t m, i = .read t m → step s = beginRead t m { s with inputs := rest }) ∧
    (∀ t, i = .rawRead t → step s = beginRawRead t { s with inputs := rest }) ∧
    (∀ t d, i = .classic t d → step s = beginClassic t d { s with inputs := rest }) ∧
    (∀ t, i = .usbJTAGSerial t → step s = beginUsbJTAGSerial t { s with inputs := rest }) ∧
    (∀ t otg, i = .hard t otg → step s = beginHard t otg { s with inputs := rest }) ∧
    (∀ t text, i = .customReset t text → step s = beginCustomReset t text { s with inputs := rest })) ∧
  (∀ (s : State) (e : DeviceEvent) (rest : List Input), s.codec = none → s.inputs = .device e :: rest →
    (∀ b, e = .readable b → step s = .next { s with inputs := rest, devReadable := b }) ∧
    (∀ a, e = .arrives a → step s = .next { s with inputs := rest, inbound := s.inbound ++ [a] }) ∧
    (∀ a, e = .willAnswer a → step s = .next { s with inputs := rest, answers := s.answers ++ [a] }) ∧
    (∀ a, e = .targetWillAnswer a →
      step s = .next { s with inputs := rest, targetAnswers := s.targetAnswers ++ [a] })) ∧
  (∀ s : State, s.codec = none → s.run = .idle → s.inputs = [] → step s = .next s)

/-! ## Small steps and whole operations -/

/-- R83, R113, R114: decoding symbol by symbol gives what `decode` gives. The steps are the model's own (log 1). -/
def Obligations.SteppedDecodeAgrees : Prop :=
  ∀ (buffer : Bytes) (s : State), s.codec = none →
    ∃ n u, beginDecode buffer s = .next u ∧ Host.Core.run Sys2Proof.core n u = exec (.decode buffer) s

/-- R98, R184, R205, R206: running a program token by token ends as the whole operation ends, whatever the target
answers: a valid custom text, and each of the fixed programs. The steps are the model's own (log 1). -/
def Obligations.SteppedProgramsAgree : Prop :=
  ∀ (t : Target) (s : State), s.ReadyFor t → s.codec = none → s.Undisturbed →
    (∀ text, validText text = true →
      ∃ n u, beginCustomReset t text s = .next u ∧ Host.Core.run Sys2Proof.core n u = exec (.customReset t text) s) ∧
    (∀ d, d ≠ some 0 →
      ∃ n u, beginClassic t d s = .next u ∧ Host.Core.run Sys2Proof.core n u = exec (.classic t d) s) ∧
    (∃ n u, beginUsbJTAGSerial t s = .next u ∧ Host.Core.run Sys2Proof.core n u = exec (.usbJTAGSerial t) s) ∧
    (∀ otg, ∃ n u, beginHard t otg s = .next u ∧ Host.Core.run Sys2Proof.core n u = exec (.hard t otg) s)

/-- R60, R152, R160: a read run one `DevRead` a step ends as the whole operation ends, whatever the device does. The
steps are the model's own (log 1). -/
def Obligations.SteppedReadAgrees : Prop :=
  ∀ (t : Int) (m : Nat) (s : State), s.Ready → s.codec = none → s.Undisturbed → s.rdLocked = false →
    (∃ n u, beginRead t m s = .next u ∧ Host.Core.run Sys2Proof.core n u = exec (.read t m) s) ∧
    (∃ n u, beginRawRead t s = .next u ∧ Host.Core.run Sys2Proof.core n u = exec (.rawRead t) s)
end

