-- ==== Sys2Proof/Laws/Codec.lean ====
section
/-! SUPPORT. Lemmas about the symbols, `firstEnd`, `unescape` and `slipDecode`. -/

namespace Sys2Proof.Machine

/-! ### firstEnd -/

theorem firstEnd_eq_none {b : Bytes} : firstEnd b = none ↔ endMarker ∉ b := by
  induction b with
  | nil => simp [firstEnd]
  | cons x b ih =>
    by_cases h : x = endMarker
    · simp [firstEnd, h]
    · simp [firstEnd, h, ih, Ne.symm h]

theorem firstEnd_append {a : Bytes} (h : endMarker ∉ a) (b : Bytes) :
    firstEnd (a ++ endMarker :: b) = some a.length := by
  induction a with
  | nil => simp [firstEnd]
  | cons x a ih =>
    have hx : x ≠ endMarker := fun e => h (by simp [e])
    simp [firstEnd, hx, ih (fun m => h (List.mem_cons_of_mem _ m))]

/-- Where there is an END, the sequence splits at the first one. -/
theorem firstEnd_some {b : Bytes} {n : Nat} (h : firstEnd b = some n) :
    ∃ pre post, b = pre ++ endMarker :: post ∧ endMarker ∉ pre ∧ pre.length = n := by
  induction b generalizing n with
  | nil => simp [firstEnd] at h
  | cons x b ih =>
    by_cases hx : x = endMarker
    · simp only [firstEnd, hx, if_true, Option.some.injEq] at h
      exact ⟨[], b, by simp [hx], by simp, by simpa using h⟩
    · simp only [firstEnd, hx, if_false, Option.map_eq_some_iff] at h
      obtain ⟨m, hm, rfl⟩ := h
      obtain ⟨pre, post, rfl, hn, rfl⟩ := ih hm
      exact ⟨x :: pre, post, by simp, by simp [hn, Ne.symm hx], by simp⟩

/-! ### Symbols -/

theorem decodeSymbol_nil : decodeSymbol [] = .error .endOfInput := rfl

theorem decodeSymbol_end (r : Bytes) : decodeSymbol (endMarker :: r) = .ok (.slipEnd, r) := by
  simp [decodeSymbol]

/-- A symbol that is read is at the front, whole, and at least one byte long. -/
theorem decodeSymbol_consumes {b : Bytes} {i : Instr} {rest : Bytes} (h : decodeSymbol b = .ok (i, rest)) :
    b = symbolBytes i ++ rest ∧ symbolBytes i ≠ [] := by
  cases b with
  | nil => simp [decodeSymbol] at h
  | cons x b =>
    simp only [decodeSymbol] at h
    split_ifs at h with h₁ h₂
    · cases h; simp [symbolBytes, h₁]
    · cases b with
      | nil => cases h; simp [symbolBytes, h₂]
      | cons y b =>
        simp only at h
        split_ifs at h with h₃ h₄ <;> cases h <;> simp [symbolBytes, *]
    · cases h; simp [symbolBytes]

/-- The symbols that are read: an END, or a symbol without one in its bytes. -/
theorem decodeSymbol_kind {b : Bytes} {i : Instr} {rest : Bytes} (h : decodeSymbol b = .ok (i, rest)) :
    i = .slipEnd ∨ (endMarker ∉ symbolBytes i ∧
      (i = .escEndPair ∨ i = .escEscPair ∨ i = .loneEsc ∨ ∃ x, i = .literal x ∧ x ≠ endMarker ∧ x ≠ escMarker)) := by
  cases b with
  | nil => simp [decodeSymbol] at h
  | cons x b =>
    simp only [decodeSymbol] at h
    split_ifs at h with h₁ h₂
    · cases h; exact .inl rfl
    · cases b with
      | nil => cases h; exact .inr ⟨by decide, by simp⟩
      | cons y b =>
        simp only at h
        split_ifs at h with h₃ h₄ <;> cases h <;> exact .inr ⟨by decide, by simp⟩
    · cases h; exact .inr ⟨by simp [symbolBytes, Ne.symm h₁], by simp [h₁, h₂]⟩

/-- R82: the bytes a payload byte is framed as. -/
theorem symbolBytes_symbolOf (p : Byte) : symbolBytes (symbolOf p) =
    if p = endMarker then [escMarker, escEndCode] else if p = escMarker then [escMarker, escEscCode] else [p] := by
  unfold symbolOf
  split_ifs <;> rfl

/-- The bytes of the symbol a payload byte is framed as hold no END. -/
theorem endMarker_not_mem_symbolBytes_symbolOf (p : Byte) : endMarker ∉ symbolBytes (symbolOf p) := by
  unfold symbolOf
  split_ifs with h₁ h₂
  · decide
  · decide
  · simp [symbolBytes, Ne.symm h₁]

theorem endMarker_not_mem_framed (p : Bytes) :
    endMarker ∉ p.flatMap (fun x => symbolBytes (symbolOf x)) := by
  simp only [List.mem_flatMap, not_exists, not_and]
  exact fun x _ => endMarker_not_mem_symbolBytes_symbolOf x

/-! ### unescape -/

theorem unescape_cons_of_ne {b : Byte} (h : b ≠ escMarker) (I : Bytes) : unescape (b :: I) = b :: unescape I := by
  cases I <;> simp [unescape, h]

theorem unescape_end_pair (I : Bytes) : unescape (escMarker :: escEndCode :: I) = endMarker :: unescape I := by
  simp [unescape]

theorem unescape_esc_pair (I : Bytes) : unescape (escMarker :: escEscCode :: I) = escMarker :: unescape I := by
  simp [unescape, show escEscCode ≠ escEndCode by decide]

theorem unescape_lone {I : Bytes} (h₁ : I.head? ≠ some escEndCode) (h₂ : I.head? ≠ some escEscCode) :
    unescape (escMarker :: I) = escMarker :: unescape I := by
  cases I with
  | nil => simp [unescape]
  | cons c I => simp at h₁ h₂; simp [unescape, h₁, h₂]

/-! ### slipDecode -/

/-- Every result of the deframer, by where the first two END bytes stand. -/
theorem slipDecode_cases (b : Bytes) :
    slipDecode b = ⟨[], b, false⟩ ∨
    ∃ pre I post, b = pre ++ endMarker :: (I ++ endMarker :: post) ∧ endMarker ∉ pre ∧ endMarker ∉ I ∧
      slipDecode b = ⟨unescape I, post, true⟩ := by
  unfold slipDecode
  split
  · exact .inl rfl
  · next s hs =>
    obtain ⟨pre, post, rfl, hn, rfl⟩ := firstEnd_some hs
    have hd : (pre ++ endMarker :: post).drop (pre.length + 1) = post := by simp
    rw [hd]
    split
    · exact .inl rfl
    · next k hk =>
      obtain ⟨I, post', rfl, hI, rfl⟩ := firstEnd_some hk
      refine .inr ⟨pre, I, post', rfl, hn, hI, ?_⟩
      have h₁ : (I ++ endMarker :: post').drop (I.length + 1) = post' := by simp
      rw [Nat.add_assoc _ _ 1, ← List.drop_drop, hd, h₁]
      simp

theorem slipDecode_incomplete {b : Bytes} (h : (slipDecode b).complete = false) : slipDecode b = ⟨[], b, false⟩ := by
  rcases slipDecode_cases b with k | ⟨_, _, _, -, -, -, k⟩
  · exact k
  · simp [k] at h

/-- R55: what the deframer does not consume is a suffix of its argument. -/
theorem slipDecode_remainder_suffix (b : Bytes) : (slipDecode b).remainder <:+ b := by
  rcases slipDecode_cases b with k | ⟨pre, I, post, rfl, -, -, k⟩
  · rw [k]
  · rw [k]
    exact ⟨pre ++ endMarker :: (I ++ [endMarker]), by simp⟩

end Sys2Proof.Machine
end

