-- ==== Sys2Proof/Laws/State.lean ====
section
/-! SUPPORT. What each named update of the state does to each field. -/

namespace Sys2Proof.Machine

/-! ### `State.log` -/

@[simp] theorem State.log_leftover (s : State) (e : DevEvent) : (s.log e).leftover = s.leftover := rfl
@[simp] theorem State.log_framingEnabled (s : State) (e : DevEvent) : (s.log e).framingEnabled = s.framingEnabled := rfl
@[simp] theorem State.log_baudRate (s : State) (e : DevEvent) : (s.log e).baudRate = s.baudRate := rfl
@[simp] theorem State.log_dtrState (s : State) (e : DevEvent) : (s.log e).dtrState = s.dtrState := rfl
@[simp] theorem State.log_handle (s : State) (e : DevEvent) : (s.log e).handle = s.handle := rfl
@[simp] theorem State.log_life (s : State) (e : DevEvent) : (s.log e).life = s.life := rfl
@[simp] theorem State.log_rdLocked (s : State) (e : DevEvent) : (s.log e).rdLocked = s.rdLocked := rfl
@[simp] theorem State.log_wrLocked (s : State) (e : DevEvent) : (s.log e).wrLocked = s.wrLocked := rfl
@[simp] theorem State.log_run (s : State) (e : DevEvent) : (s.log e).run = s.run := rfl
@[simp] theorem State.log_codec (s : State) (e : DevEvent) : (s.log e).codec = s.codec := rfl
@[simp] theorem State.log_devOpen (s : State) (e : DevEvent) : (s.log e).devOpen = s.devOpen := rfl
@[simp] theorem State.log_devReadable (s : State) (e : DevEvent) : (s.log e).devReadable = s.devReadable := rfl
@[simp] theorem State.log_inbound (s : State) (e : DevEvent) : (s.log e).inbound = s.inbound := rfl
@[simp] theorem State.log_answers (s : State) (e : DevEvent) : (s.log e).answers = s.answers := rfl
@[simp] theorem State.log_outbound (s : State) (e : DevEvent) : (s.log e).outbound = s.outbound := rfl
@[simp] theorem State.log_dtrLine (s : State) (e : DevEvent) : (s.log e).dtrLine = s.dtrLine := rfl
@[simp] theorem State.log_rtsLine (s : State) (e : DevEvent) : (s.log e).rtsLine = s.rtsLine := rfl
@[simp] theorem State.log_targetAnswers (s : State) (e : DevEvent) : (s.log e).targetAnswers = s.targetAnswers := rfl
@[simp] theorem State.log_inputs (s : State) (e : DevEvent) : (s.log e).inputs = s.inputs := rfl
@[simp] theorem State.log_results (s : State) (e : DevEvent) : (s.log e).results = s.results := rfl
@[simp] theorem State.log_capTrace (s : State) (e : DevEvent) : (s.log e).capTrace = s.capTrace := rfl
@[simp] theorem State.log_devTrace (s : State) (e : DevEvent) : (s.log e).devTrace = s.devTrace ++ [e] := rfl
@[simp] theorem State.log_now (s : State) (e : DevEvent) : (s.log e).now = s.now := rfl
@[simp] theorem State.log_draws (s : State) (e : DevEvent) : (s.log e).draws = s.draws := rfl

/-! ### `State.logCap` -/

@[simp] theorem State.logCap_leftover (s : State) (c : Command) : (s.logCap c).leftover = s.leftover := rfl
@[simp] theorem State.logCap_framingEnabled (s : State) (c : Command) : (s.logCap c).framingEnabled = s.framingEnabled := rfl
@[simp] theorem State.logCap_baudRate (s : State) (c : Command) : (s.logCap c).baudRate = s.baudRate := rfl
@[simp] theorem State.logCap_dtrState (s : State) (c : Command) : (s.logCap c).dtrState = s.dtrState := rfl
@[simp] theorem State.logCap_handle (s : State) (c : Command) : (s.logCap c).handle = s.handle := rfl
@[simp] theorem State.logCap_life (s : State) (c : Command) : (s.logCap c).life = s.life := rfl
@[simp] theorem State.logCap_rdLocked (s : State) (c : Command) : (s.logCap c).rdLocked = s.rdLocked := rfl
@[simp] theorem State.logCap_wrLocked (s : State) (c : Command) : (s.logCap c).wrLocked = s.wrLocked := rfl
@[simp] theorem State.logCap_run (s : State) (c : Command) : (s.logCap c).run = s.run := rfl
@[simp] theorem State.logCap_codec (s : State) (c : Command) : (s.logCap c).codec = s.codec := rfl
@[simp] theorem State.logCap_devOpen (s : State) (c : Command) : (s.logCap c).devOpen = s.devOpen := rfl
@[simp] theorem State.logCap_devReadable (s : State) (c : Command) : (s.logCap c).devReadable = s.devReadable := rfl
@[simp] theorem State.logCap_inbound (s : State) (c : Command) : (s.logCap c).inbound = s.inbound := rfl
@[simp] theorem State.logCap_answers (s : State) (c : Command) : (s.logCap c).answers = s.answers := rfl
@[simp] theorem State.logCap_outbound (s : State) (c : Command) : (s.logCap c).outbound = s.outbound := rfl
@[simp] theorem State.logCap_dtrLine (s : State) (c : Command) : (s.logCap c).dtrLine = s.dtrLine := rfl
@[simp] theorem State.logCap_rtsLine (s : State) (c : Command) : (s.logCap c).rtsLine = s.rtsLine := rfl
@[simp] theorem State.logCap_targetAnswers (s : State) (c : Command) : (s.logCap c).targetAnswers = s.targetAnswers := rfl
@[simp] theorem State.logCap_inputs (s : State) (c : Command) : (s.logCap c).inputs = s.inputs := rfl
@[simp] theorem State.logCap_results (s : State) (c : Command) : (s.logCap c).results = s.results := rfl
@[simp] theorem State.logCap_capTrace (s : State) (c : Command) : (s.logCap c).capTrace = s.capTrace ++ [c] := rfl
@[simp] theorem State.logCap_devTrace (s : State) (c : Command) : (s.logCap c).devTrace = s.devTrace := rfl
@[simp] theorem State.logCap_now (s : State) (c : Command) : (s.logCap c).now = s.now := rfl
@[simp] theorem State.logCap_draws (s : State) (c : Command) : (s.logCap c).draws = s.draws := rfl

/-! ### `State.give` -/

@[simp] theorem State.give_leftover (s : State) (r : Result) : (s.give r).leftover = s.leftover := rfl
@[simp] theorem State.give_framingEnabled (s : State) (r : Result) : (s.give r).framingEnabled = s.framingEnabled := rfl
@[simp] theorem State.give_baudRate (s : State) (r : Result) : (s.give r).baudRate = s.baudRate := rfl
@[simp] theorem State.give_dtrState (s : State) (r : Result) : (s.give r).dtrState = s.dtrState := rfl
@[simp] theorem State.give_handle (s : State) (r : Result) : (s.give r).handle = s.handle := rfl
@[simp] theorem State.give_life (s : State) (r : Result) : (s.give r).life = s.life := rfl
@[simp] theorem State.give_rdLocked (s : State) (r : Result) : (s.give r).rdLocked = s.rdLocked := rfl
@[simp] theorem State.give_wrLocked (s : State) (r : Result) : (s.give r).wrLocked = s.wrLocked := rfl
@[simp] theorem State.give_run (s : State) (r : Result) : (s.give r).run = s.run := rfl
@[simp] theorem State.give_codec (s : State) (r : Result) : (s.give r).codec = s.codec := rfl
@[simp] theorem State.give_devOpen (s : State) (r : Result) : (s.give r).devOpen = s.devOpen := rfl
@[simp] theorem State.give_devReadable (s : State) (r : Result) : (s.give r).devReadable = s.devReadable := rfl
@[simp] theorem State.give_inbound (s : State) (r : Result) : (s.give r).inbound = s.inbound := rfl
@[simp] theorem State.give_answers (s : State) (r : Result) : (s.give r).answers = s.answers := rfl
@[simp] theorem State.give_outbound (s : State) (r : Result) : (s.give r).outbound = s.outbound := rfl
@[simp] theorem State.give_dtrLine (s : State) (r : Result) : (s.give r).dtrLine = s.dtrLine := rfl
@[simp] theorem State.give_rtsLine (s : State) (r : Result) : (s.give r).rtsLine = s.rtsLine := rfl
@[simp] theorem State.give_targetAnswers (s : State) (r : Result) : (s.give r).targetAnswers = s.targetAnswers := rfl
@[simp] theorem State.give_inputs (s : State) (r : Result) : (s.give r).inputs = s.inputs := rfl
@[simp] theorem State.give_results (s : State) (r : Result) : (s.give r).results = s.results ++ [r] := rfl
@[simp] theorem State.give_capTrace (s : State) (r : Result) : (s.give r).capTrace = s.capTrace := rfl
@[simp] theorem State.give_devTrace (s : State) (r : Result) : (s.give r).devTrace = s.devTrace := rfl
@[simp] theorem State.give_now (s : State) (r : Result) : (s.give r).now = s.now := rfl
@[simp] theorem State.give_draws (s : State) (r : Result) : (s.give r).draws = s.draws := rfl

/-! ### `State.tick` -/

@[simp] theorem State.tick_leftover (s : State) (n : Nat) : (s.tick n).leftover = s.leftover := rfl
@[simp] theorem State.tick_framingEnabled (s : State) (n : Nat) : (s.tick n).framingEnabled = s.framingEnabled := rfl
@[simp] theorem State.tick_baudRate (s : State) (n : Nat) : (s.tick n).baudRate = s.baudRate := rfl
@[simp] theorem State.tick_dtrState (s : State) (n : Nat) : (s.tick n).dtrState = s.dtrState := rfl
@[simp] theorem State.tick_handle (s : State) (n : Nat) : (s.tick n).handle = s.handle := rfl
@[simp] theorem State.tick_life (s : State) (n : Nat) : (s.tick n).life = s.life := rfl
@[simp] theorem State.tick_rdLocked (s : State) (n : Nat) : (s.tick n).rdLocked = s.rdLocked := rfl
@[simp] theorem State.tick_wrLocked (s : State) (n : Nat) : (s.tick n).wrLocked = s.wrLocked := rfl
@[simp] theorem State.tick_run (s : State) (n : Nat) : (s.tick n).run = s.run := rfl
@[simp] theorem State.tick_codec (s : State) (n : Nat) : (s.tick n).codec = s.codec := rfl
@[simp] theorem State.tick_devOpen (s : State) (n : Nat) : (s.tick n).devOpen = s.devOpen := rfl
@[simp] theorem State.tick_devReadable (s : State) (n : Nat) : (s.tick n).devReadable = s.devReadable := rfl
@[simp] theorem State.tick_inbound (s : State) (n : Nat) : (s.tick n).inbound = s.inbound := rfl
@[simp] theorem State.tick_answers (s : State) (n : Nat) : (s.tick n).answers = s.answers := rfl
@[simp] theorem State.tick_outbound (s : State) (n : Nat) : (s.tick n).outbound = s.outbound := rfl
@[simp] theorem State.tick_dtrLine (s : State) (n : Nat) : (s.tick n).dtrLine = s.dtrLine := rfl
@[simp] theorem State.tick_rtsLine (s : State) (n : Nat) : (s.tick n).rtsLine = s.rtsLine := rfl
@[simp] theorem State.tick_targetAnswers (s : State) (n : Nat) : (s.tick n).targetAnswers = s.targetAnswers := rfl
@[simp] theorem State.tick_inputs (s : State) (n : Nat) : (s.tick n).inputs = s.inputs := rfl
@[simp] theorem State.tick_results (s : State) (n : Nat) : (s.tick n).results = s.results := rfl
@[simp] theorem State.tick_capTrace (s : State) (n : Nat) : (s.tick n).capTrace = s.capTrace := rfl
@[simp] theorem State.tick_devTrace (s : State) (n : Nat) : (s.tick n).devTrace = s.devTrace := rfl
@[simp] theorem State.tick_now (s : State) (n : Nat) : (s.tick n).now = s.now + n := rfl
@[simp] theorem State.tick_draws (s : State) (n : Nat) : (s.tick n).draws = s.draws := rfl

/-! ### `State.waitUntil` -/

@[simp] theorem State.waitUntil_leftover (s : State) (t : Nat) : (s.waitUntil t).leftover = s.leftover := rfl
@[simp] theorem State.waitUntil_framingEnabled (s : State) (t : Nat) : (s.waitUntil t).framingEnabled = s.framingEnabled := rfl
@[simp] theorem State.waitUntil_baudRate (s : State) (t : Nat) : (s.waitUntil t).baudRate = s.baudRate := rfl
@[simp] theorem State.waitUntil_dtrState (s : State) (t : Nat) : (s.waitUntil t).dtrState = s.dtrState := rfl
@[simp] theorem State.waitUntil_handle (s : State) (t : Nat) : (s.waitUntil t).handle = s.handle := rfl
@[simp] theorem State.waitUntil_life (s : State) (t : Nat) : (s.waitUntil t).life = s.life := rfl
@[simp] theorem State.waitUntil_rdLocked (s : State) (t : Nat) : (s.waitUntil t).rdLocked = s.rdLocked := rfl
@[simp] theorem State.waitUntil_wrLocked (s : State) (t : Nat) : (s.waitUntil t).wrLocked = s.wrLocked := rfl
@[simp] theorem State.waitUntil_run (s : State) (t : Nat) : (s.waitUntil t).run = s.run := rfl
@[simp] theorem State.waitUntil_codec (s : State) (t : Nat) : (s.waitUntil t).codec = s.codec := rfl
@[simp] theorem State.waitUntil_devOpen (s : State) (t : Nat) : (s.waitUntil t).devOpen = s.devOpen := rfl
@[simp] theorem State.waitUntil_devReadable (s : State) (t : Nat) : (s.waitUntil t).devReadable = s.devReadable := rfl
@[simp] theorem State.waitUntil_inbound (s : State) (t : Nat) : (s.waitUntil t).inbound = s.inbound := rfl
@[simp] theorem State.waitUntil_answers (s : State) (t : Nat) : (s.waitUntil t).answers = s.answers := rfl
@[simp] theorem State.waitUntil_outbound (s : State) (t : Nat) : (s.waitUntil t).outbound = s.outbound := rfl
@[simp] theorem State.waitUntil_dtrLine (s : State) (t : Nat) : (s.waitUntil t).dtrLine = s.dtrLine := rfl
@[simp] theorem State.waitUntil_rtsLine (s : State) (t : Nat) : (s.waitUntil t).rtsLine = s.rtsLine := rfl
@[simp] theorem State.waitUntil_targetAnswers (s : State) (t : Nat) : (s.waitUntil t).targetAnswers = s.targetAnswers := rfl
@[simp] theorem State.waitUntil_inputs (s : State) (t : Nat) : (s.waitUntil t).inputs = s.inputs := rfl
@[simp] theorem State.waitUntil_results (s : State) (t : Nat) : (s.waitUntil t).results = s.results := rfl
@[simp] theorem State.waitUntil_capTrace (s : State) (t : Nat) : (s.waitUntil t).capTrace = s.capTrace := rfl
@[simp] theorem State.waitUntil_devTrace (s : State) (t : Nat) : (s.waitUntil t).devTrace = s.devTrace := rfl
@[simp] theorem State.waitUntil_now (s : State) (t : Nat) : (s.waitUntil t).now = max s.now t := rfl
@[simp] theorem State.waitUntil_draws (s : State) (t : Nat) : (s.waitUntil t).draws = s.draws := rfl

/-! ### `State.draw` -/

@[simp] theorem State.draw_leftover (s : State) : s.draw.leftover = s.leftover := rfl
@[simp] theorem State.draw_framingEnabled (s : State) : s.draw.framingEnabled = s.framingEnabled := rfl
@[simp] theorem State.draw_baudRate (s : State) : s.draw.baudRate = s.baudRate := rfl
@[simp] theorem State.draw_dtrState (s : State) : s.draw.dtrState = s.dtrState := rfl
@[simp] theorem State.draw_handle (s : State) : s.draw.handle = s.handle := rfl
@[simp] theorem State.draw_life (s : State) : s.draw.life = s.life := rfl
@[simp] theorem State.draw_rdLocked (s : State) : s.draw.rdLocked = s.rdLocked := rfl
@[simp] theorem State.draw_wrLocked (s : State) : s.draw.wrLocked = s.wrLocked := rfl
@[simp] theorem State.draw_run (s : State) : s.draw.run = s.run := rfl
@[simp] theorem State.draw_codec (s : State) : s.draw.codec = s.codec := rfl
@[simp] theorem State.draw_devOpen (s : State) : s.draw.devOpen = s.devOpen := rfl
@[simp] theorem State.draw_devReadable (s : State) : s.draw.devReadable = s.devReadable := rfl
@[simp] theorem State.draw_inbound (s : State) : s.draw.inbound = s.inbound := rfl
@[simp] theorem State.draw_answers (s : State) : s.draw.answers = s.answers := rfl
@[simp] theorem State.draw_outbound (s : State) : s.draw.outbound = s.outbound := rfl
@[simp] theorem State.draw_dtrLine (s : State) : s.draw.dtrLine = s.dtrLine := rfl
@[simp] theorem State.draw_rtsLine (s : State) : s.draw.rtsLine = s.rtsLine := rfl
@[simp] theorem State.draw_targetAnswers (s : State) : s.draw.targetAnswers = s.targetAnswers := rfl
@[simp] theorem State.draw_inputs (s : State) : s.draw.inputs = s.inputs := rfl
@[simp] theorem State.draw_results (s : State) : s.draw.results = s.results := rfl
@[simp] theorem State.draw_capTrace (s : State) : s.draw.capTrace = s.capTrace := rfl
@[simp] theorem State.draw_devTrace (s : State) : s.draw.devTrace = s.devTrace := rfl
@[simp] theorem State.draw_now (s : State) : s.draw.now = s.now := rfl
@[simp] theorem State.draw_draws (s : State) : s.draw.draws = s.draws + 1 := rfl

/-! ### `State.dropAnswer` -/

@[simp] theorem State.dropAnswer_leftover (s : State) : s.dropAnswer.leftover = s.leftover := rfl
@[simp] theorem State.dropAnswer_framingEnabled (s : State) : s.dropAnswer.framingEnabled = s.framingEnabled := rfl
@[simp] theorem State.dropAnswer_baudRate (s : State) : s.dropAnswer.baudRate = s.baudRate := rfl
@[simp] theorem State.dropAnswer_dtrState (s : State) : s.dropAnswer.dtrState = s.dtrState := rfl
@[simp] theorem State.dropAnswer_handle (s : State) : s.dropAnswer.handle = s.handle := rfl
@[simp] theorem State.dropAnswer_life (s : State) : s.dropAnswer.life = s.life := rfl
@[simp] theorem State.dropAnswer_rdLocked (s : State) : s.dropAnswer.rdLocked = s.rdLocked := rfl
@[simp] theorem State.dropAnswer_wrLocked (s : State) : s.dropAnswer.wrLocked = s.wrLocked := rfl
@[simp] theorem State.dropAnswer_run (s : State) : s.dropAnswer.run = s.run := rfl
@[simp] theorem State.dropAnswer_codec (s : State) : s.dropAnswer.codec = s.codec := rfl
@[simp] theorem State.dropAnswer_devOpen (s : State) : s.dropAnswer.devOpen = s.devOpen := rfl
@[simp] theorem State.dropAnswer_devReadable (s : State) : s.dropAnswer.devReadable = s.devReadable := rfl
@[simp] theorem State.dropAnswer_inbound (s : State) : s.dropAnswer.inbound = s.inbound := rfl
@[simp] theorem State.dropAnswer_answers (s : State) : s.dropAnswer.answers = s.answers.tail := rfl
@[simp] theorem State.dropAnswer_outbound (s : State) : s.dropAnswer.outbound = s.outbound := rfl
@[simp] theorem State.dropAnswer_dtrLine (s : State) : s.dropAnswer.dtrLine = s.dtrLine := rfl
@[simp] theorem State.dropAnswer_rtsLine (s : State) : s.dropAnswer.rtsLine = s.rtsLine := rfl
@[simp] theorem State.dropAnswer_targetAnswers (s : State) : s.dropAnswer.targetAnswers = s.targetAnswers := rfl
@[simp] theorem State.dropAnswer_inputs (s : State) : s.dropAnswer.inputs = s.inputs := rfl
@[simp] theorem State.dropAnswer_results (s : State) : s.dropAnswer.results = s.results := rfl
@[simp] theorem State.dropAnswer_capTrace (s : State) : s.dropAnswer.capTrace = s.capTrace := rfl
@[simp] theorem State.dropAnswer_devTrace (s : State) : s.dropAnswer.devTrace = s.devTrace := rfl
@[simp] theorem State.dropAnswer_now (s : State) : s.dropAnswer.now = s.now := rfl
@[simp] theorem State.dropAnswer_draws (s : State) : s.dropAnswer.draws = s.draws := rfl

/-! ### `State.dropTargetAnswer` -/

@[simp] theorem State.dropTargetAnswer_leftover (s : State) : s.dropTargetAnswer.leftover = s.leftover := rfl
@[simp] theorem State.dropTargetAnswer_framingEnabled (s : State) : s.dropTargetAnswer.framingEnabled = s.framingEnabled := rfl
@[simp] theorem State.dropTargetAnswer_baudRate (s : State) : s.dropTargetAnswer.baudRate = s.baudRate := rfl
@[simp] theorem State.dropTargetAnswer_dtrState (s : State) : s.dropTargetAnswer.dtrState = s.dtrState := rfl
@[simp] theorem State.dropTargetAnswer_handle (s : State) : s.dropTargetAnswer.handle = s.handle := rfl
@[simp] theorem State.dropTargetAnswer_life (s : State) : s.dropTargetAnswer.life = s.life := rfl
@[simp] theorem State.dropTargetAnswer_rdLocked (s : State) : s.dropTargetAnswer.rdLocked = s.rdLocked := rfl
@[simp] theorem State.dropTargetAnswer_wrLocked (s : State) : s.dropTargetAnswer.wrLocked = s.wrLocked := rfl
@[simp] theorem State.dropTargetAnswer_run (s : State) : s.dropTargetAnswer.run = s.run := rfl
@[simp] theorem State.dropTargetAnswer_codec (s : State) : s.dropTargetAnswer.codec = s.codec := rfl
@[simp] theorem State.dropTargetAnswer_devOpen (s : State) : s.dropTargetAnswer.devOpen = s.devOpen := rfl
@[simp] theorem State.dropTargetAnswer_devReadable (s : State) : s.dropTargetAnswer.devReadable = s.devReadable := rfl
@[simp] theorem State.dropTargetAnswer_inbound (s : State) : s.dropTargetAnswer.inbound = s.inbound := rfl
@[simp] theorem State.dropTargetAnswer_answers (s : State) : s.dropTargetAnswer.answers = s.answers := rfl
@[simp] theorem State.dropTargetAnswer_outbound (s : State) : s.dropTargetAnswer.outbound = s.outbound := rfl
@[simp] theorem State.dropTargetAnswer_dtrLine (s : State) : s.dropTargetAnswer.dtrLine = s.dtrLine := rfl
@[simp] theorem State.dropTargetAnswer_rtsLine (s : State) : s.dropTargetAnswer.rtsLine = s.rtsLine := rfl
@[simp] theorem State.dropTargetAnswer_targetAnswers (s : State) : s.dropTargetAnswer.targetAnswers = s.targetAnswers.tail := rfl
@[simp] theorem State.dropTargetAnswer_inputs (s : State) : s.dropTargetAnswer.inputs = s.inputs := rfl
@[simp] theorem State.dropTargetAnswer_results (s : State) : s.dropTargetAnswer.results = s.results := rfl
@[simp] theorem State.dropTargetAnswer_capTrace (s : State) : s.dropTargetAnswer.capTrace = s.capTrace := rfl
@[simp] theorem State.dropTargetAnswer_devTrace (s : State) : s.dropTargetAnswer.devTrace = s.devTrace := rfl
@[simp] theorem State.dropTargetAnswer_now (s : State) : s.dropTargetAnswer.now = s.now := rfl
@[simp] theorem State.dropTargetAnswer_draws (s : State) : s.dropTargetAnswer.draws = s.draws := rfl

/-! ### `State.finish` -/

@[simp] theorem State.finish_leftover (s : State) (r : Result) : (s.finish r).leftover = s.leftover := rfl
@[simp] theorem State.finish_framingEnabled (s : State) (r : Result) : (s.finish r).framingEnabled = s.framingEnabled := rfl
@[simp] theorem State.finish_baudRate (s : State) (r : Result) : (s.finish r).baudRate = s.baudRate := rfl
@[simp] theorem State.finish_dtrState (s : State) (r : Result) : (s.finish r).dtrState = s.dtrState := rfl
@[simp] theorem State.finish_handle (s : State) (r : Result) : (s.finish r).handle = s.handle := rfl
@[simp] theorem State.finish_life (s : State) (r : Result) : (s.finish r).life = s.life := rfl
@[simp] theorem State.finish_rdLocked (s : State) (r : Result) : (s.finish r).rdLocked = s.rdLocked := rfl
@[simp] theorem State.finish_wrLocked (s : State) (r : Result) : (s.finish r).wrLocked = s.wrLocked := rfl
@[simp] theorem State.finish_run (s : State) (r : Result) : (s.finish r).run = .idle := rfl
@[simp] theorem State.finish_codec (s : State) (r : Result) : (s.finish r).codec = s.codec := rfl
@[simp] theorem State.finish_devOpen (s : State) (r : Result) : (s.finish r).devOpen = s.devOpen := rfl
@[simp] theorem State.finish_devReadable (s : State) (r : Result) : (s.finish r).devReadable = s.devReadable := rfl
@[simp] theorem State.finish_inbound (s : State) (r : Result) : (s.finish r).inbound = s.inbound := rfl
@[simp] theorem State.finish_answers (s : State) (r : Result) : (s.finish r).answers = s.answers := rfl
@[simp] theorem State.finish_outbound (s : State) (r : Result) : (s.finish r).outbound = s.outbound := rfl
@[simp] theorem State.finish_dtrLine (s : State) (r : Result) : (s.finish r).dtrLine = s.dtrLine := rfl
@[simp] theorem State.finish_rtsLine (s : State) (r : Result) : (s.finish r).rtsLine = s.rtsLine := rfl
@[simp] theorem State.finish_targetAnswers (s : State) (r : Result) : (s.finish r).targetAnswers = s.targetAnswers := rfl
@[simp] theorem State.finish_inputs (s : State) (r : Result) : (s.finish r).inputs = s.inputs := rfl
@[simp] theorem State.finish_results (s : State) (r : Result) : (s.finish r).results = s.results ++ [r] := rfl
@[simp] theorem State.finish_capTrace (s : State) (r : Result) : (s.finish r).capTrace = s.capTrace := rfl
@[simp] theorem State.finish_devTrace (s : State) (r : Result) : (s.finish r).devTrace = s.devTrace := rfl
@[simp] theorem State.finish_now (s : State) (r : Result) : (s.finish r).now = s.now := rfl
@[simp] theorem State.finish_draws (s : State) (r : Result) : (s.finish r).draws = s.draws := rfl

/-! ### `State.raise` -/

@[simp] theorem State.raise_leftover (s : State) (e : ErrorKind) : (s.raise e).leftover = s.leftover := rfl
@[simp] theorem State.raise_framingEnabled (s : State) (e : ErrorKind) : (s.raise e).framingEnabled = s.framingEnabled := rfl
@[simp] theorem State.raise_baudRate (s : State) (e : ErrorKind) : (s.raise e).baudRate = s.baudRate := rfl
@[simp] theorem State.raise_dtrState (s : State) (e : ErrorKind) : (s.raise e).dtrState = s.dtrState := rfl
@[simp] theorem State.raise_handle (s : State) (e : ErrorKind) : (s.raise e).handle = s.handle := rfl
@[simp] theorem State.raise_life (s : State) (e : ErrorKind) : (s.raise e).life = s.life := rfl
@[simp] theorem State.raise_rdLocked (s : State) (e : ErrorKind) : (s.raise e).rdLocked = s.rdLocked := rfl
@[simp] theorem State.raise_wrLocked (s : State) (e : ErrorKind) : (s.raise e).wrLocked = s.wrLocked := rfl
@[simp] theorem State.raise_run (s : State) (e : ErrorKind) : (s.raise e).run = .idle := rfl
@[simp] theorem State.raise_codec (s : State) (e : ErrorKind) : (s.raise e).codec = s.codec := rfl
@[simp] theorem State.raise_devOpen (s : State) (e : ErrorKind) : (s.raise e).devOpen = s.devOpen := rfl
@[simp] theorem State.raise_devReadable (s : State) (e : ErrorKind) : (s.raise e).devReadable = s.devReadable := rfl
@[simp] theorem State.raise_inbound (s : State) (e : ErrorKind) : (s.raise e).inbound = s.inbound := rfl
@[simp] theorem State.raise_answers (s : State) (e : ErrorKind) : (s.raise e).answers = s.answers := rfl
@[simp] theorem State.raise_outbound (s : State) (e : ErrorKind) : (s.raise e).outbound = s.outbound := rfl
@[simp] theorem State.raise_dtrLine (s : State) (e : ErrorKind) : (s.raise e).dtrLine = s.dtrLine := rfl
@[simp] theorem State.raise_rtsLine (s : State) (e : ErrorKind) : (s.raise e).rtsLine = s.rtsLine := rfl
@[simp] theorem State.raise_targetAnswers (s : State) (e : ErrorKind) : (s.raise e).targetAnswers = s.targetAnswers := rfl
@[simp] theorem State.raise_inputs (s : State) (e : ErrorKind) : (s.raise e).inputs = s.inputs := rfl
@[simp] theorem State.raise_results (s : State) (e : ErrorKind) : (s.raise e).results = s.results ++ [.error e] := rfl
@[simp] theorem State.raise_capTrace (s : State) (e : ErrorKind) : (s.raise e).capTrace = s.capTrace := rfl
@[simp] theorem State.raise_devTrace (s : State) (e : ErrorKind) : (s.raise e).devTrace = s.devTrace := rfl
@[simp] theorem State.raise_now (s : State) (e : ErrorKind) : (s.raise e).now = s.now := rfl
@[simp] theorem State.raise_draws (s : State) (e : ErrorKind) : (s.raise e).draws = s.draws := rfl

/-! ### `State.nowConnected` -/

@[simp] theorem State.nowConnected_leftover (s : State) (baud : Nat) : (s.nowConnected baud).leftover = [] := rfl
@[simp] theorem State.nowConnected_framingEnabled (s : State) (baud : Nat) : (s.nowConnected baud).framingEnabled = s.framingEnabled := rfl
@[simp] theorem State.nowConnected_baudRate (s : State) (baud : Nat) : (s.nowConnected baud).baudRate = baud := rfl
@[simp] theorem State.nowConnected_dtrState (s : State) (baud : Nat) : (s.nowConnected baud).dtrState = s.dtrState := rfl
@[simp] theorem State.nowConnected_handle (s : State) (baud : Nat) : (s.nowConnected baud).handle = s.handle := rfl
@[simp] theorem State.nowConnected_life (s : State) (baud : Nat) : (s.nowConnected baud).life = .connected := rfl
@[simp] theorem State.nowConnected_rdLocked (s : State) (baud : Nat) : (s.nowConnected baud).rdLocked = s.rdLocked := rfl
@[simp] theorem State.nowConnected_wrLocked (s : State) (baud : Nat) : (s.nowConnected baud).wrLocked = s.wrLocked := rfl
@[simp] theorem State.nowConnected_run (s : State) (baud : Nat) : (s.nowConnected baud).run = s.run := rfl
@[simp] theorem State.nowConnected_codec (s : State) (baud : Nat) : (s.nowConnected baud).codec = s.codec := rfl
@[simp] theorem State.nowConnected_devOpen (s : State) (baud : Nat) : (s.nowConnected baud).devOpen = s.devOpen := rfl
@[simp] theorem State.nowConnected_devReadable (s : State) (baud : Nat) : (s.nowConnected baud).devReadable = s.devReadable := rfl
@[simp] theorem State.nowConnected_inbound (s : State) (baud : Nat) : (s.nowConnected baud).inbound = s.inbound := rfl
@[simp] theorem State.nowConnected_answers (s : State) (baud : Nat) : (s.nowConnected baud).answers = s.answers := rfl
@[simp] theorem State.nowConnected_outbound (s : State) (baud : Nat) : (s.nowConnected baud).outbound = s.outbound := rfl
@[simp] theorem State.nowConnected_dtrLine (s : State) (baud : Nat) : (s.nowConnected baud).dtrLine = s.dtrLine := rfl
@[simp] theorem State.nowConnected_rtsLine (s : State) (baud : Nat) : (s.nowConnected baud).rtsLine = s.rtsLine := rfl
@[simp] theorem State.nowConnected_targetAnswers (s : State) (baud : Nat) : (s.nowConnected baud).targetAnswers = s.targetAnswers := rfl
@[simp] theorem State.nowConnected_inputs (s : State) (baud : Nat) : (s.nowConnected baud).inputs = s.inputs := rfl
@[simp] theorem State.nowConnected_results (s : State) (baud : Nat) : (s.nowConnected baud).results = s.results := rfl
@[simp] theorem State.nowConnected_capTrace (s : State) (baud : Nat) : (s.nowConnected baud).capTrace = s.capTrace := rfl
@[simp] theorem State.nowConnected_devTrace (s : State) (baud : Nat) : (s.nowConnected baud).devTrace = s.devTrace := rfl
@[simp] theorem State.nowConnected_now (s : State) (baud : Nat) : (s.nowConnected baud).now = s.now := rfl
@[simp] theorem State.nowConnected_draws (s : State) (baud : Nat) : (s.nowConnected baud).draws = s.draws := rfl

/-! ### `State.setLine` -/

@[simp] theorem State.setLine_leftover (s : State) (l : Line) (v : Bool) : (s.setLine l v).leftover = s.leftover := by cases l <;> rfl
@[simp] theorem State.setLine_framingEnabled (s : State) (l : Line) (v : Bool) : (s.setLine l v).framingEnabled = s.framingEnabled := by cases l <;> rfl
@[simp] theorem State.setLine_baudRate (s : State) (l : Line) (v : Bool) : (s.setLine l v).baudRate = s.baudRate := by cases l <;> rfl
@[simp] theorem State.setLine_dtrState (s : State) (l : Line) (v : Bool) : (s.setLine l v).dtrState = s.dtrState := by cases l <;> rfl
@[simp] theorem State.setLine_handle (s : State) (l : Line) (v : Bool) : (s.setLine l v).handle = s.handle := by cases l <;> rfl
@[simp] theorem State.setLine_life (s : State) (l : Line) (v : Bool) : (s.setLine l v).life = s.life := by cases l <;> rfl
@[simp] theorem State.setLine_rdLocked (s : State) (l : Line) (v : Bool) : (s.setLine l v).rdLocked = s.rdLocked := by cases l <;> rfl
@[simp] theorem State.setLine_wrLocked (s : State) (l : Line) (v : Bool) : (s.setLine l v).wrLocked = s.wrLocked := by cases l <;> rfl
@[simp] theorem State.setLine_run (s : State) (l : Line) (v : Bool) : (s.setLine l v).run = s.run := by cases l <;> rfl
@[simp] theorem State.setLine_codec (s : State) (l : Line) (v : Bool) : (s.setLine l v).codec = s.codec := by cases l <;> rfl
@[simp] theorem State.setLine_devOpen (s : State) (l : Line) (v : Bool) : (s.setLine l v).devOpen = s.devOpen := by cases l <;> rfl
@[simp] theorem State.setLine_devReadable (s : State) (l : Line) (v : Bool) : (s.setLine l v).devReadable = s.devReadable := by cases l <;> rfl
@[simp] theorem State.setLine_inbound (s : State) (l : Line) (v : Bool) : (s.setLine l v).inbound = s.inbound := by cases l <;> rfl
@[simp] theorem State.setLine_answers (s : State) (l : Line) (v : Bool) : (s.setLine l v).answers = s.answers := by cases l <;> rfl
@[simp] theorem State.setLine_outbound (s : State) (l : Line) (v : Bool) : (s.setLine l v).outbound = s.outbound := by cases l <;> rfl
@[simp] theorem State.setLine_dtrLine (s : State) (l : Line) (v : Bool) :
    (s.setLine l v).dtrLine = if l = .dtr then v else s.dtrLine := by cases l <;> rfl
@[simp] theorem State.setLine_rtsLine (s : State) (l : Line) (v : Bool) :
    (s.setLine l v).rtsLine = if l = .rts then v else s.rtsLine := by cases l <;> rfl
@[simp] theorem State.setLine_targetAnswers (s : State) (l : Line) (v : Bool) : (s.setLine l v).targetAnswers = s.targetAnswers := by cases l <;> rfl
@[simp] theorem State.setLine_inputs (s : State) (l : Line) (v : Bool) : (s.setLine l v).inputs = s.inputs := by cases l <;> rfl
@[simp] theorem State.setLine_results (s : State) (l : Line) (v : Bool) : (s.setLine l v).results = s.results := by cases l <;> rfl
@[simp] theorem State.setLine_capTrace (s : State) (l : Line) (v : Bool) : (s.setLine l v).capTrace = s.capTrace := by cases l <;> rfl
@[simp] theorem State.setLine_devTrace (s : State) (l : Line) (v : Bool) : (s.setLine l v).devTrace = s.devTrace := by cases l <;> rfl
@[simp] theorem State.setLine_now (s : State) (l : Line) (v : Bool) : (s.setLine l v).now = s.now := by cases l <;> rfl
@[simp] theorem State.setLine_draws (s : State) (l : Line) (v : Bool) : (s.setLine l v).draws = s.draws := by cases l <;> rfl

end Sys2Proof.Machine
end

