-- ==== Sys2Proof/Laws/Ops.lean ====
section
/-! SUPPORT. What each shared operation can do, said once: the requirements, the ends of an operation, the device
primitives, the commands and the runner. -/

namespace Sys2Proof.Machine

/-! ### Requirements -/

theorem whenIdle_idle {s : State} (h : s.run = .idle) (k : Out) : s.whenIdle k = k := by
  simp [State.whenIdle, h]

theorem whenIdle_busy {s : State} (h : s.run ≠ .idle) (k : Out) : s.whenIdle k = .refused .busy := by
  unfold State.whenIdle
  split <;> first | rfl | contradiction

theorem whenConnected_connected {s : State} (h : s.life = .connected) (k : Out) : s.whenConnected k = k := by
  simp [State.whenConnected, h]

theorem whenConnected_other {s : State} (h : s.life ≠ .connected) (k : Out) :
    s.whenConnected k = .refused (.wrongLifecycle s.life) := by
  unfold State.whenConnected
  split <;> simp_all

theorem whenCreated_created {s : State} (h : s.life = .created) (k : Out) : s.whenCreated k = k := by
  simp [State.whenCreated, h]

theorem whenCreated_other {s : State} (h : s.life ≠ .created) (k : Out) :
    s.whenCreated k = .refused (.wrongLifecycle s.life) := by
  unfold State.whenCreated
  split <;> simp_all

theorem whenNotClosed_open {s : State} (h : s.life ≠ .closed) (k : Out) : s.whenNotClosed k = k := by
  unfold State.whenNotClosed
  split <;> simp_all

theorem whenNotClosed_closed {s : State} (h : s.life = .closed) (k : Out) :
    s.whenNotClosed k = .refused (.wrongLifecycle .closed) := by
  simp [State.whenNotClosed, h]

theorem whenTarget_ready {s : State} {t : Target} (h : t = .transport → s.life = .connected) (k : Out) :
    s.whenTarget t k = k := by
  cases t
  · exact whenConnected_connected (h rfl) k
  · rfl

/-- A requirement that answers a next state was met. -/
theorem whenIdle_next {s u : State} {k : Out} (h : s.whenIdle k = .next u) : s.run = .idle ∧ k = .next u := by
  unfold State.whenIdle at h
  split at h <;> simp_all

theorem whenConnected_next {s u : State} {k : Out} (h : s.whenConnected k = .next u) :
    s.life = .connected ∧ k = .next u := by
  unfold State.whenConnected at h
  split at h <;> simp_all

theorem whenCreated_next {s u : State} {k : Out} (h : s.whenCreated k = .next u) :
    s.life = .created ∧ k = .next u := by
  unfold State.whenCreated at h
  split at h <;> simp_all

theorem whenNotClosed_next {s u : State} {k : Out} (h : s.whenNotClosed k = .next u) :
    s.life ≠ .closed ∧ k = .next u := by
  unfold State.whenNotClosed at h
  split at h <;> simp_all

theorem whenTarget_next {s u : State} {t : Target} {k : Out} (h : s.whenTarget t k = .next u) :
    (t = .transport → s.life = .connected) ∧ k = .next u := by
  cases t
  · exact ⟨fun _ => (whenConnected_next h).1, (whenConnected_next h).2⟩
  · exact ⟨nofun, h⟩

theorem whenDelayPositive_next {d : Nat} {u : State} {k : Out} (h : whenDelayPositive d k = .next u) :
    d ≠ 0 ∧ k = .next u := by
  cases d
  · simp [whenDelayPositive] at h
  · exact ⟨nofun, h⟩

/-! ### Ends of an operation -/

/-- The state a call leaves, when it ends at all. -/
def Call.final : Call → Option State
  | .ok s => some s
  | .raised _ s => some s
  | .stuck _ => none

theorem final_andThen {c : Call} {k : State → Call} {u : State} (h : (c.andThen k).final = some u) :
    (∃ s, c = .ok s ∧ (k s).final = some u) ∨ (∃ e, c = .raised e u) := by
  cases c <;> simp_all [Call.andThen, Call.final]

theorem final_wrapErrors (c : Call) : c.wrapErrors.final = c.final := by cases c <;> rfl

/-- An operation that ends in a next state hands over one result: that it is done, or an error. -/
theorem deliver_next {c : Call} {u : State} (h : c.deliver = .next u) :
    (∃ s, c = .ok s ∧ u = s.finish .done) ∨ (∃ e s, c = .raised e s ∧ u = s.raise e) := by
  cases c <;> simp_all [Call.deliver]

/-- An operation that ends in a next state has left the block idle. -/
theorem deliver_idle {c : Call} {u : State} (h : c.deliver = .next u) : u.run = .idle := by
  rcases deliver_next h with ⟨_, -, rfl⟩ | ⟨_, _, -, rfl⟩ <;> rfl

/-! ### Device primitives -/

theorem devOpenCall_cases (baud : Nat) (s : State) :
    (s.nextAnswer = .ok ∧ devOpenCall baud s = .ok { s with
      devTrace := s.devTrace ++ [.open baud], answers := s.answers.tail, devOpen := true }) ∨
    (∃ c, s.nextAnswer = .fail c ∧ devOpenCall baud s = .raised .deviceOpenError { s with
      devTrace := s.devTrace ++ [.open baud], answers := s.answers.tail }) ∨
    (s.nextAnswer = .never ∧ devOpenCall baud s = .stuck .openHangs) := by
  unfold devOpenCall
  cases h : s.nextAnswer with
  | ok => exact .inl ⟨rfl, rfl⟩
  | fail c => exact .inr (.inl ⟨c, rfl, rfl⟩)
  | never => exact .inr (.inr ⟨rfl, rfl⟩)

theorem devCloseCall_cases (s : State) :
    (s.nextAnswer = .ok ∧ devCloseCall s = .ok { s with
      devTrace := s.devTrace ++ [.close], answers := s.answers.tail, devOpen := false }) ∨
    (∃ c, s.nextAnswer = .fail c ∧ devCloseCall s = .raised (.deviceError c) { s with
      devTrace := s.devTrace ++ [.close], answers := s.answers.tail, draws := s.draws + 1,
      devOpen := Config.openAfterFailedClose s.draws }) ∨
    (s.nextAnswer = .never ∧ devCloseCall s = .stuck .closeHangs) := by
  unfold devCloseCall
  cases h : s.nextAnswer with
  | ok => exact .inl ⟨rfl, rfl⟩
  | fail c => exact .inr (.inl ⟨c, rfl, rfl⟩)
  | never => exact .inr (.inr ⟨rfl, rfl⟩)

theorem devWriteLocked_cases (b : Bytes) (s : State) :
    (s.nextAnswer = .ok ∧ devWriteLocked b s = .ok { s with
      devTrace := s.devTrace ++ [.tx b], answers := s.answers.tail, outbound := s.outbound ++ b,
      wrLocked := false }) ∨
    (∃ c, s.nextAnswer = .fail c ∧ devWriteLocked b s = .raised (.deviceError c) { s with
      devTrace := s.devTrace ++ [.tx b], answers := s.answers.tail, outbound := s.outbound ++ b,
      wrLocked := false }) ∨
    (s.nextAnswer = .never ∧ devWriteLocked b s = .stuck .writeHangs) := by
  unfold devWriteLocked
  cases h : s.nextAnswer with
  | ok => exact .inl ⟨rfl, rfl⟩
  | fail c => exact .inr (.inl ⟨c, rfl, rfl⟩)
  | never => exact .inr (.inr ⟨rfl, rfl⟩)

theorem devSignal_cases (l : Line) (v : Bool) (s : State) :
    (s.nextAnswer = .ok ∧ devSignal l v s = .ok ({ s with
      devTrace := s.devTrace ++ [.sig l v], answers := s.answers.tail : State }.setLine l v)) ∨
    (∃ c, s.nextAnswer = .fail c ∧ devSignal l v s = .raised (.deviceError c) ({ s with
      devTrace := s.devTrace ++ [.sig l v], answers := s.answers.tail, draws := s.draws + 1 : State }.setLine l
        (Config.levelAfterFail s.draws))) ∨
    (s.nextAnswer = .never ∧ devSignal l v s = .stuck .signalHangs) := by
  unfold devSignal
  cases h : s.nextAnswer with
  | ok => exact .inl ⟨rfl, rfl⟩
  | fail c => exact .inr (.inl ⟨c, rfl, by cases l <;> rfl⟩)
  | never => exact .inr (.inr ⟨rfl, rfl⟩)

/-! ### Commands and the runner -/

/-- What the control lines, the delay and a reset program can change: the latch, the two lines, the answers used up,
the traces, the time and the count of free values. No chunk is received. -/
structure ControlOnly (s u : State) : Prop where
  same : u = { s with
    dtrState := u.dtrState, dtrLine := u.dtrLine, rtsLine := u.rtsLine, answers := u.answers,
    targetAnswers := u.targetAnswers, capTrace := u.capTrace, devTrace := u.devTrace, now := u.now,
    draws := u.draws }
  trace : ∃ es, u.devTrace = s.devTrace ++ es ∧ ∀ e ∈ es, ∀ c, e ≠ .rx c

theorem ControlOnly.refl (s : State) : ControlOnly s s := ⟨rfl, [], by simp, by simp⟩

theorem ControlOnly.trans {s t u : State} (h : ControlOnly s t) (k : ControlOnly t u) : ControlOnly s u := by
  obtain ⟨h₁, es, h₂, h₃⟩ := h
  obtain ⟨k₁, fs, k₂, k₃⟩ := k
  refine ⟨?_, es ++ fs, by simp [k₂, h₂], ?_⟩
  · rw [h₁] at k₁; exact k₁
  · intro e he
    rcases List.mem_append.1 he with h | h
    exacts [h₃ e h, k₃ e h]

/-- What such an update leaves as it was, field by field where later proofs ask. -/
theorem ControlOnly.keeps {s u : State} (h : ControlOnly s u) :
    u.leftover = s.leftover ∧ u.framingEnabled = s.framingEnabled ∧ u.baudRate = s.baudRate ∧
      u.handle = s.handle ∧ u.life = s.life ∧ u.rdLocked = s.rdLocked ∧ u.wrLocked = s.wrLocked ∧ u.run = s.run ∧
      u.codec = s.codec ∧ u.devOpen = s.devOpen ∧ u.inputs = s.inputs ∧ u.results = s.results := by
  refine ⟨?_, ?_, ?_, ?_, ?_, ?_, ?_, ?_, ?_, ?_, ?_, ?_⟩ <;> rw [h.same]

theorem devSignal_controlOnly {l : Line} {v : Bool} {s u : State} (h : (devSignal l v s).final = some u) :
    ControlOnly s u := by
  rcases devSignal_cases l v s with ⟨-, k⟩ | ⟨c, -, k⟩ | ⟨-, k⟩ <;> rw [k] at h <;>
    simp only [Call.final, Option.some.injEq, reduceCtorEq] at h
  all_goals subst h; cases l <;> exact ⟨rfl, [.sig _ v], rfl, by simp⟩

theorem setDTRCall_controlOnly {b : Bool} {s u : State} (h : (setDTRCall b s).final = some u) : ControlOnly s u :=
  ControlOnly.trans (t := { s with dtrState := b }) ⟨rfl, [], by simp, by simp⟩ (devSignal_controlOnly h)

theorem setRTSCall_controlOnly {b : Bool} {s u : State} (h : (setRTSCall b s).final = some u) : ControlOnly s u := by
  rcases final_andThen h with ⟨t, ht, hu⟩ | ⟨e, he⟩
  · exact (devSignal_controlOnly (by rw [ht]; rfl)).trans (devSignal_controlOnly hu)
  · exact devSignal_controlOnly (by rw [he]; rfl)

theorem sleepCall_controlOnly {n : Nat} {s u : State} (h : (sleepCall n s).final = some u) : ControlOnly s u := by
  simp only [sleepCall, Call.final, Option.some.injEq] at h
  subst h
  exact ⟨rfl, [.sleep n], rfl, by simp⟩

theorem foreignCall_controlOnly {c : Command} {s u : State} (h : (foreignCall c s).final = some u) :
    ControlOnly s u := by
  unfold foreignCall at h
  split at h
  · cases c <;> simp only [Call.final, Option.some.injEq] at h <;> subst h <;> exact ⟨rfl, [], by simp, by simp⟩
  · simp only [Call.final, Option.some.injEq] at h
    subst h
    exact ⟨rfl, [], by simp, by simp⟩
  · simp [Call.final] at h

theorem logCap_controlOnly (c : Command) (s : State) : ControlOnly s (s.logCap c) := ⟨rfl, [], by simp, by simp⟩

theorem runCommand_controlOnly {t : Target} {c : Command} {s u : State} (h : (runCommand t c s).final = some u) :
    ControlOnly s u := by
  refine (logCap_controlOnly c s).trans ?_
  cases t
  · cases c
    exacts [setDTRCall_controlOnly h, setRTSCall_controlOnly h, sleepCall_controlOnly h]
  · exact foreignCall_controlOnly h

theorem runProgram_controlOnly {t : Target} {P : List Command} {s u : State}
    (h : (runProgram t P s).final = some u) : ControlOnly s u := by
  induction P generalizing s with
  | nil => simp only [runProgram, Call.final, Option.some.injEq] at h; exact h ▸ .refl s
  | cons c P ih =>
    rcases final_andThen h with ⟨m, hm, hu⟩ | ⟨e, he⟩
    · exact (runCommand_controlOnly (by rw [hm]; rfl)).trans (ih hu)
    · exact runCommand_controlOnly (by rw [he]; rfl)

/-- What an operation made of such calls hands over. -/
theorem deliver_controlOnly {s u : State} {c : Call} (hc : ∀ t, c.final = some t → ControlOnly s t)
    (h : c.deliver = .next u) : ∃ t r, c.final = some t ∧ ControlOnly s t ∧ u = t.finish r := by
  rcases deliver_next h with ⟨t, ht, rfl⟩ | ⟨e, t, ht, rfl⟩
  · exact ⟨t, _, by rw [ht]; rfl, hc t (by rw [ht]; rfl), rfl⟩
  · exact ⟨t, _, by rw [ht]; rfl, hc t (by rw [ht]; rfl), rfl⟩

end Sys2Proof.Machine
end

