-- ==== Sys2Proof/Laws/Io.lean ====
section
/-! SUPPORT. What one `DevRead`, one step of a read and a whole read can do, said once. -/

namespace Sys2Proof.Machine

/-- R12, R226: how a `DevRead` ends. -/
theorem devRead_cases (timer : Option Nat) (s : State) :
    (timer = none ∧ s.inbound = [] ∧ devRead timer s = .never) ∨
    (∃ t n, timer = some t ∧ devRead timer s = .cancelled { s with
      now := max s.now t, devTrace := s.devTrace ++ [.cancel], draws := n }) ∨
    (∃ at' c rest n, s.inbound = ⟨at', .chunk c⟩ :: rest ∧ devRead timer s = .chunk c { s with
      now := max s.now at', devTrace := s.devTrace ++ [.rx c], inbound := rest, draws := n }) ∨
    (∃ at' cause rest n, s.inbound = ⟨at', .fail cause⟩ :: rest ∧ devRead timer s = .failed cause { s with
      now := max s.now at', inbound := rest, draws := n }) := by
  have take : ∀ (a : Arrival) (rest : List Arrival) (n : Nat), s.inbound = a :: rest →
      devRead timer s = takeArrival a rest { s with draws := n } →
      (∃ at' c rest n, s.inbound = ⟨at', .chunk c⟩ :: rest ∧ devRead timer s = .chunk c { s with
        now := max s.now at', devTrace := s.devTrace ++ [.rx c], inbound := rest, draws := n }) ∨
      (∃ at' cause rest n, s.inbound = ⟨at', .fail cause⟩ :: rest ∧ devRead timer s = .failed cause { s with
        now := max s.now at', inbound := rest, draws := n }) := by
    rintro ⟨at', c | cause⟩ rest n hi hd
    · exact .inl ⟨at', c, rest, n, hi, hd⟩
    · exact .inr ⟨at', cause, rest, n, hi, hd⟩
  have hl : s.inbound = [] ∨ ∃ a rest, s.inbound = a :: rest := by cases s.inbound <;> simp
  cases timer with
  | none =>
    obtain hi | ⟨a, rest, hi⟩ := hl
    · exact .inl ⟨rfl, hi, by simp [devRead, hi]⟩
    · have hd : devRead none s = takeArrival a rest s := by simp [devRead, hi]
      exact .inr (.inr (take a rest s.draws hi hd))
  | some t =>
    have fire : ∀ n, devRead (some t) s = fireTimer t { s with draws := n } →
        ∃ t' n, some t = some t' ∧ devRead (some t) s = .cancelled { s with
          now := max s.now t', devTrace := s.devTrace ++ [.cancel], draws := n } := fun n h => ⟨t, n, rfl, h⟩
    obtain hi | ⟨a, rest, hi⟩ := hl
    · have hd : devRead (some t) s = fireTimer t s := by simp [devRead, hi]
      exact .inr (.inl (fire s.draws hd))
    by_cases h₁ : t ≤ s.now
    · have hd : devRead (some t) s = fireTimer t s := by simp [devRead, hi, h₁]
      exact .inr (.inl (fire s.draws hd))
    by_cases h₂ : a.time < t
    · have hd : devRead (some t) s = takeArrival a rest s := by simp [devRead, hi, h₁, h₂]
      exact .inr (.inr (take a rest s.draws hi hd))
    by_cases h₃ : t < a.time
    · have hd : devRead (some t) s = fireTimer t s := by simp [devRead, hi, h₁, h₂, h₃]
      exact .inr (.inl (fire s.draws hd))
    by_cases h₄ : Config.timerFirst s.draws = true
    · have hd : devRead (some t) s = fireTimer t s.draw := by simp [devRead, hi, h₁, h₂, h₃, h₄]
      exact .inr (.inl (fire (s.draws + 1) hd))
    · have hd : devRead (some t) s = takeArrival a rest s.draw := by simp [devRead, hi, h₁, h₂, h₃, h₄]
      exact .inr (.inr (take a rest (s.draws + 1) hi hd))

/-- What a read can change. -/
structure ReadOnly (s u : State) : Prop where
  same : u = { s with
    leftover := u.leftover, rdLocked := u.rdLocked, run := u.run, inbound := u.inbound, results := u.results,
    devTrace := u.devTrace, now := u.now, draws := u.draws }

theorem ReadOnly.refl (s : State) : ReadOnly s s := ⟨rfl⟩

theorem ReadOnly.trans {s t u : State} (h : ReadOnly s t) (k : ReadOnly t u) : ReadOnly s u := by
  have := k.same
  rw [h.same] at this
  exact ⟨this⟩

/-- R152: the ends of one step of a read: the gate opens, it goes on, the timer fires, the device fails, or it never
ends. -/
theorem readStep_cases (r : ReadRun) (s : State) :
    (∃ at' c rest n, s.inbound = ⟨at', .chunk c⟩ :: rest ∧ gateOpen (r.acc ++ c) r.minLength = true ∧
      readStep r s = .next (completeRead { r with acc := r.acc ++ c } { s with
        now := max s.now at', devTrace := s.devTrace ++ [.rx c], inbound := rest, draws := n })) ∨
    (∃ at' c rest n, s.inbound = ⟨at', .chunk c⟩ :: rest ∧ gateOpen (r.acc ++ c) r.minLength = false ∧
      readStep r s = .next { s with
        now := max s.now at', devTrace := s.devTrace ++ [.rx c], inbound := rest, draws := n,
        run := .reading { r with acc := r.acc ++ c } }) ∨
    (∃ t n, r.timer = some t ∧ readStep r s = .next (abandonRead r .timeoutError { s with
        now := max s.now t, devTrace := s.devTrace ++ [.cancel], draws := n })) ∨
    (∃ at' cause rest n, s.inbound = ⟨at', .fail cause⟩ :: rest ∧
      readStep r s = .next (abandonRead r (.deviceError cause) { s with
        now := max s.now at', inbound := rest, draws := n })) ∨
    (r.timer = none ∧ s.inbound = [] ∧ readStep r s = .fault .readHangs) := by
  unfold readStep
  rcases devRead_cases r.timer s with ⟨ht, hi, hd⟩ | ⟨t, n, ht, hd⟩ | ⟨at', c, rest, n, hi, hd⟩ |
      ⟨at', cause, rest, n, hi, hd⟩ <;> rw [hd]
  · exact .inr (.inr (.inr (.inr ⟨ht, hi, rfl⟩)))
  · exact .inr (.inr (.inl ⟨t, n, ht, rfl⟩))
  · cases hg : gateOpen (r.acc ++ c) r.minLength
    · exact .inr (.inl ⟨at', c, rest, n, hi, hg, by simp [acceptChunk, hg]⟩)
    · exact .inl ⟨at', c, rest, n, hi, hg, by simp [acceptChunk, hg]⟩
  · exact .inr (.inr (.inr (.inl ⟨at', cause, rest, n, hi, rfl⟩)))

theorem completeRead_readOnly (r : ReadRun) (s : State) : ReadOnly s (completeRead r s) := by
  unfold completeRead
  split_ifs <;> exact ⟨rfl⟩

theorem abandonRead_readOnly (r : ReadRun) (e : ErrorKind) (s : State) : ReadOnly s (abandonRead r e s) := ⟨rfl⟩

@[simp] theorem completeRead_run (r : ReadRun) (s : State) : (completeRead r s).run = .idle := by
  unfold completeRead
  split_ifs <;> rfl

@[simp] theorem abandonRead_run (r : ReadRun) (e : ErrorKind) (s : State) : (abandonRead r e s).run = .idle := rfl

theorem readStep_readOnly {r : ReadRun} {s u : State} (h : readStep r s = .next u) : ReadOnly s u := by
  rcases readStep_cases r s with ⟨_, _, _, _, -, -, k⟩ | ⟨_, _, _, _, -, -, k⟩ | ⟨_, _, -, k⟩ | ⟨_, _, _, _, -, k⟩ |
      ⟨-, -, k⟩ <;> rw [k] at h <;> cases h
  · exact ReadOnly.trans ⟨rfl⟩ (completeRead_readOnly _ _)
  · exact ⟨rfl⟩
  · exact ReadOnly.trans ⟨rfl⟩ (abandonRead_readOnly _ _ _)
  · exact ReadOnly.trans ⟨rfl⟩ (abandonRead_readOnly _ _ _)

/-! ### The whole read -/

theorem readToEnd_reading {r : ReadRun} {s : State} (h : s.run = .reading r) (n : Nat) :
    readToEnd (n + 1) s = match readStep r s with
      | .next s' => readToEnd n s'
      | .fault f => .fault f
      | .refused x => .refused x := by
  simp only [readToEnd, h] <;> rfl

theorem readToEnd_idle {s : State} (h : s.run = .idle) (n : Nat) : readToEnd (n + 1) s = .next s := by
  simp [readToEnd, h]

/-- A read that ends has left the block idle. -/
theorem readToEnd_ends : ∀ {n : Nat} {s u : State}, s.run = .idle ∨ (∃ r, s.run = .reading r) →
    readToEnd n s = .next u → u.run = .idle := by
  intro n
  induction n with
  | zero => intro s u _ h; simp [readToEnd] at h
  | succ n ih =>
    rintro s u (hr | ⟨r, hr⟩) h
    · rw [readToEnd_idle hr] at h
      cases h
      exact hr
    · rw [readToEnd_reading hr] at h
      rcases readStep_cases r s with ⟨_, _, _, _, -, -, k⟩ | ⟨_, _, _, _, -, -, k⟩ | ⟨_, _, -, k⟩ |
          ⟨_, _, _, _, -, k⟩ | ⟨-, -, k⟩ <;> rw [k] at h <;> simp only [reduceCtorEq] at h
      exacts [ih (.inl (by simp)) h, ih (.inr ⟨_, rfl⟩) h, ih (.inl (by simp)) h, ih (.inl (by simp)) h]

/-- What every step of a read keeps, the whole read keeps. -/
theorem readToEnd_keeps {P : State → Prop}
    (step : ∀ r s s', s.run = .reading r → readStep r s = .next s' → P s → P s') :
    ∀ {n : Nat} {s u : State}, P s → readToEnd n s = .next u → P u := by
  intro n
  induction n with
  | zero => intro s u _ h; simp [readToEnd] at h
  | succ n ih =>
    intro s u hs h
    unfold readToEnd at h
    split at h
    · next r hr =>
      split at h
      · next s' hs' => exact ih (step r s s' hr hs' hs) h
      · simp at h
      · simp at h
    all_goals simp only [Host.Outcome.next.injEq] at h; exact h ▸ hs

theorem finishReading_next {o : Out} {u : State} (h : finishReading o = .next u) :
    ∃ s, o = .next s ∧ readToEnd (s.inbound.length + 2) s = .next u := by
  cases o <;> simp_all [finishReading]

theorem finishReading_keeps {P : State → Prop}
    (step : ∀ r s s', s.run = .reading r → readStep r s = .next s' → P s → P s')
    {o : Out} (begin' : ∀ s, o = .next s → P s) {u : State} (h : finishReading o = .next u) : P u := by
  obtain ⟨s, hs, hu⟩ := finishReading_next h
  exact readToEnd_keeps step (begin' s hs) hu

/-- How a `read` begins: a frame is in the leftover, or the device is read, or it is not readable. -/
theorem beginRead_next {t : Int} {m : Nat} {s u : State} (h : beginRead t m s = .next u) :
    s.run = .idle ∧ s.life = .connected ∧
    ((u = { s with
        leftover := (slipDecode s.leftover).remainder
        results := s.results ++ [.bytes (slipDecode s.leftover).payload] }) ∨
      (s.rdLocked = false ∧ u = { s with
        leftover := []
        rdLocked := true
        run := .reading ⟨s.leftover, timerOf t s.now, m, s.framingEnabled⟩ }) ∨
      (u = { s with results := s.results ++ [.bytes []] })) := by
  obtain ⟨hi, h⟩ := whenIdle_next h
  obtain ⟨hc, h⟩ := whenConnected_next h
  refine ⟨hi, hc, ?_⟩
  split_ifs at h with h₁ h₂
  · simp only [Host.Outcome.next.injEq] at h
    subst h
    left
    simp [State.finish, ← hi]
  · unfold State.startReading at h
    split_ifs at h with h₃
    simp only [Host.Outcome.next.injEq] at h
    subst h
    exact .inr (.inl ⟨by simpa using h₃, rfl⟩)
  · simp only [Host.Outcome.next.injEq] at h
    subst h
    right; right
    simp [State.finish, ← hi]

/-- How a `rawRead` begins. -/
theorem beginRawRead_next {t : Int} {s u : State} (h : beginRawRead t s = .next u) :
    s.run = .idle ∧ s.life = .connected ∧
    ((s.leftover ≠ [] ∧ u = { s with leftover := [], results := s.results ++ [.bytes s.leftover] }) ∨
      (s.leftover = [] ∧ s.rdLocked = false ∧ u = { s with
        rdLocked := true
        run := .reading ⟨[], timerOf t s.now, 0, false⟩ }) ∨
      (s.leftover = [] ∧ u = { s with results := s.results ++ [.bytes []] })) := by
  obtain ⟨hi, h⟩ := whenIdle_next h
  obtain ⟨hc, h⟩ := whenConnected_next h
  refine ⟨hi, hc, ?_⟩
  split at h
  · next b bs hl =>
    simp only [Host.Outcome.next.injEq] at h
    subst h
    exact .inl ⟨by simp [hl], by simp [State.finish, ← hi, ← hl]⟩
  · next hl =>
    split_ifs at h
    · unfold State.startReading at h
      split_ifs at h with h₃
      simp only [Host.Outcome.next.injEq] at h
      subst h
      exact .inr (.inl ⟨hl, by simpa using h₃, rfl⟩)
    · simp only [Host.Outcome.next.injEq] at h
      subst h
      exact .inr (.inr ⟨hl, by simp [State.finish, ← hi]⟩)

theorem beginRead_readOnly {t : Int} {m : Nat} {s u : State} (h : beginRead t m s = .next u) : ReadOnly s u := by
  obtain ⟨-, -, rfl | ⟨-, rfl⟩ | rfl⟩ := beginRead_next h <;> exact ⟨rfl⟩

theorem beginRawRead_readOnly {t : Int} {s u : State} (h : beginRawRead t s = .next u) : ReadOnly s u := by
  obtain ⟨-, -, ⟨-, rfl⟩ | ⟨-, -, rfl⟩ | ⟨-, rfl⟩⟩ := beginRawRead_next h <;> exact ⟨rfl⟩

/-- A read that has begun changes only what `ReadOnly` names. -/
theorem finishReading_readOnly {s : State} {o : Out} (hb : ∀ t, o = .next t → ReadOnly s t) {u : State}
    (h : finishReading o = .next u) : ReadOnly s u :=
  finishReading_keeps (P := ReadOnly s) (fun _ _ _ _ hs hp => hp.trans (readStep_readOnly hs)) hb h

theorem execRead_readOnly {t : Int} {m : Nat} {s u : State} (h : execRead t m s = .next u) : ReadOnly s u :=
  finishReading_readOnly (fun _ => beginRead_readOnly) h

theorem execRawRead_readOnly {t : Int} {s u : State} (h : execRawRead t s = .next u) : ReadOnly s u :=
  finishReading_readOnly (fun _ => beginRawRead_readOnly) h

end Sys2Proof.Machine
end

