-- ==== Sys2Proof/Laws/PerInstr.lean ====
section
/-! SUPPORT. Statements made of every instruction, constructor by constructor. -/

open Sys2Proof

/-- R95, R99: an instruction has a code in one of the two encoded languages exactly when it is no operation. -/
def Sys2Proof.Laws.Coding.Statement (i : Instr) : Prop := encodeInstr i = none ↔ i.isOp = true

theorem Sys2Proof.Laws.Coding.slipEnd :
    Sys2Proof.Laws.Coding.Statement .slipEnd := ⟨nofun, nofun⟩

theorem Sys2Proof.Laws.Coding.escEndPair :
    Sys2Proof.Laws.Coding.Statement .escEndPair := ⟨nofun, nofun⟩

theorem Sys2Proof.Laws.Coding.escEscPair :
    Sys2Proof.Laws.Coding.Statement .escEscPair := ⟨nofun, nofun⟩

theorem Sys2Proof.Laws.Coding.literal (b : Byte) :
    Sys2Proof.Laws.Coding.Statement (.literal b) := ⟨nofun, nofun⟩

theorem Sys2Proof.Laws.Coding.loneEsc :
    Sys2Proof.Laws.Coding.Statement .loneEsc := ⟨nofun, nofun⟩

theorem Sys2Proof.Laws.Coding.d0 :
    Sys2Proof.Laws.Coding.Statement .d0 := ⟨nofun, nofun⟩

theorem Sys2Proof.Laws.Coding.d1 :
    Sys2Proof.Laws.Coding.Statement .d1 := ⟨nofun, nofun⟩

theorem Sys2Proof.Laws.Coding.r0 :
    Sys2Proof.Laws.Coding.Statement .r0 := ⟨nofun, nofun⟩

theorem Sys2Proof.Laws.Coding.r1 :
    Sys2Proof.Laws.Coding.Statement .r1 := ⟨nofun, nofun⟩

theorem Sys2Proof.Laws.Coding.w (n : Nat) :
    Sys2Proof.Laws.Coding.Statement (.w n) := ⟨nofun, nofun⟩

theorem Sys2Proof.Laws.Coding.sep :
    Sys2Proof.Laws.Coding.Statement .sep := ⟨nofun, nofun⟩

theorem Sys2Proof.Laws.Coding.encode (payload : Bytes) :
    Sys2Proof.Laws.Coding.Statement (.encode payload) := ⟨fun _ => rfl, fun _ => rfl⟩

theorem Sys2Proof.Laws.Coding.decode (buffer : Bytes) :
    Sys2Proof.Laws.Coding.Statement (.decode buffer) := ⟨fun _ => rfl, fun _ => rfl⟩

theorem Sys2Proof.Laws.Coding.connect (baud : Nat) :
    Sys2Proof.Laws.Coding.Statement (.connect baud) := ⟨fun _ => rfl, fun _ => rfl⟩

theorem Sys2Proof.Laws.Coding.disconnect :
    Sys2Proof.Laws.Coding.Statement .disconnect := ⟨fun _ => rfl, fun _ => rfl⟩

theorem Sys2Proof.Laws.Coding.setDTR (state : Bool) :
    Sys2Proof.Laws.Coding.Statement (.setDTR state) := ⟨fun _ => rfl, fun _ => rfl⟩

theorem Sys2Proof.Laws.Coding.setRTS (state : Bool) :
    Sys2Proof.Laws.Coding.Statement (.setRTS state) := ⟨fun _ => rfl, fun _ => rfl⟩

theorem Sys2Proof.Laws.Coding.sleep (ms : Nat) :
    Sys2Proof.Laws.Coding.Statement (.sleep ms) := ⟨fun _ => rfl, fun _ => rfl⟩

theorem Sys2Proof.Laws.Coding.setFraming (b : Bool) :
    Sys2Proof.Laws.Coding.Statement (.setFraming b) := ⟨fun _ => rfl, fun _ => rfl⟩

theorem Sys2Proof.Laws.Coding.write (payload : Bytes) :
    Sys2Proof.Laws.Coding.Statement (.write payload) := ⟨fun _ => rfl, fun _ => rfl⟩

theorem Sys2Proof.Laws.Coding.read (timeout : Int) (minLength : Nat) :
    Sys2Proof.Laws.Coding.Statement (.read timeout minLength) := ⟨fun _ => rfl, fun _ => rfl⟩

theorem Sys2Proof.Laws.Coding.rawRead (timeout : Int) :
    Sys2Proof.Laws.Coding.Statement (.rawRead timeout) := ⟨fun _ => rfl, fun _ => rfl⟩

theorem Sys2Proof.Laws.Coding.classic (target : Target) (resetDelay : Option Nat) :
    Sys2Proof.Laws.Coding.Statement (.classic target resetDelay) := ⟨fun _ => rfl, fun _ => rfl⟩

theorem Sys2Proof.Laws.Coding.usbJTAGSerial (target : Target) :
    Sys2Proof.Laws.Coding.Statement (.usbJTAGSerial target) := ⟨fun _ => rfl, fun _ => rfl⟩

theorem Sys2Proof.Laws.Coding.hard (target : Target) (usingUsbOtg : Bool) :
    Sys2Proof.Laws.Coding.Statement (.hard target usingUsbOtg) := ⟨fun _ => rfl, fun _ => rfl⟩

theorem Sys2Proof.Laws.Coding.validateCustomSequence (text : Text) :
    Sys2Proof.Laws.Coding.Statement (.validateCustomSequence text) := ⟨fun _ => rfl, fun _ => rfl⟩

theorem Sys2Proof.Laws.Coding.customReset (target : Target) (text : Text) :
    Sys2Proof.Laws.Coding.Statement (.customReset target text) := ⟨fun _ => rfl, fun _ => rfl⟩
end

