-- ==== Sys2Proof/Laws/Text.lean ====
section
/-! SUPPORT. Lemmas about splitting, tokens and decimal numerals. -/

namespace Sys2Proof

/-! ### splitText -/

theorem splitText_ne_nil (t : Text) : splitText t ≠ [] := by
  cases t with
  | nil => simp [splitText]
  | cons c t =>
    unfold splitText
    split_ifs
    · simp
    · split <;> simp

theorem splitText_sep (t : Text) : splitText (sepChar :: t) = [] :: splitText t := by simp [splitText]

theorem splitText_cons {c : Char} (h : c ≠ sepChar) {t k : Text} {ks : List Text} (ht : splitText t = k :: ks) :
    splitText (c :: t) = (c :: k) :: ks := by
  simp [splitText, h, ht]

/-- A text without a separator is one token. -/
theorem splitText_token {k : Text} (h : sepChar ∉ k) : splitText k = [k] := by
  induction k with
  | nil => rfl
  | cons c k ih =>
    simp only [List.mem_cons, not_or] at h
    exact splitText_cons (Ne.symm h.1) (ih h.2)

/-- The first separator ends the first token. -/
theorem splitText_token_sep {k : Text} (h : sepChar ∉ k) (t : Text) :
    splitText (k ++ sepChar :: t) = k :: splitText t := by
  induction k with
  | nil => exact splitText_sep t
  | cons c k ih =>
    simp only [List.mem_cons, not_or] at h
    exact splitText_cons (Ne.symm h.1) (ih h.2)

/-! ### The token at the front -/

theorem tokenChars_append_afterToken (t : Text) : tokenChars t ++ afterToken t = t := List.takeWhile_append_dropWhile

theorem sepChar_not_mem_tokenChars (t : Text) : sepChar ∉ tokenChars t := fun h => by
  simpa using List.mem_takeWhile_imp h

/-- Behind the token at the front stands nothing or a separator. -/
theorem afterToken_cases (t : Text) : afterToken t = [] ∨ ∃ u, afterToken t = sepChar :: u := by
  unfold afterToken
  induction t with
  | nil => simp
  | cons c t ih =>
    by_cases h : c = sepChar
    · exact .inr ⟨t, by simp [h]⟩
    · simpa [List.dropWhile_cons, h] using ih

theorem tokenChars_append {k rest : Text} (h : sepChar ∉ k) (hr : rest = [] ∨ ∃ u, rest = sepChar :: u) :
    tokenChars (k ++ rest) = k ∧ afterToken (k ++ rest) = rest := by
  have hk : ∀ c ∈ k, (c != sepChar) = true := fun c hc => by
    simpa using fun e : c = sepChar => h (e ▸ hc)
  unfold tokenChars afterToken
  rw [List.takeWhile_append_of_pos hk, List.dropWhile_append_of_pos hk]
  rcases hr with rfl | ⟨u, rfl⟩ <;> simp

/-- The tokens of a text: the one at the front, and those behind its separator. -/
theorem splitText_front (t : Text) :
    (afterToken t = [] ∧ splitText t = [tokenChars t]) ∨
    ∃ u, afterToken t = sepChar :: u ∧ splitText t = tokenChars t :: splitText u := by
  have e := tokenChars_append_afterToken t
  have n := sepChar_not_mem_tokenChars t
  rcases afterToken_cases t with h | ⟨u, h⟩
  · exact .inl ⟨h, by rw [h, List.append_nil] at e; rw [← splitText_token n, e]⟩
  · exact .inr ⟨u, h, by rw [h] at e; rw [← splitText_token_sep n, e]⟩

/-! ### Numerals -/

theorem digitChar_toNat {d : Nat} (h : d < 10) : (digitChar d).toNat = 48 + d := by
  interval_cases d <;> rfl

theorem isDecDigit_digitChar {d : Nat} (h : d < 10) : isDecDigit (digitChar d) = true := by
  simp [isDecDigit, digitChar_toNat h]; omega

theorem decimalFrom_append (acc : Nat) (t u : Text) :
    decimalFrom acc (t ++ u) = decimalFrom (decimalFrom acc t) u := by
  induction t generalizing acc with
  | nil => rfl
  | cons c t ih => exact ih _

theorem decimalDigits_small {n : Nat} (h : n < 10) (fuel : Nat) : decimalDigits (fuel + 1) n = [digitChar n] := by
  rw [decimalDigits, if_pos h]

theorem decimalDigits_large {n : Nat} (h : ¬ n < 10) (fuel : Nat) :
    decimalDigits (fuel + 1) n = decimalDigits fuel (n / 10) ++ [digitChar (n % 10)] := by
  rw [decimalDigits, if_neg h]

theorem decimalFrom_digit (acc : Nat) {d : Nat} (h : d < 10) : decimalFrom acc [digitChar d] = 10 * acc + d := by
  show 10 * acc + ((digitChar d).toNat - 48) = _
  rw [digitChar_toNat h]
  omega

theorem decimalDigits_spec {fuel n : Nat} (h : n < fuel) :
    decimalFrom 0 (decimalDigits fuel n) = n ∧ (∀ c ∈ decimalDigits fuel n, isDecDigit c = true) ∧
      decimalDigits fuel n ≠ [] := by
  induction fuel generalizing n with
  | zero => omega
  | succ f ih =>
    by_cases hn : n < 10
    · rw [decimalDigits_small hn, decimalFrom_digit 0 hn]
      exact ⟨by omega, by simp only [List.mem_singleton, forall_eq]; exact isDecDigit_digitChar hn, by simp⟩
    · obtain ⟨h₁, h₂, h₃⟩ := ih (n := n / 10) (by omega)
      have hm : n % 10 < 10 := Nat.mod_lt _ (by omega)
      rw [decimalDigits_large hn, decimalFrom_append, h₁, decimalFrom_digit _ hm]
      refine ⟨by omega, fun c hc => ?_, by simp⟩
      rcases List.mem_append.1 hc with hc | hc
      · exact h₂ c hc
      · exact List.mem_singleton.1 hc ▸ isDecDigit_digitChar hm

/-- R92: the numeral of a number has it as its value. -/
theorem decimalValue_decimalText (n : Nat) : decimalValue (decimalText n) = n := (decimalDigits_spec (by omega)).1

theorem decimalText_digits (n : Nat) : (decimalText n).all isDecDigit = true :=
  List.all_eq_true.2 (decimalDigits_spec (by omega)).2.1

theorem decimalText_ne_nil (n : Nat) : decimalText n ≠ [] := (decimalDigits_spec (by omega)).2.2

/-- R203: the token of a command is valid and stands for it. -/
theorem parseWait_decimalText {n : Nat} (h : n ≠ 0) : parseWait (decimalText n) = .ok (.wait n) := by
  simp only [parseWait, decimalText_ne_nil, decimalText_digits, decimalValue_decimalText, h, if_false, if_true]

theorem sepChar_not_mem_tokenText (c : Command) : sepChar ∉ tokenText c := by
  cases c with
  | setDTR b => cases b <;> decide
  | setRTS b => cases b <;> decide
  | wait n =>
    intro h
    rcases List.mem_cons.1 h with h | h
    · exact absurd h (by decide)
    · have := List.all_eq_true.1 (decimalText_digits n) _ h
      exact absurd this (by decide)

end Sys2Proof
end

