-- ==== Sys2Proof/Laws/Programs.lean ====
section
/-! SUPPORT. Tokens, texts and the steps of a program in progress. -/

namespace Sys2Proof.Machine

/-! ### Tokens and commands -/

theorem parseToken_tokenText {c : Command} (h : positiveCommand c = true) : parseToken (tokenText c) = .ok c := by
  cases c with
  | setDTR b => cases b <;> decide
  | setRTS b => cases b <;> decide
  | wait n =>
    have hn : n ≠ 0 := by simpa [positiveCommand] using h
    have h₁ : ¬ 'W' = 'D' := by decide
    have h₂ : ¬ 'W' = 'R' := by decide
    simp only [tokenText, parseToken, h₁, h₂, if_false, if_true, parseWait_decimalText hn]

/-- R180, R203: what a token parses to is a reset command. -/
theorem positive_of_parseWait {rest : Text} {c : Command} (h : parseWait rest = .ok c) : positiveCommand c = true := by
  unfold parseWait at h
  split_ifs at h with h₁ h₂ h₃ h₄
  · cases h; simpa [positiveCommand] using h₃
  · split at h <;> cases h; simp [positiveCommand]

theorem positive_of_parseToken {k : Text} {c : Command} (h : parseToken k = .ok c) : positiveCommand c = true := by
  cases k with
  | nil => simp [parseToken] at h
  | cons x rest =>
    simp only [parseToken] at h
    split_ifs at h with h₁ h₂ h₃
    · split at h <;> cases h; rfl
    · split at h <;> cases h; rfl
    · exact positive_of_parseWait h

theorem validToken_iff {k : Text} : validToken k = true ↔ ∃ c, parseToken k = .ok c := by
  unfold validToken
  cases h : parseToken k <;> simp

/-- A valid token is not empty, and it does not begin with the separator. -/
theorem validToken_front {k : Text} (h : validToken k = true) : ∃ c cs, k = c :: cs := by
  cases k with
  | nil => simp [validToken, parseToken] at h
  | cons c cs => exact ⟨c, cs, rfl⟩

/-! ### Valid texts -/

/-- R202: a valid text begins with a valid token, behind which is nothing or a separator and a valid text. -/
theorem validText_front {t : Text} (h : validText t = true) :
    ∃ c, parseToken (tokenChars t) = .ok c ∧
      ((afterToken t = [] ∧ parseText t = [c]) ∨
        ∃ u, afterToken t = sepChar :: u ∧ validText u = true ∧ parseText t = c :: parseText u) := by
  unfold validText at h
  rcases splitText_front t with ⟨ha, hs⟩ | ⟨u, ha, hs⟩
  · rw [hs] at h
    simp only [List.all_cons, List.all_nil, Bool.and_true] at h
    obtain ⟨c, hc⟩ := validToken_iff.1 h
    exact ⟨c, hc, .inl ⟨ha, by simp [parseText, hs, commandOf, hc]⟩⟩
  · rw [hs] at h
    simp only [List.all_cons, Bool.and_eq_true] at h
    obtain ⟨c, hc⟩ := validToken_iff.1 h.1
    exact ⟨c, hc, .inr ⟨u, ha, h.2, by simp [parseText, hs, commandOf, hc]⟩⟩

theorem validText_nil : validText [] = false := by decide

/-- R206: the text behind the front token of a valid rest is a valid rest. -/
theorem restValid_afterToken {t : Text} (h : validText t = true) : restValid (afterToken t) = true := by
  obtain ⟨c, -, ⟨ha, -⟩ | ⟨u, ha, hu, -⟩⟩ := validText_front h
  · rw [ha]; rfl
  · rw [ha]; simp [restValid, hu]

theorem restValid_of_validText {t : Text} (h : validText t = true) : restValid t = true := by
  cases t with
  | nil => rfl
  | cons c t =>
    have hc : c ≠ sepChar := by
      rintro rfl
      unfold validText at h
      rw [splitText_sep] at h
      simp [validToken, parseToken] at h
    simp [restValid, hc, h]

/-- A valid rest that is not empty decodes: to a separator with a valid text behind it, or to a command whose token
is at the front of a valid text. -/
theorem restValid_decodes {t : Text} (h : restValid t = true) :
    t = [] ∨ (∃ u, t = sepChar :: u ∧ validText u = true ∧ decodeToken t = .ok (.sep, u)) ∨
    (∃ c, validText t = true ∧ parseToken (tokenChars t) = .ok c ∧
      decodeToken t = .ok (instrOfCommand c, afterToken t)) := by
  cases t with
  | nil => exact .inl rfl
  | cons x t =>
    simp only [restValid] at h
    split_ifs at h with hx
    · subst hx
      exact .inr (.inl ⟨t, rfl, h, by simp [decodeToken]⟩)
    · obtain ⟨c, hc, -⟩ := validText_front h
      exact .inr (.inr ⟨c, h, hc, by simp only [decodeToken, hx, if_false, hc]⟩)

/-! ### Steps of a program in progress -/

theorem exec_instrOfCommand {c : Command} (h : positiveCommand c = true) (s : State) :
    exec (instrOfCommand c) s = stepCommand c s := by
  cases c with
  | setDTR b => cases b <;> rfl
  | setRTS b => cases b <;> rfl
  | wait n => cases n <;> first | rfl | simp [positiveCommand] at h

theorem stepCommand_sequence {q : SeqRun} {s : State} (hs : s.run = .sequence q) (c : Command) :
    stepCommand c s = s.whenTarget q.target (afterCommand q (runCommand q.target c s)) := by
  simp only [stepCommand, hs]

theorem stepCommand_next {c : Command} {s u : State} (h : stepCommand c s = .next u) :
    ∃ q, s.run = .sequence q ∧ (q.target = .transport → s.life = .connected) ∧
      ((∃ t, runCommand q.target c s = .ok t ∧ u = { t with run := .sequence q.advance }) ∨
        (∃ e t, runCommand q.target c s = .raised e t ∧ u = t.raise (q.errorOf e))) := by
  unfold stepCommand at h
  split at h
  · next q hq =>
    obtain ⟨hl, h⟩ := whenTarget_next h
    refine ⟨q, hq, hl, ?_⟩
    unfold afterCommand at h
    split at h
    · next t ht => exact .inl ⟨t, ht, by simpa using h.symm⟩
    · next e t ht => exact .inr ⟨e, t, ht, by simpa using h.symm⟩
    · simp at h
  all_goals simp at h

end Sys2Proof.Machine
end

