-- ==== Sys2Proof/Laws/Step.lean ====
section
/-! SUPPORT. What a step does, by what is in progress, and how steps follow each other. -/

namespace Sys2Proof.Machine

/-! ### One step -/

theorem fetchUrgent_undisturbed {s : State} (h : s.Undisturbed) : fetchUrgent s = continueRun s := by
  unfold fetchUrgent
  cases hi : s.inputs with
  | nil => rfl
  | cons x rest =>
    have hx := h x (by simp [hi])
    cases x with
    | invoke i => rfl
    | invokeStepped i => rfl
    | invokeNow i => simp [Input.waits] at hx
    | device e => simp [Input.waits] at hx

/-- A step in the middle of a `decode`. -/
theorem step_symbol {s : State} {d : DeframeRun} (hc : s.codec = some d) {i : Instr} {rest : Bytes}
    (hd : decodeSymbol (d.buffer.drop d.pos) = .ok (i, rest)) : step s = exec i s := by
  simp [step, fetch, hc, fetchSymbol, hd]

/-- A step at the end of a `decode`'s argument. -/
theorem step_endOfBuffer {s : State} {d : DeframeRun} (hc : s.codec = some d) (hd : d.buffer.drop d.pos = []) :
    step s = endOfBuffer d s := by
  simp [step, fetch, hc, fetchSymbol, hd, decodeSymbol]

theorem step_token {s : State} {q : SeqRun} (hc : s.codec = none) (hu : s.Undisturbed) (hr : s.run = .sequence q)
    {i : Instr} {rest : Text} (hd : decodeToken q.rest = .ok (i, rest)) : step s = exec i s := by
  have : fetchToken q s = .instr i s := by
    unfold fetchToken
    cases hq : q.rest with
    | nil => simp [hq, decodeToken] at hd
    | cons c cs => rw [hq] at hd; simp [hd]
  simp [step, fetch, hc, fetchUrgent_undisturbed hu, continueRun, hr, this]

theorem step_endOfText {s : State} {q : SeqRun} (hc : s.codec = none) (hu : s.Undisturbed)
    (hr : s.run = .sequence q) (hd : q.rest = []) : step s = .next (s.finish .done) := by
  simp [step, fetch, hc, fetchUrgent_undisturbed hu, continueRun, hr, fetchToken, hd]

theorem step_reading {s : State} {r : ReadRun} (hc : s.codec = none) (hu : s.Undisturbed)
    (hr : s.run = .reading r) : step s = readStep r s := by
  simp [step, fetch, hc, fetchUrgent_undisturbed hu, continueRun, hr]

theorem step_closing {s : State} (hc : s.codec = none) (hu : s.Undisturbed) (hr : s.run = .closing) :
    step s = pollStep s := by
  simp [step, fetch, hc, fetchUrgent_undisturbed hu, continueRun, hr]

theorem step_idle {s : State} (hc : s.codec = none) (hr : s.run = .idle) (hi : s.inputs = []) :
    step s = .next s := by
  simp [step, fetch, hc, fetchUrgent, hi, continueRun, hr, fetchInput]

theorem step_invoke {s : State} {i : Instr} {rest : List Input} (hc : s.codec = none) (hr : s.run = .idle)
    (hi : s.inputs = .invoke i :: rest) (ho : i.isOp = true) : step s = exec i { s with inputs := rest } := by
  simp [step, fetch, hc, fetchUrgent, hi, continueRun, hr, fetchInput, invoked, ho]

theorem step_invokeNow {s : State} {i : Instr} {rest : List Input} (hc : s.codec = none)
    (hi : s.inputs = .invokeNow i :: rest) (ho : i.isOp = true) : step s = exec i { s with inputs := rest } := by
  simp [step, fetch, hc, fetchUrgent, hi, invoked, ho]

/-- Everything a step that answers a next state can have been. -/
theorem step_next {P : State → State → Prop}
    (instr : ∀ i s u, exec i s = .next u → P s u)
    (input : ∀ s rest u, P { s with inputs := rest } u → P s u)
    (endOfDecode : ∀ d s, P s ({ s with codec := none }.give (.frame ⟨[], d, false⟩)))
    (decodeBegins : ∀ b (s : State), P s { s with codec := some ⟨b, 0, none, []⟩ })
    (readBegins : ∀ t m s u, beginRead t m s = .next u → P s u)
    (rawReadBegins : ∀ t s u, beginRawRead t s = .next u → P s u)
    (programBegins : ∀ q (s : State), s.run = .idle → P s { s with run := .sequence q })
    (ends : ∀ s : State, P s (s.finish .done))
    (reads : ∀ r s u, readStep r s = .next u → P s u)
    (polls : ∀ s u, s.run = .closing → pollStep s = .next u → P s u)
    (device : ∀ e s, P s (deviceActs e s))
    (rests : ∀ s, P s s) : ∀ s u, step s = .next u → P s u := by
  have plain : ∀ {i : Instr} {s u : State},
      (match invoked i s with | .instr i s' => exec i s' | .other o => o) = .next u → P s u := by
    intro i s u h
    unfold invoked at h
    split_ifs at h
    exact instr _ _ _ h
  have stepped : ∀ {i : Instr} {s u : State},
      (match invokedStepped i s with | .instr i s' => exec i s' | .other o => o) = .next u → P s u := by
    intro i s u h
    unfold invokedStepped at h
    cases i <;> simp only [reduceCtorEq] at h
    case decode b => cases h; exact decodeBegins _ _
    case read => exact readBegins _ _ _ _ h
    case rawRead => exact rawReadBegins _ _ _ h
    case classic t d =>
      obtain ⟨hi, h⟩ := whenIdle_next h
      cases (whenDelayPositive_next (whenTarget_next h).2).2
      exact programBegins _ _ hi
    case usbJTAGSerial t =>
      obtain ⟨hi, h⟩ := whenIdle_next h
      cases (whenTarget_next h).2
      exact programBegins _ _ hi
    case hard t o =>
      obtain ⟨hi, h⟩ := whenIdle_next h
      cases (whenTarget_next h).2
      exact programBegins _ _ hi
    case customReset t text =>
      obtain ⟨hi, h⟩ := whenIdle_next h
      obtain ⟨-, h⟩ := whenTarget_next h
      split_ifs at h
      · cases h; exact programBegins _ _ hi
      · cases h; exact ends _
    all_goals exact instr _ _ _ h
  have goesOn : ∀ {s u : State},
      (match continueRun s with | .instr i s' => exec i s' | .other o => o) = .next u → P s u := by
    intro s u h
    unfold continueRun at h
    cases hr : s.run with
    | idle =>
      rw [hr] at h
      simp only [fetchInput] at h
      cases hin : s.inputs with
      | nil => rw [hin] at h; cases h; exact rests s
      | cons x xs =>
        rw [hin] at h
        cases x
        · exact input _ _ _ (plain h)
        · exact input _ _ _ (stepped h)
        · exact input _ _ _ (plain h)
        · cases h; exact input _ _ _ (device _ _)
    | sequence q =>
      rw [hr] at h
      simp only [fetchToken] at h
      cases hq : q.rest with
      | nil => rw [hq] at h; cases h; exact ends s
      | cons c cs =>
        rw [hq] at h
        simp only at h
        cases hd : decodeToken (c :: cs) with
        | ok p => rw [hd] at h; exact instr _ _ _ h
        | error e => rw [hd] at h; cases h
    | reading r => rw [hr] at h; exact reads r s u h
    | closing => rw [hr] at h; exact polls s u hr h
  intro s u h
  unfold step fetch at h
  cases hc : s.codec with
  | some d =>
    rw [hc] at h
    simp only [fetchSymbol] at h
    cases hd : decodeSymbol (d.buffer.drop d.pos) with
    | ok p => rw [hd] at h; exact instr _ _ _ h
    | error e => rw [hd] at h; simp only [endOfBuffer] at h; cases h; exact endOfDecode _ _
  | none =>
    rw [hc] at h
    simp only [fetchUrgent] at h
    cases hin : s.inputs with
    | nil => rw [hin] at h; exact goesOn h
    | cons x xs =>
      rw [hin] at h
      cases x
      · exact goesOn h
      · exact goesOn h
      · exact input _ _ _ (plain h)
      · cases h; exact input _ _ _ (device _ _)

/-! ### Steps in a row -/

theorem run_zero (s : State) : Host.Core.run Sys2Proof.core 0 s = .next s := rfl

theorem run_succ_next {s u : State} (h : step s = .next u) (n : Nat) :
    Host.Core.run Sys2Proof.core (n + 1) s = Host.Core.run Sys2Proof.core n u := by
  have : Sys2Proof.core.step s = .next u := h
  simp only [Host.Core.run, this]

theorem run_succ_fault {s : State} {f : Fault} (h : step s = .fault f) (n : Nat) :
    Host.Core.run Sys2Proof.core (n + 1) s = .fault f := by
  have : Sys2Proof.core.step s = .fault f := h
  simp only [Host.Core.run, this]

theorem run_one (s : State) : Host.Core.run Sys2Proof.core 1 s = step s := by
  cases h : step s with
  | next u => rw [run_succ_next h]; rfl
  | fault f => rw [run_succ_fault h]; rfl
  | refused r =>
    have : Sys2Proof.core.step s = .refused r := h
    simp only [Host.Core.run, this]
    rfl

/-! ### Requirements and ends -/

theorem whenReady {s : State} (h : s.Ready) (k : Out) : s.whenIdle (s.whenConnected k) = k := by
  rw [whenIdle_idle h.1, whenConnected_connected h.2]

theorem whenReadyFor {s : State} {t : Target} (h : s.ReadyFor t) (k : Out) : s.whenIdle (s.whenTarget t k) = k := by
  rw [whenIdle_idle h.1, whenTarget_ready h.2]

/-- An operation that ends in one step was never in progress. -/
theorem finish_idle {s : State} (h : s.run = .idle) (r : Result) :
    s.finish r = { s with results := s.results ++ [r] } := by
  simp [State.finish, ← h]

/-- A read that ended before its first `DevRead` has ended. -/
theorem finishReading_idle {s : State} (h : s.run = .idle) : finishReading (.next s) = .next s := by
  simp [finishReading, readToEnd_idle h]

end Sys2Proof.Machine
end

