-- ==== Sys2Proof/Laws/Runs.lean ====
section
/-! SUPPORT. Closed forms: a reset program on a target that accepts every call, and a read whose chunks come in
time. -/

namespace Sys2Proof.Machine

/-! ### Programs -/

/-- The state inside an operation after the commands `P`: as `afterRun`, and nothing handed over yet. -/
def State.inRun (s : State) (t : Target) (P : List Command) : State := { s.afterRun t P with results := s.results }

theorem inRun_cons (s : State) (t : Target) (c : Command) (P : List Command) :
    s.inRun t (c :: P) = (s.inRun t [c]).inRun t P := by
  cases t <;> cases c <;>
    simp [State.inRun, State.afterRun, State.afterProgram, State.afterForeign, latchAfter, eventsOf, levelAfter,
      requestsOf, requestsOfCommand, delayOf, Nat.add_assoc, Nat.add_comm 1]

theorem nextAnswer_of_accepts {s : State} {n : Nat} (h : s.Accepts (n + 1)) : s.nextAnswer = .ok := by
  unfold State.nextAnswer
  cases hb : s.answers with
  | nil => rfl
  | cons a as => exact h a (by simp [hb])

theorem nextTargetAnswer_of_accepts {s : State} {n : Nat} (h : s.TargetAccepts (n + 1)) :
    s.nextTargetAnswer = .ok := by
  unfold State.nextTargetAnswer
  cases hb : s.targetAnswers with
  | nil => rfl
  | cons a as => exact h a (by simp [hb])

theorem accepts_dropAnswer {s : State} {n : Nat} (h : s.Accepts (n + 1)) : s.dropAnswer.Accepts n := by
  unfold State.Accepts State.dropAnswer at *
  cases hb : s.answers with
  | nil => simp
  | cons a as =>
    intro x hx
    simp only [List.tail_cons] at hx
    exact h x (by simp [hb, hx])

/-- R136, R137, R139: one command on a target that accepts it. -/
theorem runCommand_accepted {s : State} {t : Target} {c : Command} (h : s.AcceptsRun t [c]) :
    runCommand t c s = .ok (s.inRun t [c]) := by
  cases t with
  | transport =>
    have h := h.1 rfl
    cases c with
    | setDTR b =>
      have : State.nextAnswer { (s.logCap (.setDTR b)) with dtrState := b } = .ok := nextAnswer_of_accepts (n := 0) h
      simp only [runCommand, setDTRCall, devSignal, this]
      simp [State.inRun, State.afterRun, State.afterProgram, State.setLine, State.log, State.dropAnswer,
        State.logCap, latchAfter, eventsOf, levelAfter, requestsOf, requestsOfCommand, delayOf]
    | setRTS b =>
      have h₁ : State.nextAnswer (s.logCap (.setRTS b)) = .ok := nextAnswer_of_accepts (n := 1) h
      have h₂ : State.nextAnswer ((((s.logCap (.setRTS b)).log (.sig .rts b)).dropAnswer).setLine .rts b) = .ok :=
        nextAnswer_of_accepts (n := 0) (accepts_dropAnswer h)
      have h₃ : s.answers.tail.tail = s.answers.drop 2 := by
        rcases s.answers with _ | ⟨a, _ | ⟨b, as⟩⟩ <;> rfl
      simp only [runCommand, setRTSCall, devSignal, h₁, h₂, Call.andThen]
      simp [State.inRun, State.afterRun, State.afterProgram, State.setLine, State.log, State.dropAnswer,
        State.logCap, latchAfter, eventsOf, levelAfter, requestsOf, requestsOfCommand, delayOf, h₃]
    | wait n =>
      simp [runCommand, sleepCall, State.inRun, State.afterRun, State.afterProgram, State.log, State.tick,
        State.logCap, latchAfter, eventsOf, levelAfter, requestsOf, requestsOfCommand, delayOf]
  | foreign =>
    have : State.nextTargetAnswer (s.logCap c) = .ok := nextTargetAnswer_of_accepts (n := 0) (h.2 rfl)
    simp only [runCommand, foreignCall, this]
    cases c <;>
      simp [State.inRun, State.afterRun, State.afterForeign, State.dropTargetAnswer, State.logCap, delayOf,
        State.tick]

theorem acceptsRun_cons {s : State} {t : Target} {c : Command} {P : List Command} (h : s.AcceptsRun t (c :: P)) :
    s.AcceptsRun t [c] ∧ (s.inRun t [c]).AcceptsRun t P := by
  have split : ∀ {as : List Answer} {m n : Nat}, (∀ a ∈ as.take (m + n), a = .ok) →
      (∀ a ∈ as.take m, a = .ok) ∧ ∀ a ∈ (as.drop m).take n, a = .ok := fun h =>
    ⟨fun a ha => h a (by rw [List.take_add]; exact List.mem_append_left _ ha),
      fun a ha => h a (by rw [List.take_add]; exact List.mem_append_right _ ha)⟩
  cases t with
  | transport =>
    obtain ⟨h₁, h₂⟩ := split (m := requestsOfCommand c) (n := requestsOf P) (h.1 rfl)
    exact ⟨⟨fun _ => by simpa [requestsOf, State.Accepts] using h₁, nofun⟩,
      ⟨fun _ => by simpa [requestsOf, State.Accepts, State.inRun, State.afterRun, State.afterProgram] using h₂, nofun⟩⟩
  | foreign =>
    have h := h.2 rfl
    rw [List.length_cons, Nat.add_comm] at h
    obtain ⟨h₁, h₂⟩ := split (m := 1) (n := P.length) h
    exact ⟨⟨nofun, fun _ => h₁⟩, ⟨nofun, fun _ => h₂⟩⟩

/-- R184: a program on a target that accepts every call. -/
theorem runProgram_accepted {t : Target} : ∀ {P : List Command} {s : State}, s.AcceptsRun t P →
    runProgram t P s = .ok (s.inRun t P) := by
  intro P
  induction P with
  | nil =>
    intro s _
    cases t <;>
      simp [runProgram, State.inRun, State.afterRun, State.afterProgram, State.afterForeign, latchAfter, eventsOf,
        levelAfter, requestsOf, delayOf]
  | cons c P ih =>
    intro s h
    obtain ⟨h₁, h₂⟩ := acceptsRun_cons h
    rw [inRun_cons]
    simp only [runProgram, runCommand_accepted h₁, Call.andThen, ih h₂]

theorem finish_inRun {s : State} (h : s.run = .idle) (t : Target) (P : List Command) :
    (s.inRun t P).finish .done = s.afterRun t P := by
  cases t <;> simp [State.inRun, State.finish, State.afterRun, State.afterProgram, State.afterForeign, h]

/-! ### Reads -/

theorem timerOf_cases (t : Int) (now : Nat) :
    (0 < t ∧ timerOf t now = some (now + t.toNat)) ∨ (t ≤ 0 ∧ timerOf t now = none) := by
  unfold timerOf
  split_ifs with h
  · exact .inl ⟨h, rfl⟩
  · exact .inr ⟨by omega, rfl⟩

/-- R154: what the device has before the timer fires is taken. -/
theorem devRead_inTime {timer : Option Nat} {s : State} {a : Arrival} {rest : List Arrival}
    (hi : s.inbound = a :: rest) (ht : ∀ T, timer = some T → s.now < T ∧ a.time < T) :
    devRead timer s = takeArrival a rest s := by
  cases timer with
  | none => simp [devRead, hi]
  | some T => simp [devRead, hi, Nat.not_le.2 (ht T rfl).1, (ht T rfl).2]

theorem timeAfter_lt {T now : Nat} {cs : List (Nat × Bytes)} (h : now < T) (hc : ∀ c ∈ cs, c.1 < T) :
    timeAfter now cs < T := by
  induction cs generalizing now with
  | nil => exact h
  | cons c cs ih => exact ih (Nat.max_lt.2 ⟨h, hc c (by simp)⟩) (fun x hx => hc x (by simp [hx]))

theorem timeAfter_snoc (now : Nat) (cs : List (Nat × Bytes)) (c : Nat × Bytes) :
    timeAfter now (cs ++ [c]) = max (timeAfter now cs) c.1 := by
  induction cs generalizing now with
  | nil => rfl
  | cons d cs ih => simp [timeAfter, ih]

/-- R156: chunks that come in time and leave the gate closed only make the read in progress longer. -/
theorem readToEnd_chunks (cs : List (Nat × Bytes)) (tail : List Arrival) :
    ∀ (s : State) (r : ReadRun) (n : Nat), s.run = .reading r → s.inbound = arrivalsOf cs ++ tail →
    (∀ T, r.timer = some T → s.now < T ∧ ∀ c ∈ cs, c.1 < T) →
    (cs ≠ [] → (r.acc ++ bytesOf cs).length < r.minLength) →
    readToEnd (n + cs.length) s = readToEnd n { s with
      run := .reading { r with acc := r.acc ++ bytesOf cs }
      now := timeAfter s.now cs
      inbound := tail
      devTrace := s.devTrace ++ rxOf cs } := by
  induction cs with
  | nil =>
    intro s r n hr hi _ _
    simp only [arrivalsOf, List.map_nil, List.nil_append] at hi
    simp [bytesOf, timeAfter, rxOf, ← hi, ← hr]
  | cons c cs ih =>
    intro s r n hr hi ht hg
    have hi' : s.inbound = ⟨c.1, .chunk c.2⟩ :: (arrivalsOf cs ++ tail) := by simpa [arrivalsOf] using hi
    have hd := devRead_inTime (timer := r.timer) hi' (fun T hT => ⟨(ht T hT).1, (ht T hT).2 c (by simp)⟩)
    have hg' := hg (by simp)
    have hgate : gateOpen (r.acc ++ c.2) r.minLength = false := by
      simp [gateOpen, bytesOf] at hg' ⊢
      omega
    have hstep : readStep r s = .next { s with
        run := .reading { r with acc := r.acc ++ c.2 }
        now := max s.now c.1
        inbound := arrivalsOf cs ++ tail
        devTrace := s.devTrace ++ [.rx c.2] } := by
      simp [readStep, hd, takeArrival, acceptChunk, hgate, State.waitUntil, State.log]
    have hn : n + (c :: cs).length = (n + cs.length) + 1 := by simp; omega
    rw [hn, readToEnd_reading hr, hstep]
    simp only
    rw [ih _ { r with acc := r.acc ++ c.2 } n rfl rfl]
    · simp [bytesOf, timeAfter, rxOf]
    · intro T hT
      obtain ⟨h₁, h₂⟩ := ht T hT
      exact ⟨Nat.max_lt.2 ⟨h₁, h₂ c (by simp)⟩, fun x hx => h₂ x (by simp [hx])⟩
    · intro _
      simpa [bytesOf] using hg'

/-- R152: a `read` that reaches its first `DevRead`. -/
theorem beginRead_device {t : Int} {m : Nat} {s : State} (h : s.ReadsDevice) :
    beginRead t m s = .next { s with
      leftover := []
      rdLocked := true
      run := .reading ⟨s.leftover, timerOf t s.now, m, s.framingEnabled⟩ } := by
  obtain ⟨hr, hl, hd, hf⟩ := h
  have : (s.framingEnabled && (slipDecode s.leftover).complete) = false := by
    cases h : s.framingEnabled <;> simp_all
  simp only [beginRead, whenReady hr, this, hd, State.startReading, hl, Bool.false_eq_true, if_false, if_true]

/-- R160: a `rawRead` that reaches its `DevRead`. -/
theorem beginRawRead_device {t : Int} {s : State} (h : s.RawReadsDevice) :
    beginRawRead t s = .next { s with
      rdLocked := true
      run := .reading ⟨[], timerOf t s.now, 0, false⟩ } := by
  obtain ⟨hr, hl, hd, hf⟩ := h
  simp only [beginRawRead, whenReady hr, hf, hd, State.startReading, hl, Bool.false_eq_true, if_false, if_true]

end Sys2Proof.Machine
end

