-- ==== Sys2Proof/Tests/Slice0.lean ====
section
/-! SUPPORT. Tests of the model. Expected results are the spec's: its tables, the worked examples of its rules, and the
vectors of 95_test_vectors.md (named V-…). The witnesses at the end meet the hypotheses of the obligations. -/

namespace Sys2Proof.Tests

open Sys2Proof.Machine

/-! ## Helpers -/

/-- A connected, idle block with framing on, a latch of true and a device that accepts everything. -/
def connected : State where
  leftover := []
  framingEnabled := true
  baudRate := 9600
  dtrState := true
  handle := 7
  life := .connected
  rdLocked := false
  wrLocked := false
  run := .idle
  codec := none
  devOpen := true
  devReadable := true
  inbound := []
  answers := []
  outbound := []
  dtrLine := true
  rtsLine := true
  targetAnswers := []
  inputs := []
  results := []
  capTrace := []
  devTrace := []
  now := 1000
  draws := 0

/-- A block just created. -/
def created : State := { connected with life := .created, devOpen := false, dtrState := false, framingEnabled := false }

/-- A connected block whose device has these chunks, all of them at once. -/
def holding (leftover : Bytes) (chunks : List Bytes) : State :=
  { connected with leftover := leftover, inbound := chunks.map (fun c => ⟨0, .chunk c⟩) }

/-- A `decode` in progress. -/
def decoding (d : DeframeRun) : State := { connected with codec := some d }

/-- A reset program in progress. -/
def running (t : Target) (text : String) : State :=
  { connected with run := .sequence ⟨t, text.toList, 3, true⟩ }

/-- The state an outcome ends in, if it is a next state. -/
def nextOf (o : Out) : Option State :=
  match o with
  | .next s => some s
  | .fault _ => none
  | .refused _ => none

/-- Why an outcome is refused, if it is. -/
def refusalOf (o : Out) : Option Refusal :=
  match o with
  | .next _ => none
  | .fault _ => none
  | .refused r => some r

/-- Why an outcome is stuck, if it is. -/
def faultOf (o : Out) : Option Fault :=
  match o with
  | .next _ => none
  | .fault f => some f
  | .refused _ => none

/-- What an operation handed over, what it left buffered and what it asked of the device. -/
def seen (o : Out) : Option (List Result × Bytes × List DevEvent) :=
  (nextOf o).map (fun s => (s.results, s.leftover, s.devTrace))

/-- What an operation handed over, the latch it left and what it asked of the device. -/
def driven (o : Out) : Option (List Result × Bool × List DevEvent) :=
  (nextOf o).map (fun s => (s.results, s.dtrState, s.devTrace))

/-! ## Well-formedness refuses -/

theorem test_wf_literal_end : (Instr.literal 0xC0).wf = false := by decide
theorem test_wf_literal_esc : (Instr.literal 0xDB).wf = false := by decide
theorem test_wf_wait_zero : (Instr.w 0).wf = false := by decide
theorem test_wf_resetDelay_zero : (Instr.classic .foreign (some 0)).wf = false := by decide

/-! ## Words of the opcode table, written out from 30_encoding.md R80, R83, R91, R93 -/

theorem test_word_END : decodeTableWord 8 0b11000000 = some .slipEnd := by decide
theorem test_word_ESC_END_PAIR : decodeTableWord 16 0b1101101111011100 = some .escEndPair := by decide
theorem test_word_ESC_ESC_PAIR : decodeTableWord 16 0b1101101111011101 = some .escEscPair := by decide
theorem test_word_LITERAL : decodeTableWord 8 0b11011100 = some (.literal 0xDC) := by decide
theorem test_word_LONE_ESC : decodeTableWord 16 0b1101101100000001 = some .loneEsc := by decide
theorem test_word_D0 : decodeTableWord 16 0b0100010000110000 = some .d0 := by decide
theorem test_word_D1 : decodeTableWord 16 0b0100010000110001 = some .d1 := by decide
theorem test_word_R0 : decodeTableWord 16 0b0101001000110000 = some .r0 := by decide
theorem test_word_R1 : decodeTableWord 16 0b0101001000110001 = some .r1 := by decide
theorem test_word_W : decodeTableWord 24 0b010101110011010100110000 = some (.w 50) := by decide
theorem test_word_SEP : decodeTableWord 8 0b01111100 = some .sep := by decide

/-- R94 (d): `W` with an empty remainder is no token. -/
theorem test_word_W_alone : decodeTableWord 8 0b01010111 = none := by decide

/-- R94 (c): `D01` is no token. -/
theorem test_word_D01 : decodeTableWord 24 0b010001000011000000110001 = none := by decide

/-! ## Fetching: each encoded row is the first instruction a step runs -/

/-- R119, row `C0 C0`: the empty frame is complete. -/
theorem test_step_END : (nextOf (step (State.reset.withFetchWord 8 0xC0))).map (·.results) =
    some [.frame ⟨[], [], true⟩] := by decide

theorem test_step_ESC_END_PAIR : (nextOf (step (State.reset.withFetchWord 16 0xDBDC))).map (·.codec) =
    some (some ⟨[0xC0, 0xDB, 0xDC], 3, some 0, [0xC0]⟩) := by decide

theorem test_step_ESC_ESC_PAIR : (nextOf (step (State.reset.withFetchWord 16 0xDBDD))).map (·.codec) =
    some (some ⟨[0xC0, 0xDB, 0xDD], 3, some 0, [0xDB]⟩) := by decide

theorem test_step_LITERAL : (nextOf (step (State.reset.withFetchWord 8 0x00))).map (·.codec) =
    some (some ⟨[0xC0, 0x00], 2, some 0, [0x00]⟩) := by decide

theorem test_step_LONE_ESC : (nextOf (step (State.reset.withFetchWord 8 0xDB))).map (·.codec) =
    some (some ⟨[0xC0, 0xDB], 2, some 0, [0xDB]⟩) := by decide

theorem test_step_D0 : driven (step (State.reset.withFetchWord 16 0x4430)) =
    some ([], false, [.sig .dtr false]) := by decide

theorem test_step_D1 : driven (step (State.reset.withFetchWord 16 0x4431)) =
    some ([], true, [.sig .dtr true]) := by decide

/-- R137: straight after creation the re-issued latch is false. -/
theorem test_step_R0 : driven (step (State.reset.withFetchWord 16 0x5230)) =
    some ([], false, [.sig .rts false, .sig .dtr false]) := by decide

theorem test_step_R1 : driven (step (State.reset.withFetchWord 16 0x5231)) =
    some ([], false, [.sig .rts true, .sig .dtr false]) := by decide

theorem test_step_W : driven (step (State.reset.withFetchWord 16 0x5735)) =
    some ([], false, [.sleep 5]) := by decide

theorem test_step_SEP : (nextOf (step (State.reset.withFetchWord 24 0x7C4430))).map (·.run) =
    some (.sequence ⟨.transport, ['D', '0'], 0, true⟩) := by decide

/-- R260: after creation the block does nothing until the host invokes an operation. -/
theorem test_step_reset : nextOf (step State.reset) = some State.reset := rfl

/-- R60: an invocation is taken off the queue and run. -/
theorem test_step_invoke : (nextOf (step { created with inputs := [.invoke (.connect 9600)] })).map
    (fun s => (s.inputs, s.life)) = some ([], .connected) := by decide

/-- R61: a `read` invoked while another read is suspended is refused. -/
theorem test_step_busy : refusalOf (step { connected with
    run := .reading ⟨[], none, 1, true⟩, rdLocked := true, inputs := [.invokeNow (.read 0 1)] }) =
    some .busy := by decide

/-! ## Tokens of a program in progress -/

/-- The token of a run against a foreign object is one call on it and no device request (R181). -/
theorem test_D1_foreign : (nextOf (exec .d1 (running .foreign "D1|W5"))).map
    (fun s => (s.capTrace, s.devTrace, s.dtrState, s.run)) =
    some ([.setDTR true], [], true, .sequence ⟨.foreign, "|W5".toList, 4, true⟩) := by decide

/-- R227: every failure is `CustomSequenceError`. -/
theorem test_R0_fails : driven (exec .r0 { running .transport "R0|D0" with answers := [.fail 9] }) =
    some ([.error .customSequenceError], true, [.sig .rts false]) := by decide

/-! ## SlipCodec -/

theorem test_encode_V_ENC_12 : (nextOf (exec (.encode [0x01, 0xC0, 0xDB, 0x02]) connected)).map (·.results) =
    some [.bytes [0xC0, 0x01, 0xDB, 0xDC, 0xDB, 0xDD, 0x02, 0xC0]] := by decide

theorem test_encode_V_ENC_07 : (nextOf (exec (.encode [0xDB, 0xDC]) connected)).map (·.results) =
    some [.bytes [0xC0, 0xDB, 0xDD, 0xDC, 0xC0]] := by decide

theorem test_decode_V_DEC_07 :
    (nextOf (exec (.decode [0xC0, 0x01, 0xC0, 0xC0, 0x02, 0xC0]) connected)).map (·.results) =
    some [.frame ⟨[0x01], [0xC0, 0x02, 0xC0], true⟩] := by decide

theorem test_decode_V_DEC_11 : (nextOf (exec (.decode [0xC0, 0xDB, 0xDB, 0xDC, 0xC0]) connected)).map (·.results) =
    some [.frame ⟨[0xDB, 0xC0], [], true⟩] := by decide

/-! ## Lifecycle and control lines -/

theorem test_connect_V_CTL_01 : (nextOf (exec (.connect 115200) created)).map
    (fun s => (s.life, s.dtrState, s.leftover, s.baudRate, s.devTrace)) =
    some (.connected, false, [], 115200, [.open 115200]) := by decide

theorem test_connect_V_CTL_02 : (nextOf (exec (.connect 9600) { created with
    leftover := [1], baudRate := 3, answers := [.fail 4] })).map
    (fun s => (s.results, s.life, s.leftover, s.baudRate, s.devTrace)) =
    some ([.error .deviceOpenError], .created, [1], 3, [.open 9600]) := by decide

theorem test_disconnect_V_CTL_04 : (nextOf (exec .disconnect connected)).map (fun s => (s.results, s.life, s.devTrace)) =
    some ([.done], .closed, [.close]) := by decide

theorem test_disconnect_V_CTL_05 : (nextOf (exec .disconnect { connected with answers := [.fail 8] })).map
    (fun s => (s.results, s.life, s.devTrace)) = some ([.error (.deviceError 8)], .closed, [.close]) := by decide

theorem test_setDTR_V_SIG_02 : driven (exec (.setDTR true) connected) =
    some ([.done], true, [.sig .dtr true]) := by decide

theorem test_setDTR_V_SIG_05 : driven (exec (.setDTR true) { connected with
    dtrState := false, answers := [.fail 8] }) =
    some ([.error (.deviceError 8)], true, [.sig .dtr true]) := by decide

theorem test_setRTS_V_SIG_03 : driven (exec (.setRTS false) connected) =
    some ([.done], true, [.sig .rts false, .sig .dtr true]) := by decide

theorem test_setRTS_V_SIG_07 : driven (exec (.setRTS true) { connected with answers := [.fail 8] }) =
    some ([.error (.deviceError 8)], true, [.sig .rts true]) := by decide

theorem test_sleep_V_SLP_01 : (nextOf (exec (.sleep 100) connected)).map (fun s => (s.devTrace, s.now)) =
    some ([.sleep 100], 1100) := by decide

theorem test_setFraming_V_FRM_02 : (nextOf (exec (.setFraming false) (holding [0xC0, 0x01] []))).map
    (fun s => (s.framingEnabled, s.leftover, s.devTrace)) = some (false, [0xC0, 0x01], []) := by decide

/-! ## Buffered I/O -/

theorem test_write_V_WR_01 : seen (exec (.write [0x01, 0xC0]) connected) =
    some ([.done], [], [.tx [0xC0, 0x01, 0xDB, 0xDC, 0xC0]]) := by decide

theorem test_write_V_WR_05 : (nextOf (exec (.write [0xDB]) { connected with answers := [.fail 8] })).map
    (fun s => (s.results, s.wrLocked, s.devTrace)) =
    some ([.error (.deviceError 8)], false, [.tx [0xC0, 0xDB, 0xDD, 0xC0]]) := by decide

theorem test_read_V_IO_17 : seen (exec (.read 0 1) (holding [] [[0xC0, 0x01, 0x02, 0xC0, 0xC0, 0x03]])) =
    some ([.bytes [0x01, 0x02]], [0xC0, 0x03], [.rx [0xC0, 0x01, 0x02, 0xC0, 0xC0, 0x03]]) := by decide

theorem test_read_V_IO_06a : seen (exec (.read 50 12) (holding [] [[0xC0, 0x01, 0xC0]])) =
    some ([.error .timeoutError], [0xC0, 0x01, 0xC0], [.rx [0xC0, 0x01, 0xC0], .cancel]) := by decide

theorem test_rawRead_V_IO_04 : seen (exec (.rawRead 50) (holding [0xC0, 0x01, 0x02] [[0xC0]])) =
    some ([.bytes [0xC0, 0x01, 0x02]], [], []) := by decide

theorem test_rawRead_V_IO_14 : seen (exec (.rawRead 0) (holding [] [[0xDB, 0xDC, 0xC0], [0x01]])) =
    some ([.bytes [0xDB, 0xDC, 0xC0]], [], [.rx [0xDB, 0xDC, 0xC0]]) := by decide

/-! ## Reset programs -/

theorem test_classic_V_RST_01 : driven (exec (.classic .transport none) connected) =
    some ([.done], false, [.sig .dtr false, .sig .rts true, .sig .dtr false, .sleep 100, .sig .dtr true,
      .sig .rts false, .sig .dtr true, .sleep 50, .sig .dtr false]) := by decide

theorem test_classic_V_RST_07 : driven (exec (.classic .transport none) { connected with
    answers := [.ok, .ok, .ok, .ok, .fail 6] }) =
    some ([.error (.deviceError 6)], true, [.sig .dtr false, .sig .rts true, .sig .dtr false, .sleep 100,
      .sig .dtr true, .sig .rts false]) := by decide

theorem test_usbJTAGSerial_V_RST_04 : driven (exec (.usbJTAGSerial .transport) connected) =
    some ([.done], false, [.sig .rts false, .sig .dtr true, .sig .dtr false, .sleep 100, .sig .dtr true,
      .sig .rts false, .sig .dtr true, .sleep 100, .sig .rts true, .sig .dtr true, .sig .dtr false, .sig .rts true,
      .sig .dtr false, .sleep 100, .sig .rts false, .sig .dtr false, .sig .dtr false]) := by decide

theorem test_hard_V_RST_05 : driven (exec (.hard .transport true) connected) =
    some ([.done], true, [.sleep 200, .sig .rts false, .sig .dtr true, .sleep 200]) := by decide

theorem test_hard_V_RST_06 : driven (exec (.hard .transport false) { connected with dtrState := false }) =
    some ([.done], false, [.sleep 100, .sig .rts false, .sig .dtr false]) := by decide

theorem test_validate_V_VAL_17 : parseText "W050".toList = [.wait 50] := by decide

theorem test_validate_V_VAL_10 : (nextOf (exec (.validateCustomSequence "D0||R1".toList) created)).map (·.results) =
    some [.bool false] := by decide

theorem test_customReset_V_CUS_03 : driven (exec (.customReset .transport "D1|W5|R0".toList) { connected with
    dtrState := false }) =
    some ([.done], true, [.sig .dtr true, .sleep 5, .sig .rts false, .sig .dtr true]) := by decide

theorem test_customReset_V_CUS_06 : driven (exec (.customReset .transport "D1|R0".toList) { connected with
    dtrState := false, answers := [.ok, .fail 8] }) =
    some ([.error .customSequenceError], true, [.sig .dtr true, .sig .rts false]) := by decide

/-! ## Witnesses: concrete operands and states that meet the hypotheses of the obligations -/

theorem witness_SymbolTable : ([] : Bytes).head? ≠ some 0xDC ∧ ([] : Bytes).head? ≠ some 0xDD ∧
    ([0xDB, 0xDC] : Bytes).head? ≠ some 0xDC ∧ ([0xDB, 0xDC] : Bytes).head? ≠ some 0xDD ∧
    (0xDC : Byte) ≠ 0xC0 ∧ (0xDC : Byte) ≠ 0xDB ∧ (0x00 : Byte) ≠ 0xC0 ∧ (0xFF : Byte) ≠ 0xDB := by decide

theorem witness_SymbolEncodeDecode : Instr.loneEsc.format = .slip ∧ Instr.loneEsc.wf = true ∧
    (([0xC0] : Bytes).head? ≠ some 0xDC ∧ ([0xC0] : Bytes).head? ≠ some 0xDD) ∧
    (Instr.literal 0xDD).format = .slip ∧ (Instr.literal 0xDD).wf = true := by decide

theorem witness_TokenEncodeDecode : (Instr.w 1).format = .token ∧ (Instr.w 1).wf = true ∧
    ("|D0".toList).head? = some '|' ∧ Instr.sep.format = .token ∧ Instr.sep.wf = true := by decide

theorem witness_PartialFrameUnchanged : ([] : Bytes).count 0xC0 ≤ 1 ∧ ([0x01, 0xC0, 0x02] : Bytes).count 0xC0 ≤ 1 := by
  decide

theorem witness_FrameFoundBetweenEnds : (0xC0 : Byte) ∉ ([0xAA] : Bytes) ∧ (0xC0 : Byte) ∉ ([0xDB, 0xDC] : Bytes) ∧
    (0xC0 : Byte) ∉ ([] : Bytes) := by decide

theorem witness_SymbolsStepTheDecode :
    (decoding ⟨[0x01, 0xC0], 0, none, []⟩).codec = some ⟨[0x01, 0xC0], 0, none, []⟩ ∧
    (decoding ⟨[0xC0, 0xDB], 1, some 0, []⟩).codec = some ⟨[0xC0, 0xDB], 1, some 0, []⟩ ∧
    (Instr.literal 0x01).format = .slip ∧ (Instr.literal 0x01).wf = true ∧ Instr.literal 0x01 ≠ .slipEnd := by decide

theorem witness_EndOpensAndClosesTheFrame :
    (decoding ⟨[0xC0], 0, none, []⟩).codec = some ⟨[0xC0], 0, none, []⟩ ∧
    (decoding ⟨[0xC0, 0xC0], 1, some 0, []⟩).codec = some ⟨[0xC0, 0xC0], 1, some 0, []⟩ := by decide

theorem witness_ValidationIsPure : validText "W1".toList = true := by decide

theorem witness_ProgramTextParses : [Command.wait 1] ≠ [] ∧ ∀ c ∈ [Command.wait 1], positiveCommand c = true := by
  decide

theorem witness_ConnectOpensOnce : created.run = .idle ∧ created.life = .created ∧ created.nextAnswer = .ok ∧
    State.nextAnswer { created with answers := [.fail 0] } = .fail 0 ∧ connected.run = .idle ∧
    connected.life ≠ .created := by decide

theorem witness_DisconnectCloses : connected.Ready ∧ connected.rdLocked = false ∧ connected.wrLocked = false ∧
    connected.nextAnswer = .ok ∧ State.nextAnswer { connected with answers := [.fail 0] } = .fail 0 := by decide

theorem witness_DisconnectPollsWhileLocked : State.Ready { connected with wrLocked := true } ∧
    connected.codec = none ∧ State.Undisturbed { connected with wrLocked := true } ∧
    State.wrLocked { connected with wrLocked := true } = true := ⟨by decide, rfl, nofun, rfl⟩

theorem witness_SetFramingWritesOneField : created.run = .idle ∧ created.life ≠ .closed ∧
    State.life { connected with life := .closed } = .closed ∧ (running .foreign "D0").run ≠ .idle := by decide

theorem witness_SetDTRLatchesFirst : connected.Ready ∧ connected.nextAnswer = .ok ∧
    State.nextAnswer { connected with answers := [.fail 0] } = .fail 0 := by decide

theorem witness_SetRTSReissuesDTR : connected.Ready ∧ connected.nextAnswer = .ok ∧
    connected.dropAnswer.nextAnswer = .ok ∧ State.nextAnswer { connected with answers := [.fail 0] } = .fail 0 ∧
    State.nextAnswer { connected with answers := [.ok, .fail 0] } = .ok ∧
    State.nextAnswer (State.dropAnswer { connected with answers := [.ok, .fail 0] }) = .fail 0 := by decide

theorem witness_SleepElapsesWhole : connected.Ready := by decide

theorem witness_WriteSendsWhole : connected.Ready ∧ connected.wrLocked = false ∧ connected.nextAnswer = .ok ∧
    State.nextAnswer { connected with answers := [.fail 0] } = .fail 0 := by decide

theorem witness_ReadFromLeftoverAlone : (holding [0xC0, 0xC0] []).Ready ∧
    (holding [0xC0, 0xC0] []).framingEnabled = true ∧
    (slipDecode (holding [0xC0, 0xC0] []).leftover).complete = true := by decide

theorem witness_UnreadableReturnsEmpty : State.Ready { connected with devReadable := false } ∧
    State.devReadable { connected with devReadable := false } = false ∧
    (slipDecode connected.leftover).complete = false ∧ connected.leftover = [] := by decide

/-- The gate opens on its exact length, after one chunk and after two; `min_length = 0` with one chunk. -/
theorem witness_ReadAccumulatesToTheGate : (holding [0xC0] [[0x01], [0x02]]).ReadsDevice ∧
    (holding [0xC0] [[0x01], [0x02]]).inbound = arrivalsOf ([(0, [0x01])] ++ [(0, [0x02])]) ++ [] ∧
    InTime 1 (holding [0xC0] [[0x01], [0x02]]).now ([(0, [0x01])] ++ [(0, [0x02])]) ∧
    ([0xC0] ++ bytesOf [(0, [0x01])]).length < 3 ∧ 3 ≤ ([0xC0] ++ bytesOf ([(0, [0x01])] ++ [(0, [0x02])])).length ∧
    (holding [] [[]]).ReadsDevice ∧ (holding [] [[]]).inbound = arrivalsOf ([] ++ [(0, [])]) ++ [] ∧
    0 ≤ (([] : Bytes) ++ bytesOf ([] ++ [(0, [])])).length := by decide

/-- The next chunk comes one ms after the timer. -/
theorem witness_ReadTimeoutKeepsBytes :
    State.ReadsDevice { connected with inbound := [⟨1049, .chunk [1]⟩, ⟨1051, .chunk [2]⟩] } ∧ (0 : Int) < 50 ∧
    [⟨1049, .chunk [1]⟩, ⟨1051, .chunk [2]⟩] = arrivalsOf [(1049, [1])] ++ [⟨1051, .chunk [2]⟩] ∧
    InTime 50 connected.now [(1049, [1])] ∧
    (∀ a : Arrival, [(⟨1051, .chunk [2]⟩ : Arrival)].head? = some a → connected.now + (50 : Int).toNat < a.time) ∧
    (([] : Bytes) ++ bytesOf [(1049, [1])]).length < 2 :=
  ⟨by decide, by decide, by decide, by decide, fun a h => by cases h; decide, by decide⟩

theorem witness_ReadFailureKeepsBytes :
    State.ReadsDevice { connected with inbound := [⟨0, .chunk [1]⟩, ⟨1049, .fail 5⟩] } ∧
    [⟨0, .chunk [1]⟩, ⟨1049, .fail 5⟩] = arrivalsOf [(0, [1])] ++ ⟨1049, .fail 5⟩ :: [] ∧
    InTime 50 connected.now ([(0, [1])] ++ [(1049, [])]) ∧ (([] : Bytes) ++ bytesOf [(0, [1])]).length < 2 := by
  decide

theorem witness_ReadWithoutTimerHangs : (holding [] [[0x01]]).ReadsDevice ∧ (0 : Int) ≤ 0 ∧
    (holding [] [[0x01]]).inbound = arrivalsOf [(0, [0x01])] ∧
    (([] : Bytes) ++ bytesOf [(0, [0x01])]).length < 2 := by decide

theorem witness_TimerAndChunkTogether :
    State.ReadsDevice { connected with inbound := [⟨1050, .chunk [1]⟩] } ∧ (0 : Int) < 50 ∧
    State.inbound { connected with inbound := [⟨1050, .chunk [1]⟩] } =
      arrivalsOf [] ++ ⟨connected.now + (50 : Int).toNat, .chunk [1]⟩ :: [] ∧ InTime 50 connected.now [] ∧
    1 ≤ (connected.leftover ++ bytesOf [] ++ [1]).length ∧ (connected.leftover ++ bytesOf [] ++ [1]).length < 2 ∧
    State.RawReadsDevice { connected with inbound := [⟨1050, .chunk [1]⟩] } ∧
    State.inbound { connected with inbound := [⟨1050, .chunk [1]⟩] } =
      ⟨connected.now + (50 : Int).toNat, .chunk [1]⟩ :: [] := by decide

/-- After a chunk that came one ms before the timer. -/
theorem witness_TimerAndChunkTogether_later :
    State.ReadsDevice { connected with inbound := [⟨1049, .chunk [1]⟩, ⟨1050, .chunk [2]⟩] } ∧
    State.inbound { connected with inbound := [⟨1049, .chunk [1]⟩, ⟨1050, .chunk [2]⟩] } =
      arrivalsOf [(1049, [1])] ++ ⟨connected.now + (50 : Int).toNat, .chunk [2]⟩ :: [] ∧
    InTime 50 connected.now [(1049, [1])] ∧ (connected.leftover ++ bytesOf [(1049, [1])]).length < 2 ∧
    2 ≤ (connected.leftover ++ bytesOf [(1049, [1])] ++ [2]).length := by decide

theorem witness_RawReadReturnsLeftoverOrChunk : (holding [1] []).Ready ∧ (holding [1] []).leftover ≠ [] ∧
    (holding [] [[2]]).RawReadsDevice ∧ (holding [] [[2]]).inbound = ⟨0, .chunk [2]⟩ :: [] ∧
    InTime 1 (holding [] [[2]]).now [(0, [2])] := by decide

theorem witness_RawReadErrors : State.RawReadsDevice { connected with inbound := [⟨1002, .chunk [1]⟩] } ∧
    (0 : Int) < 1 ∧
    (∀ a : Arrival, [(⟨1002, .chunk [1]⟩ : Arrival)].head? = some a → connected.now + (1 : Int).toNat < a.time) ∧
    State.RawReadsDevice { connected with inbound := [⟨1000, .fail 5⟩] } ∧ InTime 1 connected.now [(1000, [])] ∧
    connected.RawReadsDevice ∧ (0 : Int) ≤ 0 ∧ connected.inbound = [] :=
  ⟨by decide, by decide, fun a h => by cases h; decide, by decide, by decide, by decide, by decide, rfl⟩

theorem witness_UnansweredCallHangs : created.run = .idle ∧ connected.run = .idle ∧
    State.nextAnswer { connected with answers := [.never] } = .never ∧ created.life = .created ∧
    connected.life = .connected ∧ connected.wrLocked = false ∧ connected.rdLocked = false ∧ connected.Ready ∧
    State.nextAnswer { connected with answers := [.ok, .never] } = .ok ∧
    State.nextAnswer (State.dropAnswer { connected with answers := [.ok, .never] }) = .never := by decide

/-- The second request of the `R0` of `hard` never returns. -/
theorem witness_UnansweredCallHangs_program :
    programOf (.hard .transport false) = some (.transport, [.wait 100] ++ .setRTS false :: []) ∧
    State.ReadyFor { connected with answers := [.ok, .never] } .transport ∧
    State.AcceptsRun { connected with answers := [.ok, .never] } .transport [.wait 100] ∧
    (State.afterRun { connected with answers := [.ok, .never] } .transport [.wait 100]).NeverReturns .transport
      (.setRTS false) := ⟨rfl, by decide, by decide, .inr ⟨rfl, rfl⟩⟩

/-- The second call of a custom program, a delay, never returns on a foreign target. -/
theorem witness_UnansweredCallHangs_foreign :
    programOf (.customReset .foreign "D1|W5".toList) = some (.foreign, [.setDTR true] ++ .wait 5 :: []) ∧
    State.ReadyFor { created with targetAnswers := [.ok, .never] } .foreign ∧
    State.AcceptsRun { created with targetAnswers := [.ok, .never] } .foreign [.setDTR true] ∧
    (State.afterRun { created with targetAnswers := [.ok, .never] } .foreign [.setDTR true]).NeverReturns .foreign
      (.wait 5) := ⟨by decide, by decide, by decide, rfl⟩

theorem witness_UnansweredCallHangs_command : positiveCommand (.setDTR true) = true ∧
    State.run { running .transport "D1" with answers := [.never] } = .sequence ⟨.transport, "D1".toList, 3, true⟩ ∧
    State.life { running .transport "D1" with answers := [.never] } = .connected ∧
    State.NeverReturns { running .transport "D1" with answers := [.never] } .transport (.setDTR true) :=
  ⟨rfl, rfl, rfl, rfl⟩

theorem witness_SecondFrameFromLeftover : (holding [] [slipEncode [1] ++ slipEncode [2]]).ReadsDevice ∧
    (holding [] [slipEncode [1] ++ slipEncode [2]]).framingEnabled = true ∧
    (holding [] [slipEncode [1] ++ slipEncode [2]]).leftover = [] ∧
    (holding [] [slipEncode [1] ++ slipEncode [2]]).inbound = ⟨0, .chunk (slipEncode [1] ++ slipEncode [2])⟩ :: [] ∧
    InTime 50 1000 [(0, [])] ∧ 6 ≤ (slipEncode [1] ++ slipEncode [2]).length := by decide

/-- V-IO-03a: the chunk `C0 01 02`, and then the timer. -/
def timedOut : State :=
  { holding [0xC0, 0x01, 0x02] [] with
    now := 1050, devTrace := [.rx [0xC0, 0x01, 0x02], .cancel], results := [.error .timeoutError] }

theorem witness_TimedOutBytesRetrievable : (holding [] [[0xC0, 0x01, 0x02]]).ReadsDevice ∧
    exec (.read 50 12) (holding [] [[0xC0, 0x01, 0x02]]) = .next timedOut ∧
    timedOut.results = (holding [] [[0xC0, 0x01, 0x02]]).results ++ [.error .timeoutError] ∧
    timedOut.leftover ≠ [] := ⟨by decide, rfl, by decide, by decide⟩

theorem witness_CommandsRunInOrder : positiveCommand (.setRTS true) = true ∧
    (running .transport "R1").run = .sequence ⟨.transport, "R1".toList, 3, true⟩ ∧
    (running .transport "R1").life = .connected ∧ (running .transport "R1").AcceptsRun .transport [.setRTS true] ∧
    positiveCommand (.wait 1) = true ∧ (running .foreign "W1").AcceptsRun .foreign [.wait 1] := by decide

theorem witness_SeparatorPassedOver : (running .foreign "|D0").run = .sequence ⟨.foreign, "|D0".toList, 3, true⟩ := rfl

theorem witness_FailingCommandEndsTheRun :
    State.run { running .transport "D1" with answers := [.fail 0] } = .sequence ⟨.transport, "D1".toList, 3, true⟩ ∧
    State.life { running .transport "D1" with answers := [.fail 0] } = .connected ∧
    State.nextAnswer { running .transport "D1" with answers := [.fail 0] } = .fail 0 ∧
    State.nextAnswer { running .transport "R1" with answers := [.ok, .fail 0] } = .ok ∧
    State.nextAnswer (State.dropAnswer { running .transport "R1" with answers := [.ok, .fail 0] }) = .fail 0 ∧
    State.run { running .foreign "W5" with targetAnswers := [.fail 0] } = .sequence ⟨.foreign, "W5".toList, 3, true⟩ ∧
    State.nextTargetAnswer { running .foreign "W5" with targetAnswers := [.fail 0] } = .fail 0 ∧
    positiveCommand (.wait 5) = true := by decide

theorem witness_FixedProgramsComplete : connected.ReadyFor .transport ∧ created.ReadyFor .foreign ∧
    (some 1 : Option Nat) ≠ some 0 ∧ connected.AcceptsRun .transport (classicProgram ((some 1).getD 50)) ∧
    created.AcceptsRun .foreign usbJTAGSerialProgram ∧ connected.AcceptsRun .transport (hardProgram true) ∧
    connected.AcceptsRun .transport (hardProgram false) := by decide

theorem witness_ClassicDeviceTrace : connected.Ready ∧ connected.Accepts 7 := by decide

theorem witness_CustomResetRunsOrDoesNothing : connected.ReadyFor .transport ∧ validText "D1|W5|R0".toList = true ∧
    connected.AcceptsRun .transport (parseText "D1|W5|R0".toList) ∧ validText "Z9".toList = false := by decide

theorem witness_FixedProgramsAsText : (none : Option Nat) ≠ some 0 ∧ (some 1 : Option Nat) ≠ some 0 := by decide

theorem witness_SecondOperationRefused : usesTransport (.setFraming true) = true ∧
    (running .foreign "D0").run ≠ .idle := by decide

theorem witness_NotConnectedRefused : needsConnected (.hard .transport true) = true ∧ created.run = .idle ∧
    created.life ≠ .connected := by decide

theorem witness_ZeroResetDelayRefused : connected.ReadyFor .transport ∧ created.ReadyFor .foreign := by decide

/-- One step for each kind of field: none of the fields the clauses name is written by it. -/
theorem witness_AccessSummary : exec (.sleep 0) connected =
      .next { connected with devTrace := [.sleep 0], results := [.done] } ∧
    writesLeftover (.sleep 0) = false ∧ writesLatch (.sleep 0) = false ∧ Instr.sleep 0 ≠ .disconnect :=
  ⟨rfl, rfl, rfl, nofun⟩

theorem witness_BaudRateNeverRead : ∀ b, Instr.disconnect ≠ .connect b := nofun

theorem witness_ErrorsByOperation : exec .disconnect { connected with answers := [.fail 8] } =
    .next { connected with
      life := .closed, devOpen := Config.openAfterFailedClose 0, draws := 1, devTrace := [.close],
      results := connected.results ++ [.error (.deviceError 8)] } := rfl

/-- A connected, idle block is in a good state. -/
theorem connected_inv (answers : List Answer) (inputs : List Input) :
    State.Inv { connected with answers := answers, inputs := inputs } :=
  ⟨List.nil_suffix, rfl, rfl, nofun, rfl⟩

theorem witness_IdleAfterAnError : State.Inv { connected with answers := [.fail 8], inputs := [.invoke .disconnect] } ∧
    step { connected with answers := [.fail 8], inputs := [.invoke .disconnect] } = .next { connected with
      life := .closed, devOpen := Config.openAfterFailedClose 0, draws := 1, devTrace := [.close],
      results := connected.results ++ [.error (.deviceError 8)] } :=
  ⟨connected_inv _ _, rfl⟩

theorem witness_ClosedIsForever :
    step { connected with life := .closed } = .next { connected with life := .closed } := rfl

/-- A step that takes a chunk in the middle of a read, from a good state. -/
theorem witness_InvariantKept :
    State.Inv { connected with
      run := .reading ⟨[1], none, 3, false⟩, rdLocked := true, inbound := [⟨0, .chunk [2]⟩], devTrace := [.rx [1]] } ∧
    step { connected with
      run := .reading ⟨[1], none, 3, false⟩, rdLocked := true, inbound := [⟨0, .chunk [2]⟩], devTrace := [.rx [1]] } =
      .next { connected with
        run := .reading ⟨[1, 2], none, 3, false⟩, rdLocked := true, devTrace := [.rx [1], .rx [2]] } :=
  ⟨⟨List.suffix_rfl, rfl, rfl, nofun, rfl⟩, rfl⟩

theorem witness_GoodStatesNeverMisfetch : State.Inv { connected with inputs := [.invoke (.connect 1)] } ∧
    step { connected with inputs := [.invoke (.connect 1)] } = .refused (.wrongLifecycle .connected) :=
  ⟨connected_inv _ _, rfl⟩

theorem witness_StepRunsTheInstruction :
    (decoding ⟨[0xC0, 0xDB], 1, some 0, []⟩).codec = some ⟨[0xC0, 0xDB], 1, some 0, []⟩ ∧
    decodeInstr (.wire (([0xC0, 0xDB] : Bytes).drop 1)) = .ok (.loneEsc, .wire []) ∧
    (running .transport "D0").codec = none ∧ (running .transport "D0").Undisturbed ∧
    (running .transport "D0").run = .sequence ⟨.transport, "D0".toList, 3, true⟩ ∧
    decodeInstr (.chars "D0".toList) = .ok (.d0, .chars []) ∧ connected.codec = none ∧ connected.run = .idle ∧
    State.inputs { connected with inputs := [.invoke (.sleep 1)] } = .invoke (.sleep 1) :: [] ∧
    State.inputs { connected with inputs := [.invokeNow (.sleep 1)] } = .invokeNow (.sleep 1) :: [] ∧
    (Instr.sleep 1).isOp = true ∧ connected.inputs = [] :=
  ⟨rfl, rfl, rfl, nofun, rfl, rfl, rfl, rfl, rfl, rfl, rfl, rfl⟩

/-- The rest of the clauses: ends of a buffer and of a text, a read in progress, small steps, device inputs. -/
theorem witness_StepRunsTheInstruction_besides :
    (decoding ⟨[0xC0], 1, some 0, []⟩).codec = some ⟨[0xC0], 1, some 0, []⟩ ∧ ([0xC0] : Bytes).length ≤ 1 ∧
    (running .transport "").codec = none ∧ (running .transport "").Undisturbed ∧
    (running .transport "").run = .sequence ⟨.transport, [], 3, true⟩ ∧
    State.run { connected with run := .reading ⟨[], none, 1, true⟩ } = .reading ⟨[], none, 1, true⟩ ∧
    State.inputs { connected with inputs := [.invokeStepped (.sleep 1)] } = .invokeStepped (.sleep 1) :: [] ∧
    hasSmallSteps (.sleep 1) = false ∧
    State.inputs { connected with inputs := [.invokeStepped (.read 0 1)] } = .invokeStepped (.read 0 1) :: [] ∧
    State.inputs { connected with inputs := [.device (.readable false)] } = .device (.readable false) :: [] :=
  ⟨rfl, by decide, rfl, nofun, rfl, rfl, rfl, rfl, rfl, rfl⟩

theorem witness_SteppedDecodeAgrees : connected.codec = none := rfl

theorem witness_SteppedProgramsAgree : connected.ReadyFor .transport ∧ connected.codec = none ∧
    connected.Undisturbed ∧ validText "W1|D0".toList = true ∧ (none : Option Nat) ≠ some 0 :=
  ⟨by decide, rfl, nofun, by decide, nofun⟩

theorem witness_SteppedReadAgrees : connected.Ready ∧ connected.codec = none ∧ connected.Undisturbed ∧
    connected.rdLocked = false := ⟨by decide, rfl, nofun, rfl⟩

end Sys2Proof.Tests
end

