-- ==== Sys2Proof/Proofs/SlipCodec.lean ====
section
/-! PROOFS. The framer and the deframer as functions (R110 to R117): the length of a frame, where the deframer finds
one, and the round trip. -/

namespace Sys2Proof.Machine

/-! ### The framer -/

/-- R110: a frame is an END, the framed payload and an END. -/
theorem slipEncode_eq (p : Bytes) :
    slipEncode p = endMarker :: (p.flatMap (fun x => symbolBytes (symbolOf x)) ++ [endMarker]) := rfl

/-- R82: an END or an ESC takes two bytes, every other byte one. -/
theorem length_symbolBytes_symbolOf (x : Byte) :
    (symbolBytes (symbolOf x)).length = if x = endMarker ∨ x = escMarker then 2 else 1 := by
  rw [symbolBytes_symbolOf]
  by_cases hEnd : x = endMarker
  · rw [hEnd]; rfl
  · by_cases hEsc : x = escMarker
    · rw [hEsc]; rfl
    · simp [hEnd, hEsc]

/-- R111, without the two END bytes around the framed payload. -/
theorem length_framed (p : Bytes) :
    (p.flatMap (fun x => symbolBytes (symbolOf x))).length =
      p.length + p.countP (fun x => x = endMarker ∨ x = escMarker) := by
  induction p with
  | nil => rfl
  | cons x p ih =>
    rw [List.flatMap_cons, List.length_append, ih, length_symbolBytes_symbolOf, List.length_cons, List.countP_cons]
    by_cases h : x = endMarker ∨ x = escMarker
    · simp only [h, decide_true, if_true]; omega
    · simp only [h, decide_false, if_false, Bool.false_eq_true]; omega

theorem length_slipEncode (p : Bytes) :
    (slipEncode p).length = p.length + 2 + p.countP (fun x => x = endMarker ∨ x = escMarker) := by
  rw [slipEncode_eq, List.length_cons, List.length_append, length_framed, List.length_singleton]
  omega

/-! ### Unescaping what was framed -/

/-- R82, R114: the symbol of a payload byte unescapes to that byte, whatever follows it. -/
theorem unescape_symbolBytes_symbolOf_append (x : Byte) (I : Bytes) :
    unescape (symbolBytes (symbolOf x) ++ I) = x :: unescape I := by
  rw [symbolBytes_symbolOf]
  split_ifs with hEnd hEsc
  · rw [hEnd]; exact unescape_end_pair I
  · rw [hEsc]; exact unescape_esc_pair I
  · exact unescape_cons_of_ne hEsc I

theorem unescape_framed (p : Bytes) : unescape (p.flatMap (fun x => symbolBytes (symbolOf x))) = p := by
  induction p with
  | nil => rfl
  | cons x p ih => rw [List.flatMap_cons, unescape_symbolBytes_symbolOf_append, ih]

/-! ### The deframer -/

/-- R113, R117: the interior between the first two END bytes is the frame, and the remainder lies directly behind. -/
theorem slipDecode_between_ends {pre I : Bytes} (hpre : endMarker ∉ pre) (hI : endMarker ∉ I) (post : Bytes) :
    slipDecode (pre ++ endMarker :: (I ++ endMarker :: post)) = ⟨unescape I, post, true⟩ := by
  have behindStart : (pre ++ endMarker :: (I ++ endMarker :: post)).drop (pre.length + 1) = I ++ endMarker :: post := by
    simp
  have behindClose : (I ++ endMarker :: post).drop (I.length + 1) = post := by simp
  simp only [slipDecode, firstEnd_append hpre, behindStart, firstEnd_append hI, Nat.add_assoc _ I.length 1]
  rw [← List.drop_drop, behindStart, behindClose, List.take_left]

/-- R115: a frame needs two END bytes. -/
theorem slipDecode_of_count_le_one {b : Bytes} (h : b.count endMarker ≤ 1) : slipDecode b = ⟨[], b, false⟩ := by
  rcases slipDecode_cases b with incomplete | ⟨pre, I, post, rfl, -, -, -⟩
  · exact incomplete
  · simp only [List.count_append, List.count_cons_self] at h
    omega

/-- R116: the deframer finds the framer's payload at the front, and leaves what follows the frame. -/
theorem slipDecode_slipEncode_append (p rest : Bytes) : slipDecode (slipEncode p ++ rest) = ⟨p, rest, true⟩ := by
  have frame : slipEncode p ++ rest =
      [] ++ endMarker :: (p.flatMap (fun x => symbolBytes (symbolOf x)) ++ endMarker :: rest) := by
    simp [slipEncode_eq]
  rw [frame, slipDecode_between_ends List.not_mem_nil (endMarker_not_mem_framed p), unescape_framed]

/-! ### The statements -/

/-- Settles O6: the case of no following bytes is the general one with an empty suffix. -/
theorem frameRoundTrip : Obligations.FrameRoundTrip := fun B X =>
  ⟨slipDecode_slipEncode_append B X, by simpa using slipDecode_slipEncode_append B []⟩

/-- Settles O7: the bounds follow from the length law, as at most every byte is an END or an ESC. -/
theorem frameLength : Obligations.FrameLength := by
  intro p
  have law : (slipEncode p).length = p.length + 2 + p.countP (fun b => b = 0xC0 ∨ b = 0xDB) := length_slipEncode p
  have bound : p.countP (fun b => b = 0xC0 ∨ b = 0xDB) ≤ p.length := List.countP_le_length
  exact ⟨law, by omega, by omega⟩

/-- Settles O9, as a complete result shows two END bytes in the buffer. -/
theorem partialFrameUnchanged : Obligations.PartialFrameUnchanged := fun _ => slipDecode_of_count_le_one

/-- Settles O10: each END is the first one of what is searched for it. -/
theorem frameFoundBetweenEnds : Obligations.FrameFoundBetweenEnds := fun _ _ after hBefore hInterior =>
  slipDecode_between_ends hBefore hInterior after

end Sys2Proof.Machine
end

