-- ==== Sys2Proof/Proofs/CustomSequence.lean ====
section
/-! PROOFS. Validation of a custom sequence (R201 to R204): what one token decides, and which texts are valid. -/

namespace Sys2Proof.Machine

/-! ### Validation token by token -/

/-- R201, R202: the whole of a text without a separator is the token that is tested. -/
theorem validText_token {k : Text} (h : sepChar ∉ k) : validText k = validToken k := by
  rw [validText, splitText_token h, List.all_cons, List.all_nil, Bool.and_true]

/-- R201, R202: the token before the first separator and the text behind it are tested apart. -/
theorem validText_token_sep {k : Text} (h : sepChar ∉ k) (t : Text) :
    validText (k ++ sepChar :: t) = (validToken k && validText t) := by
  rw [validText, splitText_token_sep h, List.all_cons, validText]

theorem validToken_tokenText {c : Command} (h : positiveCommand c = true) : validToken (tokenText c) = true :=
  validToken_iff.2 ⟨c, parseToken_tokenText h⟩

theorem validToken_of_error {k : Text} {e : DecodeError} (h : parseToken k = .error e) : validToken k = false := by
  rw [validToken, h]

/-- R202: a text that is one token is invalid for the reason its token is. -/
theorem validText_of_token_error {k : Text} (hSep : sepChar ∉ k) {e : DecodeError} (h : parseToken k = .error e) :
    validText k = false := by
  rw [validText_token hSep, validToken_of_error h]

/-- R206: the text of a program of positive commands is valid. The empty program has the empty text, which is not. -/
theorem validText_programText {P : List Command} (hne : P ≠ []) (hpos : ∀ c ∈ P, positiveCommand c = true) :
    validText (programText P) = true := by
  induction P with
  | nil => exact absurd rfl hne
  | cons c cs ih =>
    obtain ⟨hc, hcs⟩ := List.forall_mem_cons.1 hpos
    cases cs with
    | nil => rw [programText, validText_token (sepChar_not_mem_tokenText c), validToken_tokenText hc]
    | cons d ds =>
      rw [programText, validText_token_sep (sepChar_not_mem_tokenText c), validToken_tokenText hc,
        ih (List.cons_ne_nil d ds) hcs, Bool.and_true]

/-! ### The statement -/

/-- Settles O14: the valid row is the text of the classic reset program, and each invalid row is one token, refused for
the reason R204 gives. -/
theorem validationTable : Obligations.ValidationTable := by
  have badLevel : parseToken "D2".toList = .error .badBoolArgument := rfl
  have zeroWait : parseToken "W0".toList = .error .zeroWait := rfl
  have negativeWait : parseToken "W-5".toList = .error .badWaitArgument := rfl
  have unknownLetter : parseToken "X1".toList = .error .badLetter := rfl
  have missingLevel : parseToken "R".toList = .error .badBoolArgument := rfl
  have classicText : "D0|R1|W100|D1|R0|W50|D0".toList = programText (classicProgram (resetDelayOf none)) := by decide
  refine ⟨?valid, validText_of_token_error (by decide) badLevel, validText_of_token_error (by decide) zeroWait,
    validText_of_token_error (by decide) negativeWait, validText_of_token_error (by decide) unknownLetter,
    validText_of_token_error (by decide) missingLevel⟩
  case valid =>
    rw [classicText]
    exact validText_programText (by decide) (by decide)

end Sys2Proof.Machine
end

