-- ==== Sys2Proof/Proofs/Encodings.lean ====
section
/-! PROOFS. The two encoded languages (R80 to R94): each row of a table decodes from its own code, and every byte
sequence begins with a symbol. -/

namespace Sys2Proof.Machine

/-! ### Tokens -/

/-- R91, R94: a token that parses is the row at the front of a text, when nothing or a separator stands behind it. -/
theorem decodeToken_append {k rest : Text} {c : Command} (hk : parseToken k = .ok c) (hsep : sepChar ∉ k)
    (hrest : rest = [] ∨ ∃ u, rest = sepChar :: u) : decodeToken (k ++ rest) = .ok (instrOfCommand c, rest) := by
  obtain ⟨x, xs, rfl⟩ := validToken_front (validToken_iff.2 ⟨c, hk⟩)
  obtain ⟨chars, after⟩ := tokenChars_append hsep hrest
  have hx : x ≠ sepChar := fun h => hsep (h ▸ List.mem_cons_self)
  rw [List.cons_append] at chars after ⊢
  simp only [decodeToken, hx, if_false, chars, hk, after]

theorem decodeToken_sep (rest : Text) : decodeToken (sepChar :: rest) = .ok (.sep, rest) := by
  rw [decodeToken, if_pos rfl]

/-- R91: the code of a command's row is the text of its token. -/
theorem encodeInstr_instrOfCommand (c : Command) : encodeInstr (instrOfCommand c) = some (.chars (tokenText c)) := by
  cases c with
  | setDTR b => cases b <;> rfl
  | setRTS b => cases b <;> rfl
  | wait n => rfl

/-- R91, R99: the rows of the token language are the separator and the rows of the reset commands. -/
theorem token_cases {i : Instr} (hf : i.format = .token) (hw : i.wf = true) :
    i = .sep ∨ ∃ c, positiveCommand c = true ∧ i = instrOfCommand c := by
  cases i <;> simp only [Instr.format, reduceCtorEq] at hf
  case d0 => exact .inr ⟨.setDTR false, rfl, rfl⟩
  case d1 => exact .inr ⟨.setDTR true, rfl, rfl⟩
  case r0 => exact .inr ⟨.setRTS false, rfl, rfl⟩
  case r1 => exact .inr ⟨.setRTS true, rfl, rfl⟩
  case w n => exact .inr ⟨.wait n, hw, rfl⟩
  case sep => exact .inl rfl

theorem decodeInstr_chars {t rest : Text} {i : Instr} (h : decodeToken t = .ok (i, rest)) :
    decodeInstr (.chars t) = .ok (i, .chars rest) := by
  rw [decodeInstr, h]

/-- Settles O5: a separator is one character, and any other row is a command whose token parses back. -/
theorem tokenEncodeDecode : Obligations.TokenEncodeDecode := by
  intro i rest hf hw hfollow
  rcases token_cases hf hw with rfl | ⟨c, hc, rfl⟩
  · exact ⟨[sepChar], rfl, decodeInstr_chars (decodeToken_sep rest)⟩
  · have hrest : rest = [] ∨ ∃ u, rest = sepChar :: u := by
      rcases hfollow with h | h | h
      · cases c with
        | setDTR b => cases b <;> cases h
        | setRTS b => cases b <;> cases h
        | wait n => cases h
      · exact .inl h
      · exact .inr (List.head?_eq_some_iff.1 h)
    exact ⟨tokenText c, encodeInstr_instrOfCommand c,
      decodeInstr_chars (decodeToken_append (parseToken_tokenText hc) (sepChar_not_mem_tokenText c) hrest)⟩

/-! ### Symbols -/

theorem decodeSymbol_end_pair (I : Bytes) : decodeSymbol (escMarker :: escEndCode :: I) = .ok (.escEndPair, I) := rfl

theorem decodeSymbol_esc_pair (I : Bytes) : decodeSymbol (escMarker :: escEscCode :: I) = .ok (.escEscPair, I) := rfl

/-- R83, R85: an ESC that no pair begins with is a symbol of its own. -/
theorem decodeSymbol_lone {I : Bytes} (hEnd : I.head? ≠ some escEndCode) (hEsc : I.head? ≠ some escEscCode) :
    decodeSymbol (escMarker :: I) = .ok (.loneEsc, I) := by
  have marker : escMarker ≠ endMarker := by decide
  cases I with
  | nil => rfl
  | cons c I =>
    simp only [List.head?_cons, ne_eq, Option.some.injEq] at hEnd hEsc
    simp only [decodeSymbol, marker, hEnd, hEsc, if_false, if_true]

theorem decodeSymbol_literal {b : Byte} (hEnd : b ≠ endMarker) (hEsc : b ≠ escMarker) (I : Bytes) :
    decodeSymbol (b :: I) = .ok (.literal b, I) := by
  simp only [decodeSymbol, hEnd, hEsc, if_false]

/-- R85 (f): only the empty sequence holds no symbol at its front. -/
theorem decodeSymbol_cons (b : Byte) (bs : Bytes) : ∃ i rest, decodeSymbol (b :: bs) = .ok (i, rest) := by
  by_cases hEnd : b = endMarker
  · exact ⟨_, _, hEnd ▸ decodeSymbol_end bs⟩
  by_cases hEsc : b = escMarker
  · subst hEsc
    by_cases hDC : bs.head? = some escEndCode
    · obtain ⟨I, rfl⟩ := List.head?_eq_some_iff.1 hDC
      exact ⟨_, _, decodeSymbol_end_pair I⟩
    by_cases hDD : bs.head? = some escEscCode
    · obtain ⟨I, rfl⟩ := List.head?_eq_some_iff.1 hDD
      exact ⟨_, _, decodeSymbol_esc_pair I⟩
    exact ⟨_, _, decodeSymbol_lone hDC hDD⟩
  · exact ⟨_, _, decodeSymbol_literal hEnd hEsc bs⟩

/-- R83: what is decoded is a well-formed row of the SLIP language. -/
theorem decodeSymbol_wf {b : Bytes} {i : Instr} {rest : Bytes} (h : decodeSymbol b = .ok (i, rest)) :
    i.format = .slip ∧ i.wf = true := by
  rcases decodeSymbol_kind h with rfl | ⟨-, rfl | rfl | rfl | ⟨x, rfl, hEnd, hEsc⟩⟩
  · exact ⟨rfl, rfl⟩
  · exact ⟨rfl, rfl⟩
  · exact ⟨rfl, rfl⟩
  · exact ⟨rfl, rfl⟩
  · exact ⟨rfl, Bool.and_eq_true_iff.2 ⟨bne_iff_ne.2 hEnd, bne_iff_ne.2 hEsc⟩⟩

/-- R83: a literal is no END and no ESC. -/
theorem literal_wf {b : Byte} (h : (Instr.literal b).wf = true) : b ≠ endMarker ∧ b ≠ escMarker := by
  obtain ⟨hEnd, hEsc⟩ := Bool.and_eq_true_iff.1 h
  exact ⟨bne_iff_ne.1 hEnd, bne_iff_ne.1 hEsc⟩

/-- Settles O2, each row by the decoder's and the unescaper's own law for it. -/
theorem symbolTable : Obligations.SymbolTable :=
  ⟨fun I => ⟨decodeSymbol_end_pair I, unescape_end_pair I⟩,
    fun I => ⟨decodeSymbol_esc_pair I, unescape_esc_pair I⟩,
    fun _ hDC hDD => ⟨decodeSymbol_lone hDC hDD, unescape_lone hDC hDD⟩,
    fun _ I hEnd hEsc => ⟨decodeSymbol_literal hEnd hEsc I, unescape_cons_of_ne hEsc I⟩⟩

theorem decodeInstr_wire {b rest : Bytes} {i : Instr} (h : decodeSymbol b = .ok (i, rest)) :
    decodeInstr (.wire b) = .ok (i, .wire rest) := by
  rw [decodeInstr, h]

/-- Settles O3, row by row; only a lone ESC looks at what follows it. -/
theorem symbolEncodeDecode : Obligations.SymbolEncodeDecode := by
  intro i rest hf hw hlone
  cases i <;> simp only [Instr.format, reduceCtorEq] at hf
  case slipEnd => exact ⟨rfl, decodeInstr_wire (decodeSymbol_end rest)⟩
  case escEndPair => exact ⟨rfl, decodeInstr_wire (decodeSymbol_end_pair rest)⟩
  case escEscPair => exact ⟨rfl, decodeInstr_wire (decodeSymbol_esc_pair rest)⟩
  case literal b => exact ⟨rfl, decodeInstr_wire (decodeSymbol_literal (literal_wf hw).1 (literal_wf hw).2 rest)⟩
  case loneEsc => exact ⟨rfl, decodeInstr_wire (decodeSymbol_lone (hlone rfl).1 (hlone rfl).2)⟩

/-- Settles O4: a symbol stands at the front, and the decoder drops none of its bytes. -/
theorem symbolDecodeEncode : Obligations.SymbolDecodeEncode := by
  intro b bs
  obtain ⟨i, rest, h⟩ := decodeSymbol_cons b bs
  obtain ⟨hf, hw⟩ := decodeSymbol_wf h
  exact ⟨i, rest, h, hf, hw, (decodeSymbol_consumes h).1.symm⟩

/-! ### Sample words -/

/-- Settles O1: twelve closed words of the table. -/
theorem sampleWordsDecode : Obligations.SampleWordsDecode := by
  unfold Obligations.SampleWordsDecode
  decide

end Sys2Proof.Machine
end

