-- ==== Sys2Proof/Proofs/Sequences.lean ====
section
/-! PROOFS. Splitting and parsing a custom sequence (R201, R202, R206), and a program written as a text (R97, R98). -/

namespace Sys2Proof.Machine

/-! ### Splitting -/

theorem length_splitText (t : Text) : (splitText t).length = t.count sepChar + 1 := by
  induction t with
  | nil => rfl
  | cons c t ih =>
    by_cases h : c = sepChar
    · subst h
      rw [splitText_sep, List.length_cons, ih, List.count_cons_self]
    · obtain ⟨k, ks, hs⟩ := List.exists_cons_of_ne_nil (splitText_ne_nil t)
      rw [splitText_cons h hs, List.count_cons_of_ne h, ← ih, hs]
      rfl

theorem sepChar_not_mem_of_mem_splitText {t k : Text} (hk : k ∈ splitText t) : sepChar ∉ k := by
  induction t generalizing k with
  | nil => rw [List.mem_singleton.1 hk]; exact List.not_mem_nil
  | cons c t ih =>
    by_cases h : c = sepChar
    · subst h
      rw [splitText_sep] at hk
      rcases List.mem_cons.1 hk with rfl | hk
      · exact List.not_mem_nil
      · exact ih hk
    · obtain ⟨k', ks, hs⟩ := List.exists_cons_of_ne_nil (splitText_ne_nil t)
      rw [splitText_cons h hs] at hk
      rcases List.mem_cons.1 hk with rfl | hk
      · exact List.not_mem_cons_of_ne_of_not_mem (Ne.symm h) (ih (hs ▸ List.mem_cons_self))
      · exact ih (hs ▸ List.mem_cons_of_mem k' hk)

theorem intercalate_splitText (t : Text) : List.intercalate [sepChar] (splitText t) = t := by
  induction t with
  | nil => rfl
  | cons c t ih =>
    obtain ⟨k, ks, hs⟩ := List.exists_cons_of_ne_nil (splitText_ne_nil t)
    by_cases h : c = sepChar
    · subst h
      rw [splitText_sep, hs, List.intercalate_cons_cons, ← hs, ih]
      rfl
    · rw [splitText_cons h hs]
      rw [hs] at ih
      cases ks with
      | nil =>
        rw [List.intercalate_singleton] at ih ⊢
        rw [ih]
      | cons k' ks =>
        rw [List.intercalate_cons_cons] at ih ⊢
        rw [← ih]
        rfl

/-- Settles O15. -/
theorem splitCutsAtSeparators : Obligations.SplitCutsAtSeparators := fun t =>
  ⟨length_splitText t, fun _ => sepChar_not_mem_of_mem_splitText, intercalate_splitText t⟩

/-! ### Parsing -/

theorem commandOf_eq_some {k : Text} {c : Command} : commandOf k = some c ↔ parseToken k = .ok c := by
  unfold commandOf
  cases parseToken k <;> simp

/-- R206: valid tokens are parsed to one command each. -/
theorem length_filterMap_commandOf {ks : List Text} (h : ks.all validToken = true) :
    (ks.filterMap commandOf).length = ks.length := by
  induction ks with
  | nil => rfl
  | cons k ks ih =>
    rw [List.all_cons, Bool.and_eq_true] at h
    obtain ⟨hk, hks⟩ := h
    obtain ⟨c, hc⟩ := validToken_iff.1 hk
    rw [List.filterMap_cons_some (commandOf_eq_some.2 hc), List.length_cons, ih hks, List.length_cons]

theorem positive_of_mem_parseText {t : Text} {c : Command} (h : c ∈ parseText t) : positiveCommand c = true := by
  obtain ⟨k, -, hk⟩ := List.mem_filterMap.1 h
  exact positive_of_parseToken (commandOf_eq_some.1 hk)

/-- Settles O16: the operation reads nothing, and each valid token is one reset command. -/
theorem validationIsPure : Obligations.ValidationIsPure := fun _ _ =>
  ⟨rfl, fun h => ⟨length_filterMap_commandOf h, fun _ => positive_of_mem_parseText⟩⟩

theorem parseText_token {k : Text} {c : Command} (hsep : sepChar ∉ k) (hk : parseToken k = .ok c) :
    parseText k = [c] := by
  rw [parseText, splitText_token hsep, List.filterMap_cons_some (commandOf_eq_some.2 hk), List.filterMap_nil]

theorem parseText_token_sep {k : Text} {c : Command} (hsep : sepChar ∉ k) (hk : parseToken k = .ok c) (t : Text) :
    parseText (k ++ sepChar :: t) = c :: parseText t := by
  rw [parseText, splitText_token_sep hsep, List.filterMap_cons_some (commandOf_eq_some.2 hk), parseText]

/-- R206: a program of positive commands is what its text parses to. -/
theorem parseText_programText {P : List Command} (hne : P ≠ []) (hpos : ∀ c ∈ P, positiveCommand c = true) :
    parseText (programText P) = P := by
  induction P with
  | nil => exact absurd rfl hne
  | cons c cs ih =>
    obtain ⟨hc, hcs⟩ := List.forall_mem_cons.1 hpos
    cases cs with
    | nil => exact parseText_token (sepChar_not_mem_tokenText c) (parseToken_tokenText hc)
    | cons d ds =>
      rw [programText, parseText_token_sep (sepChar_not_mem_tokenText c) (parseToken_tokenText hc),
        ih (List.cons_ne_nil d ds) hcs]

/-- Settles O17. -/
theorem programTextParses : Obligations.ProgramTextParses := fun _ hne hpos =>
  ⟨validText_programText hne hpos, parseText_programText hne hpos⟩

/-- Settles O18: four closed texts. -/
theorem fixedProgramStrings : Obligations.FixedProgramStrings := by
  unfold Obligations.FixedProgramStrings
  decide

end Sys2Proof.Machine
end

