-- ==== Sys2Proof/Proofs/Stepping.lean ====
section
/-! PROOFS. Where the steps from a state lead, whatever their number. -/

namespace Sys2Proof.Machine

/-- Some number of steps from `s` ends in `o`. -/
def State.LeadsTo (s : State) (o : Out) : Prop := ∃ n, Host.Core.run Sys2Proof.core n s = o

theorem State.LeadsTo.here (s : State) : s.LeadsTo (.next s) := ⟨0, run_zero s⟩

theorem State.LeadsTo.last {s : State} {o : Out} (h : step s = o) : s.LeadsTo o := ⟨1, (run_one s).trans h⟩

theorem State.LeadsTo.step {s u : State} {o : Out} (h : step s = .next u) (k : u.LeadsTo o) : s.LeadsTo o := by
  obtain ⟨n, hn⟩ := k
  exact ⟨n + 1, (run_succ_next h n).trans hn⟩

end Sys2Proof.Machine
end

