-- ==== Sys2Proof/Proofs/Decoding.lean ====
section
/-! PROOFS. The operations of SlipCodec, and a `decode` in progress: what its symbols do and where its steps lead
(R83, R84, R112 to R114). -/

namespace Sys2Proof.Machine

/-! ### The framer and the operations -/

/-- Settles O8: the symbols are those of the payload's bytes. -/
theorem frameShape : Obligations.FrameShape := by
  intro p
  have bytes : (p.map symbolOf).flatMap symbolBytes = p.flatMap (fun x => symbolBytes (symbolOf x)) :=
    List.flatMap_map ..
  refine ⟨p.map symbolOf, by rw [bytes]; exact slipEncode_eq p, by rw [bytes]; exact endMarker_not_mem_framed p, ?_⟩
  intro i hi
  obtain ⟨x, -, rfl⟩ := List.mem_map.1 hi
  rw [symbolBytes_symbolOf]
  split_ifs with hEnd hEsc
  · exact .inl rfl
  · exact .inr (.inl rfl)
  · exact .inr (.inr ⟨x, rfl, hEnd, hEsc⟩)

/-- Settles O11: both operations give their result and touch nothing else. -/
theorem codecOperationsArePure : Obligations.CodecOperationsArePure := fun _ _ => ⟨rfl, rfl⟩

/-! ### Symbols of a decode in progress -/

/-- R83: a symbol that is no END advances by its bytes and stands for its payload. -/
theorem exec_symbol {s : State} {d : DeframeRun} {i : Instr} (hd : s.codec = some d) (hf : i.format = .slip)
    (hw : i.wf = true) (hi : i ≠ .slipEnd) :
    exec i s = passSymbol (symbolBytes i).length (symbolPayload i) d s := by
  cases i <;> simp only [Instr.format, reduceCtorEq] at hf
  case slipEnd => exact absurd rfl hi
  case escEndPair => simp only [exec, execEscEndPair, hd]; rfl
  case escEscPair => simp only [exec, execEscEscPair, hd]; rfl
  case literal b =>
    have legal : ¬ (b = endMarker ∨ b = escMarker) := not_or.2 (literal_wf hw)
    simp only [exec, execLiteral, legal, if_false, hd]
    rfl
  case loneEsc => simp only [exec, execLoneEsc, hd]; rfl

/-- Log 24: a symbol without a `decode` to stand in. -/
theorem exec_symbol_noDecode {s : State} {i : Instr} (hs : s.codec = none) (hf : i.format = .slip)
    (hw : i.wf = true) : exec i s = .refused .noDecodeRunning := by
  cases i <;> simp only [Instr.format, reduceCtorEq] at hf
  case slipEnd => simp only [exec, execSlipEnd, hs]
  case escEndPair => simp only [exec, execEscEndPair, hs]
  case escEscPair => simp only [exec, execEscEscPair, hs]
  case literal b =>
    have legal : ¬ (b = endMarker ∨ b = escMarker) := not_or.2 (literal_wf hw)
    simp only [exec, execLiteral, legal, if_false, hs]
  case loneEsc => simp only [exec, execLoneEsc, hs]

/-- R83: a literal of an END or an ESC is no symbol. -/
theorem exec_symbol_illFormed {i : Instr} (hf : i.format = .slip) (hw : i.wf = false) (s : State) :
    exec i s = .refused .illFormed := by
  cases i <;> simp only [Instr.format, reduceCtorEq] at hf
  case literal b =>
    have illegal : b = endMarker ∨ b = escMarker :=
      (Bool.and_eq_false_iff.1 hw).imp bne_eq_false_iff_eq.1 bne_eq_false_iff_eq.1
    simp only [exec, execLiteral, illegal, if_true]
  all_goals cases hw

theorem exec_slipEnd {s : State} {d : DeframeRun} (hd : s.codec = some d) : exec .slipEnd s = meetEnd d s := by
  simp only [exec, execSlipEnd, hd]

/-- R84: before the START a symbol is passed over. -/
theorem passSymbol_before {d : DeframeRun} (h : d.start = none) (n : Nat) (p : Bytes) (s : State) :
    passSymbol n p d s = .next { s with codec := some { d with pos := d.pos + n } } := by
  simp only [passSymbol, h]

/-- R83: inside a frame a symbol produces its payload. -/
theorem passSymbol_inside {d : DeframeRun} {k : Nat} (h : d.start = some k) (n : Nat) (p : Bytes) (s : State) :
    passSymbol n p d s = .next { s with codec := some { d with pos := d.pos + n, out := d.out ++ p } } := by
  simp only [passSymbol, h]

theorem meetEnd_before {d : DeframeRun} (h : d.start = none) (s : State) :
    meetEnd d s = .next { s with codec := some { d with pos := d.pos + 1, start := some d.pos } } := by
  simp only [meetEnd, h]

theorem meetEnd_inside {d : DeframeRun} {k : Nat} (h : d.start = some k) (s : State) :
    meetEnd d s = .next ({ s with codec := none }.give (.frame ⟨d.out, d.buffer.drop (d.pos + 1), true⟩)) := by
  simp only [meetEnd, h]

/-- Settles O12, before the START and inside a frame. -/
theorem symbolsStepTheDecode : Obligations.SymbolsStepTheDecode := by
  intro d s i hd hf hw hi
  rw [exec_symbol hd hf hw hi]
  exact ⟨fun h => passSymbol_before h _ _ s, fun _ h => passSymbol_inside h _ _ s⟩

/-- Settles O13, for the START and for the closing END. -/
theorem endOpensAndClosesTheFrame : Obligations.EndOpensAndClosesTheFrame := by
  intro d s hd
  rw [exec_slipEnd hd]
  exact ⟨fun h => meetEnd_before h s, fun _ h => meetEnd_inside h s⟩

/-! ### Steps in a row -/

/-- From every state, the `decode` in progress `d` ends by handing over `f`, and nothing else has changed. -/
def DeframeRun.EndsIn (d : DeframeRun) (f : Frame) : Prop :=
  ∀ s : State, State.LeadsTo { s with codec := some d } (.next ({ s with codec := none }.give (.frame f)))

/-- What `d` has not looked at yet. -/
def DeframeRun.ahead (d : DeframeRun) : Bytes := d.buffer.drop d.pos

/-- `d` behind the next `n` bytes, with the payload bytes `p` produced if it is inside a frame. -/
def DeframeRun.pass (d : DeframeRun) (n : Nat) (p : Bytes) : DeframeRun :=
  { d with pos := d.pos + n, out := if d.start = none then d.out else d.out ++ p }

/-- What lies ahead behind a first part of it. -/
theorem drop_of_ahead_eq {d : DeframeRun} {a b : Bytes} (h : d.ahead = a ++ b) :
    d.buffer.drop (d.pos + a.length) = b := by
  have front : d.buffer.drop d.pos = a ++ b := h
  rw [← List.drop_drop, front, List.drop_left]

/-- R83, R84: both of these at once. -/
theorem passSymbol_eq (d : DeframeRun) (n : Nat) (p : Bytes) (s : State) :
    passSymbol n p d s = .next { s with codec := some (d.pass n p) } := by
  cases hs : d.start with
  | none => rw [passSymbol_before hs]; simp only [DeframeRun.pass, hs, if_true]
  | some k => rw [passSymbol_inside hs]; simp only [DeframeRun.pass, hs, reduceCtorEq, if_false]

/-- R83: a symbol that is no END is passed, before the START and inside a frame. -/
theorem endsIn_symbol {d : DeframeRun} {i : Instr} {rest : Bytes} {f : Frame}
    (hi : decodeSymbol d.ahead = .ok (i, rest)) (hne : i ≠ .slipEnd)
    (h : (d.pass (symbolBytes i).length (symbolPayload i)).EndsIn f) : d.EndsIn f := by
  obtain ⟨hf, hw⟩ := decodeSymbol_wf hi
  refine fun s => .step ?_ (h s)
  rw [step_symbol rfl hi, exec_symbol rfl hf hw hne, passSymbol_eq]

/-- R113: an END ahead and no START yet. -/
theorem endsIn_start {d : DeframeRun} {rest : Bytes} {f : Frame} (hs : d.start = none)
    (hd : d.ahead = endMarker :: rest) (h : DeframeRun.EndsIn { d with pos := d.pos + 1, start := some d.pos } f) :
    d.EndsIn f := fun s =>
  .step (by rw [step_symbol rfl (hd ▸ decodeSymbol_end rest), exec_slipEnd rfl, meetEnd_before hs]) (h s)

/-- R113, R117: an END ahead inside a frame. -/
theorem endsIn_close {d : DeframeRun} {k : Nat} {rest : Bytes} (hs : d.start = some k)
    (hd : d.ahead = endMarker :: rest) : d.EndsIn ⟨d.out, rest, true⟩ := fun s => .last <| by
  have behind : d.buffer.drop (d.pos + 1) = rest := drop_of_ahead_eq (a := [endMarker]) hd
  rw [step_symbol rfl (hd ▸ decodeSymbol_end rest), exec_slipEnd rfl, meetEnd_inside hs, behind]

/-- R113: nothing ahead. -/
theorem endsIn_endOfBuffer {d : DeframeRun} (h : d.ahead = []) : d.EndsIn ⟨[], d.buffer, false⟩ := fun _ =>
  .last (step_endOfBuffer rfl h)

/-- A symbol at the front of bytes that hold no END, whether or not an END follows them: it is one of those bytes'
own. -/
theorem decodeSymbol_front {I post : Bytes} (hI : endMarker ∉ I) (hne : I ≠ [])
    (hpost : post = [] ∨ post.head? = some endMarker) :
    ∃ i J, decodeSymbol (I ++ post) = .ok (i, J ++ post) ∧ I = symbolBytes i ++ J ∧ symbolBytes i ≠ [] ∧
      i ≠ .slipEnd ∧ unescape I = symbolPayload i ++ unescape J := by
  obtain ⟨b, I, rfl⟩ := List.exists_cons_of_ne_nil hne
  have hEnd : b ≠ endMarker := fun h => hI (h ▸ List.mem_cons_self)
  by_cases hEsc : b = escMarker
  · subst hEsc
    by_cases hDC : I.head? = some escEndCode
    · obtain ⟨J, rfl⟩ := List.head?_eq_some_iff.1 hDC
      exact ⟨.escEndPair, J, decodeSymbol_end_pair _, rfl, nofun, nofun, unescape_end_pair J⟩
    by_cases hDD : I.head? = some escEscCode
    · obtain ⟨J, rfl⟩ := List.head?_eq_some_iff.1 hDD
      exact ⟨.escEscPair, J, decodeSymbol_esc_pair _, rfl, nofun, nofun, unescape_esc_pair J⟩
    have noPair : ∀ c, c ≠ endMarker → I.head? ≠ some c → (I ++ post).head? ≠ some c := by
      intro c hc hIc
      cases I with
      | cons y I => exact hIc
      | nil => rcases hpost with rfl | h <;> simp_all [eq_comm]
    exact ⟨.loneEsc, I, decodeSymbol_lone (noPair _ (by decide) hDC) (noPair _ (by decide) hDD), rfl, nofun, nofun,
      unescape_lone hDC hDD⟩
  · exact ⟨.literal b, I, decodeSymbol_literal hEnd hEsc _, rfl, nofun, nofun, unescape_cons_of_ne hEsc I⟩

/-- Bytes without an END ahead are passed, symbol by symbol. -/
theorem endsIn_pass {post : Bytes} (hpost : post = [] ∨ post.head? = some endMarker) {f : Frame} :
    ∀ {I : Bytes} {d : DeframeRun}, d.ahead = I ++ post → endMarker ∉ I →
      (d.pass I.length (unescape I)).EndsIn f → d.EndsIn f := by
  intro I
  induction h : I.length using Nat.strong_induction_on generalizing I with
  | _ n ih =>
    subst h
    intro d hd hI hend
    by_cases hne : I = []
    · subst hne
      have same : d.pass 0 (unescape []) = d := by simp [DeframeRun.pass, unescape]
      exact same ▸ hend
    obtain ⟨i, J, hi, rfl, hlen, hneEnd, hun⟩ := decodeSymbol_front hI hne hpost
    refine endsIn_symbol (hd ▸ hi) hneEnd (ih J.length ?_ rfl ?_ (fun h => hI (List.mem_append_right _ h)) ?_)
    · have := List.length_pos_of_ne_nil hlen
      rw [List.length_append]
      omega
    · exact drop_of_ahead_eq (hd.trans (List.append_assoc ..))
    · have together : (d.pass (symbolBytes i).length (symbolPayload i)).pass J.length (unescape J) =
          d.pass (symbolBytes i ++ J).length (unescape (symbolBytes i ++ J)) := by
        rw [hun]
        simp only [DeframeRun.pass, List.length_append, Nat.add_assoc]
        split_ifs <;> simp
      exact together ▸ hend

/-- R113: without an END ahead the `decode` is incomplete. -/
theorem endsIn_incomplete {d : DeframeRun} (h : endMarker ∉ d.ahead) : d.EndsIn ⟨[], d.buffer, false⟩ :=
  endsIn_pass (.inl rfl) (List.append_nil _).symm h
    (endsIn_endOfBuffer (drop_of_ahead_eq (List.append_nil _).symm))

/-- R113, R114: the next END ahead closes the frame. -/
theorem endsIn_frame {d : DeframeRun} {k : Nat} {I post : Bytes} (hs : d.start = some k)
    (hd : d.ahead = I ++ endMarker :: post) (hI : endMarker ∉ I) :
    d.EndsIn ⟨d.out ++ unescape I, post, true⟩ := by
  have out : (d.pass I.length (unescape I)).out = d.out ++ unescape I := by
    simp only [DeframeRun.pass, hs, reduceCtorEq, if_false]
  exact endsIn_pass (.inr rfl) hd hI (out ▸ endsIn_close hs (drop_of_ahead_eq hd))

/-- R113, R84: the next END ahead is the START. -/
theorem endsIn_afterStart {d : DeframeRun} {pre post : Bytes} {f : Frame} (hs : d.start = none)
    (hd : d.ahead = pre ++ endMarker :: post) (hpre : endMarker ∉ pre)
    (h : DeframeRun.EndsIn { d with pos := d.pos + pre.length + 1, start := some (d.pos + pre.length) } f) :
    d.EndsIn f := by
  refine endsIn_pass (.inr rfl) hd hpre (endsIn_start hs (drop_of_ahead_eq hd) ?_)
  simpa only [DeframeRun.pass, hs, if_true] using h

/-- R113: a stepped `decode` ends in the frame that the deframer gives. -/
theorem endsIn_slipDecode (buffer : Bytes) : DeframeRun.EndsIn ⟨buffer, 0, none, []⟩ (slipDecode buffer) := by
  by_cases h₁ : endMarker ∈ buffer
  · obtain ⟨pre, post, rfl, hpre⟩ := List.eq_append_cons_of_mem h₁
    refine endsIn_afterStart rfl rfl hpre ?_
    have behind : (pre ++ endMarker :: post).drop (0 + pre.length + 1) = post := by simp
    by_cases h₂ : endMarker ∈ post
    · obtain ⟨I, post, rfl, hI⟩ := List.eq_append_cons_of_mem h₂
      rw [slipDecode_between_ends hpre hI]
      exact endsIn_frame rfl behind hI
    · have one : (pre ++ endMarker :: post).count endMarker ≤ 1 := by
        simp [List.count_eq_zero.2 hpre, List.count_eq_zero.2 h₂]
      rw [slipDecode_of_count_le_one one]
      exact endsIn_incomplete (d := ⟨_, _, some _, []⟩) (fun h => h₂ (behind ▸ h))
  · rw [slipDecode_of_count_le_one (by simp [List.count_eq_zero.2 h₁])]
    exact endsIn_incomplete h₁

/-- Settles O58: the stepped `decode` hands over the frame that the operation hands over. -/
theorem steppedDecodeAgrees : Obligations.SteppedDecodeAgrees := by
  intro buffer s hs
  obtain ⟨n, hn⟩ := endsIn_slipDecode buffer s
  have idle : { s with codec := none } = s := by rw [← hs]
  exact ⟨n, _, rfl, hn.trans (congrArg (fun t => execDecode buffer t) idle)⟩

end Sys2Proof.Machine
end

