-- ==== Sys2Proof/Proofs/Control.lean ====
section
/-! PROOFS. Lifecycle, control lines, delay, `setFraming` and `write` (R26, R131 to R139, R150): what each call of the
device does by how the device answers it, and each operation's next state. -/

namespace Sys2Proof.Machine

/-! ### Ends of an operation that runs whole -/

theorem deliver_ok {u : State} (h : u.run = .idle) :
    (Call.ok u).deliver = .next { u with results := u.results ++ [.done] } :=
  congrArg Host.Outcome.next (finish_idle h .done)

theorem deliver_raised {u : State} (e : ErrorKind) (h : u.run = .idle) :
    (Call.raised e u).deliver = .next { u with results := u.results ++ [.error e] } :=
  congrArg Host.Outcome.next (finish_idle h (.error e))

@[simp] theorem andThen_ok (s : State) (k : State → Call) : (Call.ok s).andThen k = k s := rfl

@[simp] theorem andThen_raised (e : ErrorKind) (s : State) (k : State → Call) :
    (Call.raised e s).andThen k = .raised e s := rfl

@[simp] theorem andThen_stuck (f : Fault) (k : State → Call) : (Call.stuck f).andThen k = .stuck f := rfl

/-! ### Calls on the control lines, by the device's answer -/

theorem devSignal_ok {s : State} (h : s.nextAnswer = .ok) (l : Line) (v : Bool) :
    devSignal l v s = .ok ((s.log (.sig l v)).dropAnswer.setLine l v) := by
  rw [devSignal, h]

theorem devSignal_fail {s : State} {c : Cause} (h : s.nextAnswer = .fail c) (l : Line) (v : Bool) :
    devSignal l v s = .raised (.deviceError c)
      (((s.log (.sig l v)).dropAnswer.setLine l (Config.levelAfterFail s.draws)).draw) := by
  rw [devSignal, h]

theorem devSignal_never {s : State} (h : s.nextAnswer = .never) (l : Line) (v : Bool) :
    devSignal l v s = .stuck .signalHangs := by
  rw [devSignal, h]

section
variable {s : State} (b : Bool)

/-- R136: the latch is written before the request is made. -/
theorem setDTRCall_ok (h : s.nextAnswer = .ok) : setDTRCall b s = .ok { s with
    dtrState := b, dtrLine := b, answers := s.answers.tail, devTrace := s.devTrace ++ [.sig .dtr b] } :=
  devSignal_ok (s := { s with dtrState := b }) h .dtr b

theorem setDTRCall_fail {c : Cause} (h : s.nextAnswer = .fail c) :
    setDTRCall b s = .raised (.deviceError c) { s with
      dtrState := b, dtrLine := Config.levelAfterFail s.draws, draws := s.draws + 1, answers := s.answers.tail,
      devTrace := s.devTrace ++ [.sig .dtr b] } :=
  devSignal_fail (s := { s with dtrState := b }) h .dtr b

theorem setDTRCall_never (h : s.nextAnswer = .never) : setDTRCall b s = .stuck .signalHangs :=
  devSignal_never (s := { s with dtrState := b }) h .dtr b

/-- R137: between the two requests of a `setRTS` whose first one has succeeded. -/
def State.rtsRequested (s : State) (b : Bool) : State :=
  { s with rtsLine := b, answers := s.answers.tail, devTrace := s.devTrace ++ [.sig .rts b] }

/-- R137: when the RTS request succeeds, the DTR request with the latch is what is left of the call. -/
theorem setRTSCall_first_ok (h : s.nextAnswer = .ok) :
    setRTSCall b s = devSignal .dtr s.dtrState (s.rtsRequested b) := by
  rw [setRTSCall, devSignal_ok h]
  rfl

theorem setRTSCall_ok (h : s.nextAnswer = .ok) (k : s.dropAnswer.nextAnswer = .ok) : setRTSCall b s = .ok { s with
    rtsLine := b, dtrLine := s.dtrState, answers := s.answers.tail.tail,
    devTrace := s.devTrace ++ [.sig .rts b, .sig .dtr s.dtrState] } := by
  rw [setRTSCall_first_ok b h, devSignal_ok (s := s.rtsRequested b) k]
  simp [State.rtsRequested, State.log, State.dropAnswer, State.setLine]

theorem setRTSCall_first_fail {c : Cause} (h : s.nextAnswer = .fail c) :
    setRTSCall b s = .raised (.deviceError c) { s with
      rtsLine := Config.levelAfterFail s.draws, draws := s.draws + 1, answers := s.answers.tail,
      devTrace := s.devTrace ++ [.sig .rts b] } := by
  rw [setRTSCall, devSignal_fail h]
  rfl

theorem setRTSCall_second_fail {c : Cause} (h : s.nextAnswer = .ok) (k : s.dropAnswer.nextAnswer = .fail c) :
    setRTSCall b s = .raised (.deviceError c) { s with
      rtsLine := b, dtrLine := Config.levelAfterFail s.draws, draws := s.draws + 1, answers := s.answers.tail.tail,
      devTrace := s.devTrace ++ [.sig .rts b, .sig .dtr s.dtrState] } := by
  rw [setRTSCall_first_ok b h, devSignal_fail (s := s.rtsRequested b) k]
  simp [State.rtsRequested, State.log, State.dropAnswer, State.setLine, State.draw]

theorem setRTSCall_first_never (h : s.nextAnswer = .never) : setRTSCall b s = .stuck .signalHangs := by
  rw [setRTSCall, devSignal_never h]
  rfl

theorem setRTSCall_second_never (h : s.nextAnswer = .ok) (k : s.dropAnswer.nextAnswer = .never) :
    setRTSCall b s = .stuck .signalHangs := by
  rw [setRTSCall_first_ok b h, devSignal_never (s := s.rtsRequested b) k]

end

/-! ### The calls of `connect`, `disconnect` and `write`, by the device's answer -/

section
variable {s : State}

theorem devOpenCall_ok (h : s.nextAnswer = .ok) (baud : Nat) : devOpenCall baud s = .ok { s with
    devOpen := true, answers := s.answers.tail, devTrace := s.devTrace ++ [.open baud] } := by
  rw [devOpenCall, h]
  rfl

theorem devOpenCall_fail {c : Cause} (h : s.nextAnswer = .fail c) (baud : Nat) :
    devOpenCall baud s = .raised .deviceOpenError { s with
      answers := s.answers.tail, devTrace := s.devTrace ++ [.open baud] } := by
  rw [devOpenCall, h]
  rfl

theorem devOpenCall_never (h : s.nextAnswer = .never) (baud : Nat) : devOpenCall baud s = .stuck .openHangs := by
  rw [devOpenCall, h]

theorem devCloseCall_ok (h : s.nextAnswer = .ok) : devCloseCall s = .ok { s with
    devOpen := false, answers := s.answers.tail, devTrace := s.devTrace ++ [.close] } := by
  rw [devCloseCall, h]
  rfl

theorem devCloseCall_fail {c : Cause} (h : s.nextAnswer = .fail c) :
    devCloseCall s = .raised (.deviceError c) { s with
      devOpen := Config.openAfterFailedClose s.draws, draws := s.draws + 1, answers := s.answers.tail,
      devTrace := s.devTrace ++ [.close] } := by
  rw [devCloseCall, h]
  rfl

theorem devCloseCall_never (h : s.nextAnswer = .never) : devCloseCall s = .stuck .closeHangs := by
  rw [devCloseCall, h]

theorem devWriteLocked_ok (h : s.nextAnswer = .ok) (b : Bytes) : devWriteLocked b s = .ok { s with
    wrLocked := false, answers := s.answers.tail, outbound := s.outbound ++ b,
    devTrace := s.devTrace ++ [.tx b] } := by
  rw [devWriteLocked, h]
  rfl

theorem devWriteLocked_fail {c : Cause} (h : s.nextAnswer = .fail c) (b : Bytes) :
    devWriteLocked b s = .raised (.deviceError c) { s with
      wrLocked := false, answers := s.answers.tail, outbound := s.outbound ++ b,
      devTrace := s.devTrace ++ [.tx b] } := by
  rw [devWriteLocked, h]
  rfl

theorem devWriteLocked_never (h : s.nextAnswer = .never) (b : Bytes) : devWriteLocked b s = .stuck .writeHangs := by
  rw [devWriteLocked, h]

end

/-! ### Operations whose requirements are met -/

theorem exec_setDTR {s : State} (hs : s.Ready) (b : Bool) : exec (.setDTR b) s = (setDTRCall b s).deliver :=
  whenReady hs _

theorem exec_setRTS {s : State} (hs : s.Ready) (b : Bool) : exec (.setRTS b) s = (setRTSCall b s).deliver :=
  whenReady hs _

theorem exec_sleep {s : State} (hs : s.Ready) (ms : Nat) : exec (.sleep ms) s = (sleepCall ms s).deliver :=
  whenReady hs _

/-- R131: `connect` in `Created`. -/
theorem exec_connect {s : State} (hi : s.run = .idle) (hl : s.life = .created) (baud : Nat) :
    exec (.connect baud) s = ((devOpenCall baud s).andThen (fun t => .ok (t.nowConnected baud))).deliver :=
  (whenIdle_idle hi _).trans (whenCreated_created hl _)

/-- R63, R150: `write` with the write lock free. -/
theorem exec_write {s : State} (hs : s.Ready) (hw : s.wrLocked = false) (p : Bytes) :
    exec (.write p) s = (devWriteLocked (wireBytes p s) { s with wrLocked := true }).deliver := by
  show s.whenIdle (s.whenConnected (s.withWriteLock _)) = _
  rw [whenReady hs, State.withWriteLock, hw]
  rfl

/-- R133: `disconnect` with both locks free. -/
theorem exec_disconnect_free {s : State} (hs : s.Ready) (h : s.anyLocked = false) :
    exec .disconnect s = (devCloseCall { s with life := .closed }).deliver := by
  show s.whenIdle (s.whenConnected _) = _
  rw [whenReady hs, h]
  rfl

/-- R133: `disconnect` with a lock held. -/
theorem exec_disconnect_locked {s : State} (hs : s.Ready) (h : s.anyLocked = true) :
    exec .disconnect s = .next { s with life := .closed, run := .closing } := by
  show s.whenIdle (s.whenConnected _) = _
  rw [whenReady hs, h]
  rfl

theorem anyLocked_eq_false {s : State} (hr : s.rdLocked = false) (hw : s.wrLocked = false) : s.anyLocked = false := by
  rw [State.anyLocked, hr, hw]
  rfl

/-- R133: while a lock is held the poll goes on, and each round takes its interval. -/
theorem run_closing (n : Nat) : ∀ {s : State}, s.run = .closing → s.codec = none → s.Undisturbed →
    s.anyLocked = true → Host.Core.run Sys2Proof.core n s = .next { s with now := s.now + n * Config.pollMs } := by
  induction n with
  | zero => intro s _ _ _ _; rw [run_zero]; simp
  | succ n ih =>
    intro s hr hc hu hl
    have poll : step s = .next (s.tick Config.pollMs) := by rw [step_closing hc hu hr, pollStep, hl]; rfl
    have time : s.now + Config.pollMs + n * Config.pollMs = s.now + (n + 1) * Config.pollMs := by
      rw [Nat.succ_mul]; omega
    exact (run_succ_next poll n).trans ((ih (s := s.tick Config.pollMs) hr hc hu hl).trans (by rw [← time]; rfl))

/-! ### The statements -/

/-- Settles O19, by how the device answers the open. -/
theorem connectOpensOnce : Obligations.ConnectOpensOnce := by
  intro baud s hi
  refine ⟨fun hl h => ?ok, fun c hl h => ?fail, fun hl => ?refused⟩
  case ok =>
    rw [exec_connect hi hl, devOpenCall_ok h]
    exact deliver_ok hi
  case fail =>
    rw [exec_connect hi hl, devOpenCall_fail h, andThen_raised]
    exact deliver_raised _ hi
  case refused => exact (whenIdle_idle hi _).trans (whenCreated_other hl _)

/-- Settles O20: both ends find the lifecycle `Closed`; whether the device is open after a failed close is free. -/
theorem disconnectCloses : Obligations.DisconnectCloses := by
  intro s hs hr hw
  rw [exec_disconnect_free hs (anyLocked_eq_false hr hw)]
  refine ⟨fun h => ?ok, fun c h => ⟨Config.openAfterFailedClose s.draws, s.draws + 1, ?fail⟩⟩
  case ok =>
    rw [devCloseCall_ok (s := { s with life := .closed }) h]
    exact deliver_ok hs.1
  case fail =>
    rw [devCloseCall_fail (s := { s with life := .closed }) h]
    exact deliver_raised _ hs.1

/-- Settles O21, by induction on the number of rounds of the poll. -/
theorem disconnectPollsWhileLocked : Obligations.DisconnectPollsWhileLocked := by
  intro s n hs hc hu hlock
  have locked : s.anyLocked = true := Bool.or_eq_true_iff.2 hlock
  exact ⟨exec_disconnect_locked hs locked, run_closing n rfl hc hu locked⟩

/-- Settles O22, by lifecycle and by whether an operation is in progress. -/
theorem setFramingWritesOneField : Obligations.SetFramingWritesOneField := by
  intro b s
  refine ⟨fun hi hl => ?_, fun hi hl => ?_, fun hi => whenIdle_busy hi _⟩
  · show s.whenIdle (s.whenNotClosed _) = _
    rw [whenIdle_idle hi, whenNotClosed_open hl]
    exact deliver_ok hi
  · exact (whenIdle_idle hi _).trans (whenNotClosed_closed hl _)

/-- Settles O23: the latch is written before the device answers. -/
theorem setDTRLatchesFirst : Obligations.SetDTRLatchesFirst := by
  intro b s hs
  rw [exec_setDTR hs]
  refine ⟨fun h => ?_, fun c h => ⟨Config.levelAfterFail s.draws, s.draws + 1, ?_⟩⟩
  · rw [setDTRCall_ok b h]; exact deliver_ok hs.1
  · rw [setDTRCall_fail b h]; exact deliver_raised _ hs.1

/-- Settles O24: both requests succeed, or the first, or the second is rejected. -/
theorem setRTSReissuesDTR : Obligations.SetRTSReissuesDTR := by
  intro b s hs
  rw [exec_setRTS hs]
  refine ⟨fun h k => ?_, fun c h => ⟨Config.levelAfterFail s.draws, s.draws + 1, ?_⟩,
    fun c h k => ⟨Config.levelAfterFail s.draws, s.draws + 1, ?_⟩⟩
  · rw [setRTSCall_ok b h k]; exact deliver_ok hs.1
  · rw [setRTSCall_first_fail b h]; exact deliver_raised _ hs.1
  · rw [setRTSCall_second_fail b h k]; exact deliver_raised _ hs.1

/-- Settles O25: the device is not asked. -/
theorem sleepElapsesWhole : Obligations.SleepElapsesWhole := by
  intro ms s hs
  rw [exec_sleep hs]
  exact deliver_ok hs.1

/-- Settles O26: the lock taken for the call is released on success and on failure. -/
theorem writeSendsWhole : Obligations.WriteSendsWhole := by
  intro p s hs hw
  rw [exec_write hs hw]
  refine ⟨fun h => ?ok, fun c h => ?fail⟩
  case ok =>
    rw [devWriteLocked_ok (s := { s with wrLocked := true }) h, ← hw]
    exact deliver_ok hs.1
  case fail =>
    rw [devWriteLocked_fail (s := { s with wrLocked := true }) h, ← hw]
    exact deliver_raised _ hs.1

end Sys2Proof.Machine
end

