-- ==== Sys2Proof/Proofs/Unread.lean ====
section
/-! PROOFS. The control lines, the delay and the reset commands read and write neither the operation in progress nor the
baud rate (R23, R28): changed before a call or after it, they are the same. -/

namespace Sys2Proof.Machine

/-- Other values of the two fields that no call of a reset program looks at. -/
def State.replace (g : Run → Run) (f : Nat → Nat) (s : State) : State :=
  { s with run := g s.run, baudRate := f s.baudRate }

/-- The call with its final state changed. -/
def Call.map (f : State → State) : Call → Call
  | .ok s => .ok (f s)
  | .raised e s => .raised e (f s)
  | .stuck x => .stuck x

theorem map_andThen {f : State → State} {k k' : State → Call} (h : ∀ s, k' (f s) = (k s).map f) (c : Call) :
    (c.map f).andThen k' = (c.andThen k).map f := by
  cases c with
  | ok s => exact h s
  | raised e s => rfl
  | stuck x => rfl

section
variable (g : Run → Run) (f : Nat → Nat)

theorem devSignal_replace (l : Line) (v : Bool) (s : State) :
    devSignal l v (s.replace g f) = (devSignal l v s).map (State.replace g f) := by
  have answer : (s.replace g f).nextAnswer = s.nextAnswer := rfl
  cases h : s.nextAnswer with
  | ok => rw [devSignal_ok h, devSignal_ok (answer.trans h)]; cases l <;> rfl
  | fail c => rw [devSignal_fail h, devSignal_fail (answer.trans h)]; cases l <;> rfl
  | never => rw [devSignal_never h, devSignal_never (answer.trans h)]; rfl

theorem setDTRCall_replace (b : Bool) (s : State) :
    setDTRCall b (s.replace g f) = (setDTRCall b s).map (State.replace g f) :=
  devSignal_replace g f .dtr b { s with dtrState := b }

theorem setRTSCall_replace (b : Bool) (s : State) :
    setRTSCall b (s.replace g f) = (setRTSCall b s).map (State.replace g f) := by
  rw [setRTSCall, devSignal_replace]
  exact map_andThen (fun t => devSignal_replace g f .dtr t.dtrState t) _

theorem foreignCall_replace (c : Command) (s : State) :
    foreignCall c (s.replace g f) = (foreignCall c s).map (State.replace g f) := by
  have answer : (s.replace g f).nextTargetAnswer = s.nextTargetAnswer := rfl
  unfold foreignCall
  rw [answer]
  cases s.nextTargetAnswer with
  | ok => cases c <;> rfl
  | fail cause => rfl
  | never => rfl

theorem runCommand_replace (t : Target) (c : Command) (s : State) :
    runCommand t c (s.replace g f) = (runCommand t c s).map (State.replace g f) := by
  cases t with
  | transport =>
    cases c with
    | setDTR b => exact setDTRCall_replace g f b (s.logCap _)
    | setRTS b => exact setRTSCall_replace g f b (s.logCap _)
    | wait n => rfl
  | foreign => exact foreignCall_replace g f c (s.logCap c)

theorem runProgram_replace (t : Target) (P : List Command) (s : State) :
    runProgram t P (s.replace g f) = (runProgram t P s).map (State.replace g f) := by
  induction P generalizing s with
  | nil => rfl
  | cons c P ih =>
    rw [runProgram, runCommand_replace]
    exact map_andThen ih _

end

end Sys2Proof.Machine
end

