-- ==== Sys2Proof/Proofs/Programs.lean ====
section
/-! PROOFS. Reset programs (R181 to R187, R205, R228): a program run whole, its commands one by one, and a program run
token by token. -/

namespace Sys2Proof.Machine

/-! ### A program run whole -/

/-- R228: how the failures of a program are reported: as `CustomSequenceError` if it is a custom one. -/
def Call.reported (wraps : Bool) (c : Call) : Call := if wraps then c.wrapErrors else c

theorem reported_ok (w : Bool) (s : State) : (Call.ok s).reported w = .ok s := by cases w <;> rfl

theorem reported_stuck (w : Bool) (x : Fault) : (Call.stuck x).reported w = .stuck x := by cases w <;> rfl

theorem reported_raised (w : Bool) (e : ErrorKind) (s : State) :
    (Call.raised e s).reported w = .raised (if w then .customSequenceError else e) s := by cases w <;> rfl

/-- R205, R227: whether the failures of a reset program are re-signalled. -/
def isCustom : Instr → Bool
  | .customReset _ _ => true
  | _ => false

theorem resetDelayOf_eq (d : Option Nat) : resetDelayOf d = d.getD 50 := by cases d <;> rfl

theorem resetDelayOf_ne_zero {d : Option Nat} (h : d ≠ some 0) : resetDelayOf d ≠ 0 := by
  cases d with
  | none => decide
  | some n => exact fun e => h (congrArg some e)

theorem whenDelayPositive_pos {d : Nat} (h : d ≠ 0) (k : Out) : whenDelayPositive d k = k := by
  cases d with
  | zero => exact absurd rfl h
  | succ d => rfl

/-- R185 to R187, R205: what a reset program does where its requirements are met. -/
theorem exec_program {i : Instr} {t : Target} {P : List Command} (hi : programOf i = some (t, P)) {s : State}
    (hs : s.ReadyFor t) : exec i s = ((runProgram t P s).reported (isCustom i)).deliver := by
  cases i <;> simp only [programOf, Option.ite_none_left_eq_some, Option.ite_none_right_eq_some, Option.some.injEq,
    Prod.mk.injEq, reduceCtorEq] at hi
  case classic t' d =>
    obtain ⟨hd, rfl, rfl⟩ := hi
    rw [← resetDelayOf_eq]
    exact (whenReadyFor hs _).trans (whenDelayPositive_pos (resetDelayOf_ne_zero hd) _)
  case usbJTAGSerial t' =>
    obtain ⟨rfl, rfl⟩ := hi
    exact whenReadyFor hs _
  case hard t' otg =>
    obtain ⟨rfl, rfl⟩ := hi
    exact whenReadyFor hs _
  case customReset t' text =>
    obtain ⟨hv, rfl, rfl⟩ := hi
    exact (whenReadyFor hs _).trans (if_pos hv)

/-- R184: a program on a target that accepts every call. -/
theorem exec_program_accepted {i : Instr} {t : Target} {P : List Command} (hi : programOf i = some (t, P)) {s : State}
    (hs : s.ReadyFor t) (ha : s.AcceptsRun t P) : exec i s = .next (s.afterRun t P) := by
  rw [exec_program hi hs, runProgram_accepted ha, reported_ok]
  exact congrArg Host.Outcome.next (finish_inRun hs.1 t P)

theorem programOf_classic (t : Target) {d : Option Nat} (h : d ≠ some 0) :
    programOf (.classic t d) = some (t, classicProgram (d.getD 50)) := if_neg h

theorem programOf_customReset (t : Target) {text : Text} (h : validText text = true) :
    programOf (.customReset t text) = some (t, parseText text) := if_pos h

/-- Settles O42: the accepted run of each fixed program. -/
theorem fixedProgramsComplete : Obligations.FixedProgramsComplete := fun t _ hs =>
  ⟨fun _ hd ha => exec_program_accepted (programOf_classic t hd) hs ha,
    fun ha => exec_program_accepted rfl hs ha,
    fun _ ha => exec_program_accepted rfl hs ha⟩

/-- Settles O43: the accepted run of `classic`, with the requests of its commands written out. -/
theorem classicDeviceTrace : Obligations.ClassicDeviceTrace := by
  intro s hs ha
  have accepts : s.AcceptsRun .transport (classicProgram 50) := ⟨fun _ => ha, nofun⟩
  have program : programOf (.classic .transport none) = some (.transport, classicProgram 50) := rfl
  exact ⟨_, exec_program_accepted program ⟨hs.1, fun _ => hs.2⟩ accepts, rfl, rfl, rfl⟩

/-- Settles O44: a valid text is a program, and an invalid one is not run at all. -/
theorem customResetRunsOrDoesNothing : Obligations.CustomResetRunsOrDoesNothing := by
  intro t text s hs
  refine ⟨fun hv ha => exec_program_accepted (programOf_customReset t hv) hs ha, fun hv => ?_⟩
  have ends : exec (.customReset t text) s = .next (s.finish .done) :=
    (whenReadyFor hs _).trans (if_neg (by rw [hv]; exact Bool.false_ne_true))
  rw [ends, finish_idle hs.1]

/-- Settles O48: the refusal of the delay comes behind the other requirements, which are met. -/
theorem zeroResetDelayRefused : Obligations.ZeroResetDelayRefused := fun _ _ hs => whenReadyFor hs _

/-! ### Fixed programs as texts -/

theorem classicProgram_positive {n : Nat} (h : n ≠ 0) : ∀ c ∈ classicProgram n, positiveCommand c = true := by
  simp [classicProgram, positiveCommand, h]

theorem usbJTAGSerialProgram_positive : ∀ c ∈ usbJTAGSerialProgram, positiveCommand c = true := by decide

theorem hardProgram_positive (otg : Bool) : ∀ c ∈ hardProgram otg, positiveCommand c = true := by
  cases otg <;> decide

theorem hardProgram_ne_nil (otg : Bool) : hardProgram otg ≠ [] := by cases otg <;> decide

/-- R184: a program hands over nothing itself. -/
theorem runProgram_results {t : Target} {P : List Command} {s u : State} (h : (runProgram t P s).final = some u) :
    u.results = s.results := by
  rw [(runProgram_controlOnly h).same]

/-- R227, R228: wrapping the errors of a program is wrapping the error that is handed over. -/
theorem deliver_wrapErrors (t : Target) (P : List Command) (s : State) :
    (runProgram t P s).wrapErrors.deliver = withWrappedError s.results (runProgram t P s).deliver := by
  have kept := fun u => runProgram_results (t := t) (P := P) (s := s) (u := u)
  generalize runProgram t P s = c at kept
  cases c with
  | ok u =>
    have given : (u.finish .done).results.drop s.results.length = [.done] := by simp [kept u rfl]
    simp only [Call.wrapErrors, Call.deliver, withWrappedError, given]
  | raised e u =>
    have given : (u.raise e).results.drop s.results.length = [.error e] := by simp [kept u rfl]
    simp only [Call.wrapErrors, Call.deliver, withWrappedError, given]
    rw [← kept u rfl]
    rfl
  | stuck x => rfl

/-- R25, R61: a requirement that is not met refuses both forms alike. -/
theorem withWrappedError_whenReadyFor (s : State) (t : Target) (k : Out) :
    withWrappedError s.results (s.whenIdle (s.whenTarget t k)) =
      s.whenIdle (s.whenTarget t (withWrappedError s.results k)) := by
  by_cases hi : s.run = .idle
  · rw [whenIdle_idle hi, whenIdle_idle hi]
    cases t with
    | foreign => rfl
    | transport =>
      by_cases hl : s.life = .connected
      · rw [whenTarget_ready fun _ => hl, whenTarget_ready fun _ => hl]
      · show withWrappedError s.results (s.whenConnected k) = s.whenConnected _
        rw [whenConnected_other hl, whenConnected_other hl]
        rfl
  · rw [whenIdle_busy hi, whenIdle_busy hi]
    rfl

/-- R98: `customReset` with the text of a program of positive commands. -/
theorem exec_customReset_programText {P : List Command} (hne : P ≠ []) (hpos : ∀ c ∈ P, positiveCommand c = true)
    (t : Target) (s : State) : exec (.customReset t (programText P)) s =
      withWrappedError s.results (s.whenIdle (s.whenTarget t (runProgram t P s).deliver)) := by
  rw [withWrappedError_whenReadyFor, ← deliver_wrapErrors]
  show s.whenIdle (s.whenTarget t (if validText (programText P) then _ else _)) = _
  rw [if_pos (validText_programText hne hpos), parseText_programText hne hpos]

/-- Settles O45: the text of a fixed program parses to it, so both run the same calls. -/
theorem fixedProgramsAsText : Obligations.FixedProgramsAsText := by
  intro t s
  refine ⟨fun d hd => ?classic, ?usb, fun otg => ?hard⟩
  case classic =>
    have hd := resetDelayOf_ne_zero hd
    rw [← resetDelayOf_eq, exec_customReset_programText (P := classicProgram _) nofun (classicProgram_positive hd)]
    show _ = withWrappedError s.results (s.whenIdle (s.whenTarget t (whenDelayPositive _ _)))
    rw [whenDelayPositive_pos hd]
  case usb => exact exec_customReset_programText (List.cons_ne_nil _ _) usbJTAGSerialProgram_positive t s
  case hard => exact exec_customReset_programText (hardProgram_ne_nil otg) (hardProgram_positive otg) t s

/-! ### The commands of a program in progress -/

/-- R184, R228: a command of a program in progress is one call on its target. -/
theorem exec_command {c : Command} {q : SeqRun} {s : State} (hc : positiveCommand c = true) (hr : s.run = .sequence q)
    (hl : q.target = .transport → s.life = .connected) :
    exec (instrOfCommand c) s = afterCommand q (runCommand q.target c s) := by
  rw [exec_instrOfCommand hc, stepCommand_sequence hr, whenTarget_ready hl]

/-- Settles O39: the accepted command, and the position behind its token. -/
theorem commandsRunInOrder : Obligations.CommandsRunInOrder := by
  intro c q s hc hr hl ha
  rw [exec_command hc hr hl, runCommand_accepted ha]
  rfl

/-- Settles O40: no call is made. -/
theorem separatorPassedOver : Obligations.SeparatorPassedOver := by
  intro q s hr
  simp only [exec, execSep, hr]

/-- R228: a command that raises ends the run. -/
theorem exec_command_raised {c : Command} {q : SeqRun} {s u : State} {cause : Cause} (hc : positiveCommand c = true)
    (hr : s.run = .sequence q) (hl : q.target = .transport → s.life = .connected)
    (h : runCommand q.target c s = .raised (.deviceError cause) u) :
    exec (instrOfCommand c) s =
      .next { u with run := .idle, results := u.results ++ [.error (runError q.wraps cause)] } := by
  rw [exec_command hc hr hl, h]
  rfl

theorem foreignCall_fail {s : State} {c : Cause} (h : s.nextTargetAnswer = .fail c) (k : Command) :
    foreignCall k s = .raised (.deviceError c) s.dropTargetAnswer := by
  simp only [foreignCall, h]

/-- Settles O41, by the request that is rejected and by the target. -/
theorem failingCommandEndsTheRun : Obligations.FailingCommandEndsTheRun := by
  intro c q s hr
  refine ⟨fun ht hl b => ?transport, fun ht h k hk => ?foreign⟩
  case transport =>
    have connected : q.target = .transport → s.life = .connected := fun _ => hl
    refine ⟨fun h => ⟨Config.levelAfterFail s.draws, s.draws + 1, ?dtr⟩,
      fun h => ⟨Config.levelAfterFail s.draws, s.draws + 1, ?rts⟩,
      fun h k => ⟨Config.levelAfterFail s.draws, s.draws + 1, ?both⟩⟩
    case dtr =>
      exact exec_command_raised (c := .setDTR b) rfl hr connected
        (by rw [ht]; exact setDTRCall_fail (s := s.logCap _) b h)
    case rts =>
      exact exec_command_raised (c := .setRTS b) rfl hr connected
        (by rw [ht]; exact setRTSCall_first_fail (s := s.logCap _) b h)
    case both =>
      exact exec_command_raised (c := .setRTS b) rfl hr connected
        (by rw [ht]; exact setRTSCall_second_fail (s := s.logCap _) b h k)
  case foreign =>
    exact exec_command_raised hk hr (by rw [ht]; nofun) (by rw [ht]; exact foreignCall_fail (s := s.logCap k) h k)

end Sys2Proof.Machine
end

