-- ==== Sys2Proof/Proofs/SteppedPrograms.lean ====
section
/-! PROOFS. A reset program run token by token (R30, R184, R201) ends as the whole program ends. -/

namespace Sys2Proof.Machine

/-! ### The token at the front of a valid text -/

/-- R202, R203: a valid text begins with the token of a reset command. -/
theorem validText_decodes {text : Text} (h : validText text = true) : ∃ c, positiveCommand c = true ∧
    decodeToken text = .ok (instrOfCommand c, afterToken text) ∧
    ((afterToken text = [] ∧ parseText text = [c]) ∨
      ∃ u, afterToken text = sepChar :: u ∧ validText u = true ∧ parseText text = c :: parseText u) := by
  obtain ⟨c, hc, hrest⟩ := validText_front h
  have decoded := decodeToken_append hc (sepChar_not_mem_tokenChars text) (afterToken_cases text)
  rw [tokenChars_append_afterToken] at decoded
  exact ⟨c, positive_of_parseToken hc, decoded, hrest⟩

theorem length_afterToken_le (text : Text) : (afterToken text).length ≤ text.length :=
  List.length_dropWhile_le _ text

/-! ### From token to token -/

/-- `s` with a program in progress against `t`, of which `text` is left. -/
def State.sequencing (s : State) (t : Target) (text : Text) (rpc : Nat) (wraps : Bool) : State :=
  { s with run := .sequence ⟨t, text, rpc, wraps⟩ }

/-- Nothing but the program in progress is done next. -/
structure State.Steady (s : State) (t : Target) : Prop where
  ready : s.ReadyFor t
  noDecode : s.codec = none
  undisturbed : s.Undisturbed

theorem ControlOnly.steady {s u : State} {t : Target} (h : ControlOnly s u) (hs : s.Steady t) : u.Steady t := by
  obtain ⟨⟨hr, hl⟩, hc, hu⟩ := hs
  rw [h.same]
  exact ⟨⟨hr, hl⟩, hc, hu⟩

/-- R184: a step at the token of a command makes its one call; the text behind it is left. -/
theorem step_command {s : State} {t : Target} (hs : s.Steady t) {text : Text} {c : Command}
    (hc : positiveCommand c = true) (hd : decodeToken text = .ok (instrOfCommand c, afterToken text)) (rpc : Nat)
    (w : Bool) : step (s.sequencing t text rpc w) = afterCommand ⟨t, text, rpc, w⟩ (runCommand t c s) := by
  have call : step (s.sequencing t text rpc w) = afterCommand ⟨t, text, rpc, w⟩
      (runCommand t c (s.replace (fun _ => .sequence ⟨t, text, rpc, w⟩) id)) :=
    (step_token (s := s.sequencing t text rpc w) hs.noDecode hs.undisturbed rfl hd).trans
      (exec_command hc rfl hs.ready.2)
  rw [call, runCommand_replace]
  cases runCommand t c s <;> rfl

/-- R201: a step at a separator passes over it. -/
theorem step_separator {s : State} {t : Target} (hs : s.Steady t) (text : Text) (rpc : Nat) (w : Bool) :
    step (s.sequencing t (sepChar :: text) rpc w) = .next (s.sequencing t text rpc w) :=
  (step_token (s := s.sequencing t (sepChar :: text) rpc w) hs.noDecode hs.undisturbed rfl
    (decodeToken_sep text)).trans (separatorPassedOver ⟨t, sepChar :: text, rpc, w⟩ _ rfl)

/-- R184: a step at the end of the text ends the run. -/
theorem step_sequencing_nil {s : State} {t : Target} (hs : s.Steady t) (rpc : Nat) (w : Bool) :
    step (s.sequencing t [] rpc w) = .next (s.finish .done) :=
  step_endOfText (s := s.sequencing t [] rpc w) hs.noDecode hs.undisturbed rfl rfl

/-- R184: a valid text in progress ends as the program that it parses to. -/
theorem sequencing_leadsTo {t : Target} (w : Bool) {text : Text} (hv : validText text = true) {s : State}
    (hs : s.Steady t) (rpc : Nat) :
    (s.sequencing t text rpc w).LeadsTo ((runProgram t (parseText text) s).reported w).deliver := by
  induction h : text.length using Nat.strong_induction_on generalizing text s rpc with
  | _ n ih =>
    obtain ⟨c, hc, hd, hrest⟩ := validText_decodes hv
    have front : ∃ P, parseText text = c :: P := by
      rcases hrest with ⟨-, hP⟩ | ⟨u, -, -, hP⟩
      exacts [⟨_, hP⟩, ⟨_, hP⟩]
    have hstep := step_command hs hc hd rpc w
    cases hcall : runCommand t c s with rw [hcall] at hstep
    | stuck f =>
      obtain ⟨P, hP⟩ := front
      rw [hP, runProgram, hcall, andThen_stuck, reported_stuck]
      exact .last hstep
    | raised e u =>
      obtain ⟨P, hP⟩ := front
      rw [hP, runProgram, hcall, andThen_raised, reported_raised]
      exact .last hstep
    | ok u =>
      have hu : u.Steady t := (runCommand_controlOnly (by rw [hcall]; rfl)).steady hs
      refine State.LeadsTo.step (u := u.sequencing t (afterToken text) (rpc + 1) w) hstep ?_
      rcases hrest with ⟨ha, hP⟩ | ⟨text', ha, hv', hP⟩ <;> rw [hP, runProgram, hcall, andThen_ok, ha]
      · have ended : (runProgram t [] u).reported w = .ok u := reported_ok w u
        rw [ended]
        exact .last (step_sequencing_nil hu _ w)
      · have shorter : text'.length < n := by
          have := length_afterToken_le text
          rw [ha, List.length_cons] at this
          omega
        exact .step (step_separator hu text' _ w) (ih _ shorter hv' hu _ rfl)

/-- A program that has begun ends as the whole operation. -/
theorem begun_leadsTo {i : Instr} {t : Target} {text : Text} (hv : validText text = true)
    (hi : programOf i = some (t, parseText text)) {s : State} (hs : s.Steady t) :
    (s.sequencing t text 0 (isCustom i)).LeadsTo (exec i s) := by
  rw [exec_program hi hs.ready]
  exact sequencing_leadsTo _ hv hs 0

/-- R98: the same for a fixed program, whose text is that of its commands. -/
theorem begun_programText_leadsTo {i : Instr} {t : Target} {P : List Command} (hne : P ≠ [])
    (hpos : ∀ c ∈ P, positiveCommand c = true) (hi : programOf i = some (t, P)) {s : State} (hs : s.Steady t) :
    (s.sequencing t (programText P) 0 (isCustom i)).LeadsTo (exec i s) :=
  begun_leadsTo (validText_programText hne hpos) (by rw [parseText_programText hne hpos]; exact hi) hs

/-- Settles O59: each program begins at the front of its text, and its tokens are its commands in order. -/
theorem steppedProgramsAgree : Obligations.SteppedProgramsAgree := by
  intro t s hr hc hu
  have hs : s.Steady t := ⟨hr, hc, hu⟩
  refine ⟨fun text hv => ?custom, fun d hd => ?classic, ?usb, fun otg => ?hard⟩
  case custom =>
    obtain ⟨n, hn⟩ := begun_leadsTo hv (programOf_customReset t hv) hs
    exact ⟨n, _, (whenReadyFor hr _).trans (if_pos hv), hn⟩
  case classic =>
    have pos := resetDelayOf_ne_zero hd
    have program : programOf (.classic t d) = some (t, classicProgram (resetDelayOf d)) := by
      rw [programOf_classic t hd, resetDelayOf_eq]
    obtain ⟨n, hn⟩ := begun_programText_leadsTo (P := classicProgram _) nofun (classicProgram_positive pos)
      program hs
    exact ⟨n, _, (whenReadyFor hr _).trans (whenDelayPositive_pos pos _), hn⟩
  case usb =>
    obtain ⟨n, hn⟩ := begun_programText_leadsTo (i := .usbJTAGSerial t) (P := usbJTAGSerialProgram) nofun
      usbJTAGSerialProgram_positive rfl hs
    exact ⟨n, _, whenReadyFor hr _, hn⟩
  case hard =>
    obtain ⟨n, hn⟩ := begun_programText_leadsTo (i := .hard t otg) (hardProgram_ne_nil otg)
      (hardProgram_positive otg) rfl hs
    exact ⟨n, _, whenReadyFor hr _, hn⟩

end Sys2Proof.Machine
end

