-- ==== Sys2Proof/Proofs/Hangs.lean ====
section
/-! PROOFS. A call that never returns (R236, R272) leaves the operation, the reset program or the command that made it
stuck. -/

namespace Sys2Proof.Machine

/-- R236: a command one of whose calls never returns. -/
theorem runCommand_never {s : State} {t : Target} {c : Command} (h : s.NeverReturns t c) :
    runCommand t c s = .stuck (hangOf t) := by
  cases t with
  | foreign =>
    have answer : (s.logCap c).nextTargetAnswer = .never := h
    simp only [runCommand, foreignCall, answer, hangOf]
  | transport =>
    cases c with
    | setDTR b => exact setDTRCall_never (s := s.logCap _) b h
    | setRTS b =>
      rcases h with h | ⟨h, k⟩
      · exact setRTSCall_first_never (s := s.logCap _) b h
      · exact setRTSCall_second_never (s := s.logCap _) b h k
    | wait n => exact absurd h id

theorem runProgram_append (t : Target) (P Q : List Command) (s : State) :
    runProgram t (P ++ Q) s = (runProgram t P s).andThen (runProgram t Q) := by
  induction P generalizing s with
  | nil => rfl
  | cons c P ih =>
    rw [List.cons_append, runProgram, runProgram]
    cases runCommand t c s with
    | ok u => exact ih u
    | raised e u => rfl
    | stuck f => rfl

/-- Whether a call returns does not depend on what has been handed over. -/
theorem neverReturns_inRun {s : State} {t : Target} {P : List Command} {c : Command}
    (h : (s.afterRun t P).NeverReturns t c) : (s.inRun t P).NeverReturns t c := by
  cases t
  · cases c <;> exact h
  · exact h

/-- R184, R236: the commands before the call are accepted, and none behind it is reached. -/
theorem exec_program_never {i : Instr} {t : Target} {before after : List Command} {c : Command} {s : State}
    (hi : programOf i = some (t, before ++ c :: after)) (hs : s.ReadyFor t) (ha : s.AcceptsRun t before)
    (h : (s.afterRun t before).NeverReturns t c) : exec i s = .fault (hangOf t) := by
  rw [exec_program hi hs, runProgram_append, runProgram_accepted ha, andThen_ok, runProgram,
    runCommand_never (neverReturns_inRun h), andThen_stuck, reported_stuck]
  rfl

/-- Settles O36, call by call. -/
theorem unansweredCallHangs : Obligations.UnansweredCallHangs := by
  refine ⟨fun b n p s hi h =>
      ⟨fun hl => ?connect, fun hl => ⟨?dtr, ?rts, fun hw => ?write, fun hr hw => ?disconnect⟩⟩,
    fun b s hs h k => ?secondRequest, fun i t before c after s hi hs ha h => exec_program_never hi hs ha h,
    fun c q s hc hr hl h => ?command⟩
  case connect => rw [exec_connect hi hl, devOpenCall_never h]; rfl
  case dtr => rw [exec_setDTR ⟨hi, hl⟩, setDTRCall_never b h]; rfl
  case rts => rw [exec_setRTS ⟨hi, hl⟩, setRTSCall_first_never b h]; rfl
  case write => rw [exec_write ⟨hi, hl⟩ hw, devWriteLocked_never (s := { s with wrLocked := true }) h]; rfl
  case disconnect =>
    rw [exec_disconnect_free ⟨hi, hl⟩ (anyLocked_eq_false hr hw),
      devCloseCall_never (s := { s with life := .closed }) h]
    rfl
  case secondRequest => rw [exec_setRTS hs, setRTSCall_second_never b h k]; rfl
  case command => rw [exec_command hc hr hl, runCommand_never h]; rfl

end Sys2Proof.Machine
end

