-- ==== Sys2Proof/Proofs/Reads.lean ====
section
/-! PROOFS. `read` and `rawRead` (R152 to R164, R223 to R226): reads that end without the device, and reads that have
received some chunks, by what comes next. -/

namespace Sys2Proof.Machine

/-! ### Reads that end before their first DevRead -/

/-- R153: framing is on and the leftover alone holds a frame. -/
theorem beginRead_leftover {s : State} (hs : s.Ready) (hf : s.framingEnabled = true)
    (hc : (slipDecode s.leftover).complete = true) (t : Int) (m : Nat) : beginRead t m s = .next { s with
      leftover := (slipDecode s.leftover).remainder,
      results := s.results ++ [.bytes (slipDecode s.leftover).payload] } := by
  rw [beginRead, whenReady hs, if_pos (Bool.and_eq_true_iff.2 ⟨hf, hc⟩)]
  exact congrArg Host.Outcome.next (finish_idle (s := { s with leftover := (slipDecode s.leftover).remainder }) hs.1 _)

/-- R159: no frame in the leftover and no readable channel. -/
theorem beginRead_unreadable {s : State} (hs : s.Ready) (hd : s.devReadable = false)
    (hf : s.framingEnabled = true → (slipDecode s.leftover).complete = false) (t : Int) (m : Nat) :
    beginRead t m s = .next { s with results := s.results ++ [.bytes []] } := by
  have noFrame : (s.framingEnabled && (slipDecode s.leftover).complete) = false := by
    cases h : s.framingEnabled with
    | false => rfl
    | true => rw [hf h]; rfl
  have ends : beginRead t m s = .next (s.finish (.bytes [])) := by
    simp only [beginRead, whenReady hs, noFrame, hd, Bool.false_eq_true, if_false]
  rw [ends, finish_idle hs.1]

/-- R160: a leftover that is not empty is returned whole. -/
theorem beginRawRead_leftover {s : State} (hs : s.Ready) (hl : s.leftover ≠ []) (t : Int) :
    beginRawRead t s = .next { s with leftover := [], results := s.results ++ [.bytes s.leftover] } := by
  obtain ⟨b, bs, hb⟩ := List.exists_cons_of_ne_nil hl
  rw [beginRawRead, whenReady hs]
  simp only [hb]
  exact congrArg Host.Outcome.next (finish_idle (s := { s with leftover := [] }) hs.1 _)

theorem beginRawRead_unreadable {s : State} (hs : s.Ready) (hd : s.devReadable = false) (hl : s.leftover = [])
    (t : Int) : beginRawRead t s = .next { s with results := s.results ++ [.bytes []] } := by
  have ends : beginRawRead t s = .next (s.finish (.bytes [])) := by
    simp only [beginRawRead, whenReady hs, hl, hd, Bool.false_eq_true, if_false]
  rw [ends, finish_idle hs.1]

/-- A `read` that ends where it begins. -/
theorem exec_read_begun {t : Int} {m : Nat} {s u : State} (h : beginRead t m s = .next u) (hu : u.run = .idle) :
    exec (.read t m) s = .next u := by
  show finishReading (beginRead t m s) = _
  rw [h, finishReading_idle hu]

theorem exec_rawRead_begun {t : Int} {s u : State} (h : beginRawRead t s = .next u) (hu : u.run = .idle) :
    exec (.rawRead t) s = .next u := by
  show finishReading (beginRawRead t s) = _
  rw [h, finishReading_idle hu]

/-- Settles O27. -/
theorem readFromLeftoverAlone : Obligations.ReadFromLeftoverAlone := fun t m _ hs hf hc =>
  exec_read_begun (beginRead_leftover hs hf hc t m) hs.1

/-- Settles O28. -/
theorem unreadableReturnsEmpty : Obligations.UnreadableReturnsEmpty := fun t m _ hs hd =>
  ⟨fun hf => exec_read_begun (beginRead_unreadable hs hd hf t m) hs.1,
    fun hl => exec_rawRead_begun (beginRawRead_unreadable hs hd hl t) hs.1⟩

/-! ### One DevRead under a timer -/

/-- R155: nothing comes before the timer fires. -/
theorem devRead_late {T : Nat} {s : State} (h : ∀ a, s.inbound.head? = some a → T < a.time) :
    devRead (some T) s = fireTimer T s := by
  cases hi : s.inbound with
  | nil => simp only [devRead, hi]
  | cons a rest =>
    have late : T < a.time := h a (by rw [hi]; rfl)
    simp only [devRead, hi, Nat.lt_asymm late, late, if_true, if_false, ite_self]

/-- R226 (a): the timer's time has come already. -/
theorem devRead_expired {T : Nat} {s : State} (h : T ≤ s.now) : devRead (some T) s = fireTimer T s := by
  cases hi : s.inbound with
  | nil => simp only [devRead, hi]
  | cons a rest => simp only [devRead, hi, h, if_true]

/-- R226: what comes in the very ms of the firing is taken before or after it. -/
theorem devRead_together {s : State} {a : Arrival} {rest : List Arrival} (hi : s.inbound = a :: rest)
    (hn : s.now < a.time) :
    devRead (some a.time) s = fireTimer a.time s.draw ∨ devRead (some a.time) s = takeArrival a rest s.draw := by
  simp only [devRead, hi, Nat.not_le.2 hn, Nat.lt_irrefl, if_false]
  split_ifs
  · exact .inl rfl
  · exact .inr rfl

/-! ### One step of a read, by how its DevRead ends -/

section
variable {r : ReadRun} {s u : State}

/-- R156, R157: a chunk that opens the gate. -/
theorem readStep_gate {c : Bytes} (h : devRead r.timer s = .chunk c u) (hg : r.minLength ≤ (r.acc ++ c).length) :
    readStep r s = .next (completeRead { r with acc := r.acc ++ c } u) := by
  have gate : gateOpen (r.acc ++ c) r.minLength = true := decide_eq_true hg
  simp only [readStep, h, acceptChunk, gate, if_true]

/-- R156: a chunk that leaves it closed. -/
theorem readStep_more {c : Bytes} (h : devRead r.timer s = .chunk c u) (hg : (r.acc ++ c).length < r.minLength) :
    readStep r s = .next { u with run := .reading { r with acc := r.acc ++ c } } := by
  have gate : ¬ gateOpen (r.acc ++ c) r.minLength = true := fun h => Nat.not_le.2 hg (of_decide_eq_true h)
  simp only [readStep, h, acceptChunk, gate, if_false, Bool.false_eq_true]

theorem readStep_cancelled (h : devRead r.timer s = .cancelled u) :
    readStep r s = .next (abandonRead r .timeoutError u) := by
  simp only [readStep, h]

theorem readStep_failed {c : Cause} (h : devRead r.timer s = .failed c u) :
    readStep r s = .next (abandonRead r (.deviceError c) u) := by
  simp only [readStep, h]

theorem readStep_never (h : devRead r.timer s = .never) : readStep r s = .fault .readHangs := by
  simp only [readStep, h]

/-- A step that ends the read ends the whole read. -/
theorem readToEnd_last (hr : s.run = .reading r) (h : readStep r s = .next u) (hu : u.run = .idle) (n : Nat) :
    readToEnd (n + 2) s = .next u := by
  rw [readToEnd_reading hr, h]
  exact readToEnd_idle hu n

theorem readToEnd_step (hr : s.run = .reading r) (h : readStep r s = .next u) (n : Nat) :
    readToEnd (n + 1) s = readToEnd n u := by
  rw [readToEnd_reading hr, h]

theorem readToEnd_fault {f : Fault} (hr : s.run = .reading r) (h : readStep r s = .fault f) (n : Nat) :
    readToEnd (n + 1) s = .fault f := by
  rw [readToEnd_reading hr, h]

end

/-- R157, R158: what the gate exit hands over and keeps, when the leftover has been taken into the read. -/
theorem completeRead_eq {r : ReadRun} {s : State} (h : s.leftover = []) : completeRead r s = { s with
    leftover := keptOf r.deframes r.acc, rdLocked := false, run := .idle,
    results := s.results ++ [.bytes (returnedOf r.deframes r.acc)] } := by
  unfold completeRead keptOf returnedOf
  split_ifs
  · rfl
  · rw [← h]; rfl

/-! ### A read that has received some chunks -/

/-- What a read of `s` holds after the chunks `cs`. -/
def State.heldRun (s : State) (timer : Option Nat) (m : Nat) (deframes : Bool) (cs : List (Nat × Bytes)) : ReadRun :=
  ⟨s.leftover ++ bytesOf cs, timer, m, deframes⟩

/-- `s` in the middle of a read, after the chunks `cs`, with `tail` still to come. -/
def State.midRead (s : State) (timer : Option Nat) (m : Nat) (deframes : Bool) (cs : List (Nat × Bytes))
    (tail : List Arrival) : State :=
  { s with
    leftover := [], rdLocked := true, run := .reading (s.heldRun timer m deframes cs), inbound := tail,
    now := timeAfter s.now cs, devTrace := s.devTrace ++ rxOf cs }

section
variable {s : State} {timer : Option Nat} {m : Nat} {deframes : Bool} {cs : List (Nat × Bytes)} {rest : List Arrival}

/-- R154: the next entry comes before the timer, if there is one, fires. -/
def State.NextInTime (s : State) (timer : Option Nat) (cs : List (Nat × Bytes)) (time : Nat) : Prop :=
  ∀ T, timer = some T → timeAfter s.now cs < T ∧ time < T

theorem devRead_midRead {a : Arrival} (h : s.NextInTime timer cs a.time) :
    devRead timer (s.midRead timer m deframes cs (a :: rest)) =
      takeArrival a rest (s.midRead timer m deframes cs (a :: rest)) := devRead_inTime rfl h

/-- R156 to R158: a chunk that comes in time and opens the gate. -/
theorem midRead_gate (hi : s.run = .idle) (hl : s.rdLocked = false) {c : Nat × Bytes}
    (ht : s.NextInTime timer cs c.1) (hg : m ≤ (s.leftover ++ bytesOf (cs ++ [c])).length) (n : Nat) :
    readToEnd (n + 2) (s.midRead timer m deframes cs (⟨c.1, .chunk c.2⟩ :: rest)) = .next { s with
      leftover := keptOf deframes (s.leftover ++ bytesOf (cs ++ [c])),
      inbound := rest, now := timeAfter s.now (cs ++ [c]), devTrace := s.devTrace ++ rxOf (cs ++ [c]),
      results := s.results ++ [.bytes (returnedOf deframes (s.leftover ++ bytesOf (cs ++ [c])))] } := by
  have bytes : s.leftover ++ bytesOf (cs ++ [c]) = s.leftover ++ bytesOf cs ++ c.2 := by simp [bytesOf]
  rw [bytes] at hg ⊢
  refine (readToEnd_last rfl (readStep_gate (devRead_midRead ht) hg) (completeRead_run _ _) n).trans ?_
  rw [completeRead_eq rfl]
  simp [State.midRead, State.heldRun, State.waitUntil, State.log, timeAfter_snoc, rxOf, hi, hl]

/-- R155, R163: nothing comes before the timer fires. -/
theorem midRead_timeout (hi : s.run = .idle) (hl : s.rdLocked = false) {T : Nat} (hn : timeAfter s.now cs < T)
    (hlate : ∀ a, rest.head? = some a → T < a.time) (n : Nat) :
    readToEnd (n + 2) (s.midRead (some T) m deframes cs rest) = .next { s with
      leftover := s.leftover ++ bytesOf cs, inbound := rest, now := T,
      devTrace := s.devTrace ++ rxOf cs ++ [.cancel], results := s.results ++ [.error .timeoutError] } := by
  refine (readToEnd_last rfl (readStep_cancelled (devRead_late hlate)) (abandonRead_run _ _ _) n).trans ?_
  simp [abandonRead, State.raise, State.finish, State.midRead, State.heldRun, State.waitUntil, State.log,
    Nat.max_eq_right hn.le, hi, hl]

/-- R159: the device fails in time. -/
theorem midRead_failure (hi : s.run = .idle) (hl : s.rdLocked = false) {time : Nat}
    (ht : s.NextInTime timer cs time) (cause : Cause) (n : Nat) :
    readToEnd (n + 2) (s.midRead timer m deframes cs (⟨time, .fail cause⟩ :: rest)) = .next { s with
      leftover := s.leftover ++ bytesOf cs, inbound := rest, now := max (timeAfter s.now cs) time,
      devTrace := s.devTrace ++ rxOf cs, results := s.results ++ [.error (.deviceError cause)] } := by
  refine (readToEnd_last rfl (readStep_failed (devRead_midRead ht)) (abandonRead_run _ _ _) n).trans ?_
  simp [abandonRead, State.raise, State.finish, State.midRead, State.heldRun, State.waitUntil, hi, hl]

/-- R154: nothing comes and there is no timer. -/
theorem midRead_hangs (n : Nat) :
    readToEnd (n + 1) (s.midRead none m deframes cs []) = .fault .readHangs :=
  readToEnd_fault rfl (readStep_never rfl) n

/-! A chunk that comes in the very ms in which the timer fires (R226). -/

section
variable {T : Nat} {c : Bytes}

theorem devRead_midRead_together (hn : timeAfter s.now cs < T) :
    devRead (some T) (s.midRead (some T) m deframes cs (⟨T, .chunk c⟩ :: rest)) =
        fireTimer T (s.midRead (some T) m deframes cs (⟨T, .chunk c⟩ :: rest)).draw ∨
      devRead (some T) (s.midRead (some T) m deframes cs (⟨T, .chunk c⟩ :: rest)) =
        takeArrival ⟨T, .chunk c⟩ rest (s.midRead (some T) m deframes cs (⟨T, .chunk c⟩ :: rest)).draw :=
  devRead_together (a := ⟨T, .chunk c⟩) rfl hn

/-- R226 (b): the timer is first, and the chunk stays in the inbound stream. -/
theorem midRead_timerFirst (hi : s.run = .idle) (hl : s.rdLocked = false) (hn : timeAfter s.now cs < T)
    (hd : devRead (some T) (s.midRead (some T) m deframes cs (⟨T, .chunk c⟩ :: rest)) =
      fireTimer T (s.midRead (some T) m deframes cs (⟨T, .chunk c⟩ :: rest)).draw) (n : Nat) :
    readToEnd (n + 2) (s.midRead (some T) m deframes cs (⟨T, .chunk c⟩ :: rest)) = .next { s with
      leftover := s.leftover ++ bytesOf cs, inbound := ⟨T, .chunk c⟩ :: rest, now := T, draws := s.draws + 1,
      devTrace := s.devTrace ++ rxOf cs ++ [.cancel], results := s.results ++ [.error .timeoutError] } := by
  refine (readToEnd_last rfl (readStep_cancelled hd) (abandonRead_run _ _ _) n).trans ?_
  simp [abandonRead, State.raise, State.finish, State.midRead, State.heldRun, State.waitUntil, State.log, State.draw,
    Nat.max_eq_right hn.le, hi, hl]

/-- The chunk is first and opens the gate. -/
theorem midRead_chunkFirst_gate (hi : s.run = .idle) (hl : s.rdLocked = false) (hn : timeAfter s.now cs < T)
    (hd : devRead (some T) (s.midRead (some T) m deframes cs (⟨T, .chunk c⟩ :: rest)) =
      takeArrival ⟨T, .chunk c⟩ rest (s.midRead (some T) m deframes cs (⟨T, .chunk c⟩ :: rest)).draw)
    (hg : m ≤ (s.leftover ++ bytesOf cs ++ c).length) (n : Nat) :
    readToEnd (n + 2) (s.midRead (some T) m deframes cs (⟨T, .chunk c⟩ :: rest)) = .next { s with
      leftover := keptOf deframes (s.leftover ++ bytesOf cs ++ c), inbound := rest, now := T,
      draws := s.draws + 1, devTrace := s.devTrace ++ rxOf cs ++ [.rx c],
      results := s.results ++ [.bytes (returnedOf deframes (s.leftover ++ bytesOf cs ++ c))] } := by
  refine (readToEnd_last rfl (readStep_gate hd hg) (completeRead_run _ _) n).trans ?_
  rw [completeRead_eq rfl]
  simp [State.midRead, State.heldRun, State.waitUntil, State.log, State.draw, Nat.max_eq_right hn.le, hi, hl]

/-- The chunk is first and leaves the gate closed: the next `DevRead` finds the timer's time come. -/
theorem midRead_chunkFirst_more (hi : s.run = .idle) (hl : s.rdLocked = false) (hn : timeAfter s.now cs < T)
    (hd : devRead (some T) (s.midRead (some T) m deframes cs (⟨T, .chunk c⟩ :: rest)) =
      takeArrival ⟨T, .chunk c⟩ rest (s.midRead (some T) m deframes cs (⟨T, .chunk c⟩ :: rest)).draw)
    (hg : (s.leftover ++ bytesOf cs ++ c).length < m) (n : Nat) :
    readToEnd (n + 3) (s.midRead (some T) m deframes cs (⟨T, .chunk c⟩ :: rest)) = .next { s with
      leftover := s.leftover ++ bytesOf cs ++ c, inbound := rest, now := T, draws := s.draws + 1,
      devTrace := s.devTrace ++ rxOf cs ++ [.rx c, .cancel], results := s.results ++ [.error .timeoutError] } := by
  refine (readToEnd_step rfl (readStep_more hd hg) (n + 2)).trans ?_
  have expired : T ≤ max (timeAfter s.now cs) T := Nat.le_max_right _ _
  refine (readToEnd_last rfl (readStep_cancelled (devRead_expired expired)) (abandonRead_run _ _ _) n).trans ?_
  simp [abandonRead, State.raise, State.finish, State.midRead, State.heldRun, State.waitUntil, State.log, State.draw,
    Nat.max_eq_right hn.le, hi, hl]

end

end

/-! ### Whole operations that reach the device -/

/-- R154: a timer that is armed fires behind every chunk that comes in time. -/
theorem timeAfter_lt_timer {t : Int} {now T : Nat} {cs : List (Nat × Bytes)} (ht : InTime t now cs)
    (hT : timerOf t now = some T) : timeAfter now cs < T := by
  rcases timerOf_cases t now with ⟨hpos, h⟩ | ⟨-, h⟩ <;> rw [h] at hT
  · cases hT
    exact timeAfter_lt (by omega) (ht hpos)
  · cases hT

theorem time_lt_timer {t : Int} {now T : Nat} {cs : List (Nat × Bytes)} (ht : InTime t now cs)
    (hT : timerOf t now = some T) : ∀ c ∈ cs, c.1 < T := by
  rcases timerOf_cases t now with ⟨hpos, h⟩ | ⟨-, h⟩ <;> rw [h] at hT
  · cases hT
    exact ht hpos
  · cases hT

theorem inTime_nil (t : Int) (now : Nat) : InTime t now [] := fun _ _ h => absurd h List.not_mem_nil

theorem inTime_left {t : Int} {now : Nat} {cs : List (Nat × Bytes)} {c : Nat × Bytes}
    (ht : InTime t now (cs ++ [c])) : InTime t now cs := fun h x hx => ht h x (List.mem_append_left _ hx)

theorem nextInTime {s : State} {t : Int} {cs : List (Nat × Bytes)} {c : Nat × Bytes}
    (ht : InTime t s.now (cs ++ [c])) : s.NextInTime (timerOf t s.now) cs c.1 := fun _ hT =>
  ⟨timeAfter_lt_timer (inTime_left ht) hT,
    time_lt_timer ht hT c (List.mem_append_right _ (List.mem_singleton_self c))⟩

theorem finishReading_begun (s : State) : finishReading (.next s) = readToEnd (s.inbound.length + 2) s := rfl

/-- R152, R156: a `read` that has received `cs`, which leave the gate closed. -/
theorem exec_read_chunks {t : Int} {m : Nat} {s : State} {cs : List (Nat × Bytes)} {tail : List Arrival}
    (hs : s.ReadsDevice) (hi : s.inbound = arrivalsOf cs ++ tail) (ht : InTime t s.now cs)
    (hg : cs ≠ [] → (s.leftover ++ bytesOf cs).length < m) : exec (.read t m) s =
      readToEnd (tail.length + 2) (s.midRead (timerOf t s.now) m s.framingEnabled cs tail) := by
  have fuel : s.inbound.length + 2 = tail.length + 2 + cs.length := by
    rw [hi, arrivalsOf, List.length_append, List.length_map]
    omega
  show finishReading (beginRead t m s) = _
  rw [beginRead_device hs, finishReading_begun]
  simp only [fuel]
  have begun : ∀ T, timerOf t s.now = some T → s.now < T := fun _ => timeAfter_lt_timer (inTime_nil t s.now)
  exact readToEnd_chunks cs tail _ ⟨s.leftover, timerOf t s.now, m, s.framingEnabled⟩ _ rfl hi
    (fun T hT => ⟨begun T hT, time_lt_timer ht hT⟩) hg

/-- R160: a `rawRead` that waits for its one chunk. -/
theorem exec_rawRead_device {s : State} (hs : s.RawReadsDevice) (t : Int) : exec (.rawRead t) s =
    readToEnd (s.inbound.length + 2) (s.midRead (timerOf t s.now) 0 false [] s.inbound) := by
  show finishReading (beginRawRead t s) = _
  rw [beginRawRead_device hs]
  obtain ⟨-, -, -, hl⟩ := hs
  simp [finishReading, State.midRead, State.heldRun, bytesOf, timeAfter, rxOf, hl]

theorem timerOf_pos {t : Int} (h : 0 < t) (now : Nat) : timerOf t now = some (now + t.toNat) := if_pos h

theorem timerOf_none {t : Int} (h : t ≤ 0) (now : Nat) : timerOf t now = none := if_neg (Int.not_lt.2 h)

/-- Settles O29: the last chunk opens the gate. -/
theorem readAccumulatesToTheGate : Obligations.ReadAccumulatesToTheGate := by
  intro t m s cs c rest hs hi ht hclosed hopen
  have inbound : s.inbound = arrivalsOf cs ++ ⟨c.1, .chunk c.2⟩ :: rest := by simpa [arrivalsOf] using hi
  rw [exec_read_chunks hs inbound (inTime_left ht) hclosed]
  exact midRead_gate hs.1.1 hs.2.1 (nextInTime ht) hopen _

/-- Settles O30: the timer fires behind the last chunk. -/
theorem readTimeoutKeepsBytes : Obligations.ReadTimeoutKeepsBytes := by
  intro t m s cs rest hs hpos hi ht hlate hclosed
  have timer := timerOf_pos hpos s.now
  rw [exec_read_chunks hs hi ht hclosed, timer]
  exact midRead_timeout hs.1.1 hs.2.1 (timeAfter_lt_timer ht timer) hlate _

/-- Settles O31: the failure comes behind the last chunk. -/
theorem readFailureKeepsBytes : Obligations.ReadFailureKeepsBytes := by
  intro t m s cs time cause rest hs hi ht hclosed
  rw [exec_read_chunks hs hi (inTime_left ht) hclosed]
  exact midRead_failure hs.1.1 hs.2.1 (nextInTime ht) cause _

/-- Settles O32: behind the last chunk the device is silent, and no timer is armed. -/
theorem readWithoutTimerHangs : Obligations.ReadWithoutTimerHangs := by
  intro t m s cs hs hneg hi hclosed
  rw [exec_read_chunks (tail := []) hs (by rw [hi, List.append_nil]) (fun h => absurd h (Int.not_lt.2 hneg)) hclosed,
    timerOf_none hneg]
  exact midRead_hangs _

/-- Settles O33: the timer or the chunk is first, and a chunk that is first opens the gate or does not. -/
theorem timerAndChunkTogether : Obligations.TimerAndChunkTogether := by
  refine ⟨fun t m s cs c rest hs hpos hi ht hclosed => ⟨s.draws + 1, ?read⟩,
    fun t s c rest hs hpos hi => ⟨s.draws + 1, ?raw⟩⟩
  case read =>
    have timer := timerOf_pos hpos s.now
    have before := timeAfter_lt_timer ht timer
    rw [exec_read_chunks hs hi ht hclosed, timer]
    rcases devRead_midRead_together before with hd | hd
    · exact .inl (midRead_timerFirst hs.1.1 hs.2.1 before hd _)
    rcases Nat.lt_or_ge (s.leftover ++ bytesOf cs ++ c).length m with hg | hg
    · exact .inr (.inr ⟨hg, midRead_chunkFirst_more hs.1.1 hs.2.1 before hd hg _⟩)
    · exact .inr (.inl ⟨hg, midRead_chunkFirst_gate hs.1.1 hs.2.1 before hd hg _⟩)
  case raw =>
    have timer := timerOf_pos hpos s.now
    have before : timeAfter s.now [] < s.now + t.toNat := timeAfter_lt_timer (inTime_nil t s.now) timer
    have result := exec_rawRead_device hs t
    obtain ⟨⟨hidle, -⟩, hlock, -, hl⟩ := hs
    rw [timer, hi] at result
    rcases devRead_midRead_together before with hd | hd
    · rw [midRead_timerFirst hidle hlock before hd] at result
      exact .inl (by simpa [bytesOf, rxOf, hl, ← hi] using result)
    · rw [midRead_chunkFirst_gate hidle hlock before hd (Nat.zero_le _)] at result
      exact .inr (by simpa [bytesOf, rxOf, hl, keptOf, returnedOf] using result)

/-- Settles O34: the leftover is returned whole; without one the gate of 0 opens on the first chunk. -/
theorem rawReadReturnsLeftoverOrChunk : Obligations.RawReadReturnsLeftoverOrChunk := by
  intro t s c rest
  refine ⟨fun hs hl => exec_rawRead_begun (beginRawRead_leftover hs hl t) hs.1, fun hs hi ht => ?chunk⟩
  case chunk =>
    rw [exec_rawRead_device hs, hi]
    obtain ⟨⟨hidle, -⟩, hlock, -, hl⟩ := hs
    refine (midRead_gate hidle hlock (nextInTime ht) (Nat.zero_le _) _).trans ?_
    simp [bytesOf, rxOf, timeAfter, keptOf, returnedOf, hl]

/-- Settles O35, by what comes first: the timer, a failure, or nothing ever. -/
theorem rawReadErrors : Obligations.RawReadErrors := by
  intro t s hs
  rw [exec_rawRead_device hs]
  obtain ⟨⟨hidle, -⟩, hlock, -, hl⟩ := hs
  refine ⟨fun hpos hlate => ?timeout, fun time cause rest hi ht => ?failure, fun hneg hi => ?hang⟩
  case timeout =>
    have timer := timerOf_pos hpos s.now
    rw [timer]
    refine (midRead_timeout hidle hlock (timeAfter_lt_timer (inTime_nil t s.now) timer) hlate _).trans ?_
    simp [bytesOf, rxOf, hl]
  case failure =>
    rw [hi]
    refine (midRead_failure hidle hlock (nextInTime (c := (time, [])) ht) cause _).trans ?_
    simp [bytesOf, rxOf, timeAfter, hl]
  case hang =>
    rw [timerOf_none hneg, hi]
    exact midRead_hangs _

/-- Settles O37: the chunk opens the gate, and what the first frame leaves holds the second. -/
theorem secondFrameFromLeftover : Obligations.SecondFrameFromLeftover := by
  intro t₁ t₂ m₁ m₂ time p q s rest hs hf hl hi ht hg
  have first := readAccumulatesToTheGate t₁ m₁ s [] (time, slipEncode p ++ slipEncode q) rest hs hi
    (fun hpos c hc => ht hpos (time, []) (List.mem_singleton_self _) |> fun h => by
      rw [List.mem_singleton.1 hc]; exact h) (fun h => absurd rfl h) (by simpa [bytesOf, hl] using hg)
  have decoded : slipDecode (s.leftover ++ bytesOf ([] ++ [(time, slipEncode p ++ slipEncode q)])) =
      ⟨p, slipEncode q, true⟩ := by
    simpa [bytesOf, hl] using slipDecode_slipEncode_append p (slipEncode q)
  have decodedRest : slipDecode (slipEncode q) = ⟨q, [], true⟩ := (frameRoundTrip q []).2
  rw [hf] at first
  simp only [keptOf, returnedOf, if_true, decoded] at first
  refine ⟨_, first, rfl, rfl, (readFromLeftoverAlone t₂ m₂ _ ?ready rfl ?frame).trans ?second⟩
  case ready => exact hs.1
  case frame => rw [decodedRest]
  case second => rw [decodedRest]

end Sys2Proof.Machine
end

