-- ==== Sys2Proof/Proofs/SteppedReads.lean ====
section
/-! PROOFS. A read in progress to its end: run one `DevRead` a step it ends as the whole read ends (R60, R152), and what
it has handed over and kept when it has ended (R155 to R159, R163). -/

namespace Sys2Proof.Machine

/-! ### Step by step -/

/-- R152: each step that does not end the read takes an entry off the inbound stream, so that the fuel suffices. -/
theorem reading_leadsTo : ∀ {fuel : Nat} {s : State} {r : ReadRun}, s.run = .reading r → s.codec = none →
    s.Undisturbed → s.inbound.length + 2 ≤ fuel → s.LeadsTo (readToEnd fuel s) := by
  intro fuel
  induction fuel with
  | zero => intro s r _ _ _ h; omega
  | succ fuel ih =>
    intro s r hr hc hu h
    obtain ⟨n, rfl⟩ : ∃ n, fuel = n + 1 := ⟨fuel - 1, by omega⟩
    have hstep := step_reading hc hu hr
    have ended : ∀ {u : State}, readStep r s = .next u → u.run = .idle → s.LeadsTo (readToEnd (n + 2) s) := by
      intro u hu' hidle
      rw [readToEnd_last hr hu' hidle]
      exact .last (hstep.trans hu')
    rcases readStep_cases r s with ⟨_, _, _, _, -, -, k⟩ | ⟨at', c, rest, m, hi, -, k⟩ | ⟨_, _, -, k⟩ |
      ⟨_, _, _, _, -, k⟩ | ⟨-, -, k⟩
    · exact ended k (completeRead_run _ _)
    · rw [readToEnd_step hr k]
      have fewer : rest.length + 2 ≤ n + 1 := by rw [hi, List.length_cons] at h; omega
      exact .step (hstep.trans k) (ih rfl hc hu fewer)
    · exact ended k (abandonRead_run _ _ _)
    · exact ended k (abandonRead_run _ _ _)
    · rw [readToEnd_fault hr k]
      exact .last (hstep.trans k)

/-- A read that has begun, ended or not, ends as the whole operation. -/
theorem begun_read_leadsTo {u : State} (hr : u.run = .idle ∨ ∃ r, u.run = .reading r) (hc : u.codec = none)
    (hu : u.Undisturbed) : u.LeadsTo (finishReading (.next u)) := by
  rcases hr with hidle | ⟨r, hr⟩
  · rw [finishReading_idle hidle]
    exact .here u
  · exact reading_leadsTo hr hc hu le_rfl

theorem beginRead_total {s : State} (hs : s.Ready) (hl : s.rdLocked = false) (t : Int) (m : Nat) :
    ∃ u, beginRead t m s = .next u := by
  rw [beginRead, whenReady hs]
  split_ifs
  · exact ⟨_, rfl⟩
  · exact ⟨_, if_neg (by rw [hl]; exact Bool.false_ne_true)⟩
  · exact ⟨_, rfl⟩

theorem beginRawRead_total {s : State} (hs : s.Ready) (hl : s.rdLocked = false) (t : Int) :
    ∃ u, beginRawRead t s = .next u := by
  rw [beginRawRead, whenReady hs]
  split
  · exact ⟨_, rfl⟩
  · split_ifs
    · exact ⟨_, if_neg (by rw [hl]; exact Bool.false_ne_true)⟩
    · exact ⟨_, rfl⟩

/-- R152: a `read` that has begun is done or waits for the device. -/
theorem beginRead_run {t : Int} {m : Nat} {s u : State} (h : beginRead t m s = .next u) :
    u.run = .idle ∨ ∃ r, u.run = .reading r := by
  obtain ⟨hi, -, rfl | ⟨-, rfl⟩ | rfl⟩ := beginRead_next h
  exacts [.inl hi, .inr ⟨_, rfl⟩, .inl hi]

theorem beginRawRead_run {t : Int} {s u : State} (h : beginRawRead t s = .next u) :
    u.run = .idle ∨ ∃ r, u.run = .reading r := by
  obtain ⟨hi, -, ⟨-, rfl⟩ | ⟨-, -, rfl⟩ | ⟨-, rfl⟩⟩ := beginRawRead_next h
  exacts [.inl hi, .inr ⟨_, rfl⟩, .inl hi]

theorem ReadOnly.codec_inputs {s u : State} (h : ReadOnly s u) : u.codec = s.codec ∧ u.inputs = s.inputs := by
  rw [h.same]
  exact ⟨rfl, rfl⟩

/-- Nothing comes between the steps of what `s` has begun without touching inputs and decode. -/
theorem ReadOnly.undisturbed {s u : State} (h : ReadOnly s u) (hc : s.codec = none) (hu : s.Undisturbed) :
    u.codec = none ∧ u.Undisturbed := by
  obtain ⟨codec, inputs⟩ := h.codec_inputs
  exact ⟨codec.trans hc, fun x hx => hu x (inputs ▸ hx)⟩

/-- Settles O60: both operations begin, and what they have begun runs to the end of the whole. -/
theorem steppedReadAgrees : Obligations.SteppedReadAgrees := by
  intro t m s hs hc hu hl
  obtain ⟨u, h⟩ := beginRead_total hs hl t m
  obtain ⟨v, k⟩ := beginRawRead_total hs hl t
  obtain ⟨codecU, restU⟩ := (beginRead_readOnly h).undisturbed hc hu
  obtain ⟨codecV, restV⟩ := (beginRawRead_readOnly k).undisturbed hc hu
  obtain ⟨n, hn⟩ := begun_read_leadsTo (beginRead_run h) codecU restU
  obtain ⟨n', hn'⟩ := begun_read_leadsTo (beginRawRead_run k) codecV restV
  exact ⟨⟨n, u, h, hn.trans (congrArg finishReading h).symm⟩,
    ⟨n', v, k, hn'.trans (congrArg finishReading k).symm⟩⟩

/-! ### What a read in progress ends in -/

/-- R155 to R159: the ends of the read `r` of `s`: it has handed over bytes; or the timer has fired and it keeps what it
held and has received since; or the device has failed. -/
def ReadRun.EndsAt (r : ReadRun) (s u : State) : Prop :=
  ∃ es, u.devTrace = s.devTrace ++ es ∧
    ((∃ b : Bytes, u.results = s.results ++ [Result.bytes b]) ∨
      (r.timer ≠ none ∧ u.results = s.results ++ [Result.error .timeoutError] ∧
        u.leftover = r.acc ++ es.flatMap receivedIn) ∨
      ∃ c : Cause, u.results = s.results ++ [Result.error (.deviceError c)])

theorem completeRead_results (r : ReadRun) (s : State) :
    ∃ b : Bytes, (completeRead r s).results = s.results ++ [Result.bytes b] := by
  unfold completeRead
  split_ifs
  exacts [⟨_, rfl⟩, ⟨_, rfl⟩]

theorem completeRead_devTrace (r : ReadRun) (s : State) : (completeRead r s).devTrace = s.devTrace := by
  unfold completeRead
  split_ifs <;> rfl

theorem readToEnd_of_idle {n : Nat} {s u : State} (hr : s.run = .idle) (h : readToEnd n s = .next u) : s = u := by
  cases n with
  | zero => cases h
  | succ n => rw [readToEnd_idle hr] at h; cases h; rfl

theorem readToEnd_endsAt : ∀ {n : Nat} {r : ReadRun} {s u : State}, s.run = .reading r →
    readToEnd n s = .next u → r.EndsAt s u := by
  intro n
  induction n with
  | zero => intro r s u _ h; cases h
  | succ n ih =>
    intro r s u hr h
    rcases readStep_cases r s with ⟨_, c, _, _, -, -, k⟩ | ⟨_, c, _, _, -, -, k⟩ | ⟨T, _, hT, k⟩ |
      ⟨_, cause, _, _, -, k⟩ | ⟨-, -, k⟩
    case inr.inr.inr.inr => rw [readToEnd_fault hr k] at h; cases h
    all_goals rw [readToEnd_step hr k] at h
    · obtain rfl := readToEnd_of_idle (completeRead_run _ _) h
      exact ⟨[.rx c], completeRead_devTrace _ _, .inl (completeRead_results _ _)⟩
    · obtain ⟨es, trace, ends⟩ := ih rfl h
      refine ⟨.rx c :: es, trace.trans (List.append_assoc ..), ends.imp_right (Or.imp_left ?_)⟩
      rintro ⟨timer, results, kept⟩
      exact ⟨timer, results, kept.trans (List.append_assoc ..)⟩
    · obtain rfl := readToEnd_of_idle (abandonRead_run _ _ _) h
      exact ⟨[.cancel], rfl, .inr (.inl ⟨by rw [hT]; nofun, rfl, (List.append_nil _).symm⟩)⟩
    · obtain rfl := readToEnd_of_idle (abandonRead_run _ _ _) h
      exact ⟨[], (List.append_nil _).symm, .inr (.inr ⟨cause, rfl⟩)⟩

/-- R220: what a whole `read` or `rawRead` with this timeout has handed over: bytes, or an error, and a `TimeoutError`
only under a timer. -/
def ReadHandsOver (t : Int) (s u : State) : Prop :=
  (∃ b : Bytes, u.results = s.results ++ [Result.bytes b]) ∨
    (0 < t ∧ u.results = s.results ++ [Result.error .timeoutError]) ∨
    ∃ c : Cause, u.results = s.results ++ [Result.error (.deviceError c)]

theorem timerOf_ne_none {t : Int} {now : Nat} (h : timerOf t now ≠ none) : 0 < t := by
  by_contra hneg
  exact h (timerOf_none (Int.not_lt.1 hneg) now)

/-- A call that has begun either has handed over bytes or waits for the device. -/
theorem finishReading_results {t : Int} {o : Out} {s u : State} (hb : ∀ v, o = .next v →
      (v.run = .idle ∧ ∃ b : Bytes, v.results = s.results ++ [Result.bytes b]) ∨
      ∃ r, v.run = .reading r ∧ v.results = s.results ∧ (r.timer ≠ none → 0 < t))
    (h : finishReading o = .next u) : ReadHandsOver t s u := by
  obtain ⟨v, hv, hu⟩ := finishReading_next h
  rcases hb v hv with ⟨hidle, hres⟩ | ⟨r, hr, hres, htimer⟩
  · obtain rfl := readToEnd_of_idle hidle hu
    exact .inl hres
  · obtain ⟨es, -, ends⟩ := readToEnd_endsAt hr hu
    rw [hres] at ends
    exact ends.imp_right (Or.imp_left fun ⟨timer, results, _⟩ => ⟨htimer timer, results⟩)

theorem exec_read_results {t : Int} {m : Nat} {s u : State} (h : exec (.read t m) s = .next u) :
    ReadHandsOver t s u := by
  refine finishReading_results (fun v hv => ?_) h
  obtain ⟨hi, -, rfl | ⟨-, rfl⟩ | rfl⟩ := beginRead_next hv
  exacts [.inl ⟨hi, _, rfl⟩, .inr ⟨_, rfl, rfl, timerOf_ne_none⟩, .inl ⟨hi, _, rfl⟩]

theorem exec_rawRead_results {t : Int} {s u : State} (h : exec (.rawRead t) s = .next u) :
    ReadHandsOver t s u := by
  refine finishReading_results (fun v hv => ?_) h
  obtain ⟨hi, -, ⟨-, rfl⟩ | ⟨-, -, rfl⟩ | ⟨-, rfl⟩⟩ := beginRawRead_next hv
  exacts [.inl ⟨hi, _, rfl⟩, .inr ⟨_, rfl, rfl, timerOf_ne_none⟩, .inl ⟨hi, _, rfl⟩]

/-- Settles O38: the bytes kept are those received, and a `rawRead` begins with the leftover. -/
theorem timedOutBytesRetrievable : Obligations.TimedOutBytesRetrievable := by
  intro t t' m s s₁ hs h hres
  have whole : finishReading (beginRead t m s) = .next s₁ := h
  rw [beginRead_device hs, finishReading_begun] at whole
  obtain ⟨es, trace, ends⟩ := readToEnd_endsAt rfl whole
  have idle : s₁.run = .idle := readToEnd_ends (.inr ⟨_, rfl⟩) whole
  have connected : s₁.life = .connected := by
    rw [(execRead_readOnly h).same]
    exact hs.1.2
  refine ⟨?kept, fun hl => exec_rawRead_begun (beginRawRead_leftover ⟨idle, connected⟩ hl t') idle⟩
  case kept =>
    rw [trace, List.drop_left]
    rcases ends with ⟨b, hb⟩ | ⟨-, -, kept⟩ | ⟨c, hc⟩
    · rw [hres] at hb; simp at hb
    · exact kept
    · rw [hres] at hc; simp at hc

end Sys2Proof.Machine
end

