-- ==== Sys2Proof/Proofs/Refusals.lean ====
section
/-! PROOFS. Requirements that are not met (R25, R61). -/

namespace Sys2Proof.Machine

/-- Settles O46: every operation of the Transport asks first that nothing is in progress. -/
theorem secondOperationRefused : Obligations.SecondOperationRefused := by
  intro i s hi hr
  have read : ∀ t m, exec (.read t m) s = .refused .busy := fun t m => by
    show finishReading (beginRead t m s) = _
    rw [beginRead, whenIdle_busy hr, finishReading]
  have rawRead : ∀ t, exec (.rawRead t) s = .refused .busy := fun t => by
    show finishReading (beginRawRead t s) = _
    rw [beginRawRead, whenIdle_busy hr, finishReading]
  cases i <;> simp only [usesTransport, reduceCtorEq] at hi
  case read t m => exact read t m
  case rawRead t => exact rawRead t
  all_goals exact whenIdle_busy hr _

theorem whenIdle_whenConnected_other {s : State} (hi : s.run = .idle) (hl : s.life ≠ .connected) (k : Out) :
    s.whenIdle (s.whenConnected k) = .refused (.wrongLifecycle s.life) := by
  rw [whenIdle_idle hi, whenConnected_other hl]

/-- Settles O47: the lifecycle is asked for behind that, and by a reset program for the Transport alone. -/
theorem notConnectedRefused : Obligations.NotConnectedRefused := by
  intro i s hi hr hl
  have refused := whenIdle_whenConnected_other hr hl
  have read : ∀ t m, exec (.read t m) s = .refused (.wrongLifecycle s.life) := fun t m => by
    show finishReading (beginRead t m s) = _
    rw [beginRead, refused, finishReading]
  have rawRead : ∀ t, exec (.rawRead t) s = .refused (.wrongLifecycle s.life) := fun t => by
    show finishReading (beginRawRead t s) = _
    rw [beginRawRead, refused, finishReading]
  cases i <;> simp only [needsConnected, reduceCtorEq] at hi
  case read t m => exact read t m
  case rawRead t => exact rawRead t
  case classic t d => cases t <;> simp only [reduceCtorEq] at hi; exact refused _
  case usbJTAGSerial t => cases t <;> simp only [reduceCtorEq] at hi; exact refused _
  case hard t otg => cases t <;> simp only [reduceCtorEq] at hi; exact refused _
  case customReset t text => cases t <;> simp only [reduceCtorEq] at hi; exact refused _
  all_goals exact refused _

end Sys2Proof.Machine
end

