-- ==== Sys2Proof/Proofs/Effects.lean ====
section
/-! PROOFS. What an instruction that answers a next state has done, said once for all instructions, and what follows
from it alone: the fields of T that it may write (R28) and the errors that it may hand over (R220). -/

namespace Sys2Proof.Machine

/-! ### The calls of the control lines, the delay and the reset programs -/

/-- R136 to R139, R184: the one call that a `setDTR`, `setRTS`, `sleep` or reset program comes down to. -/
def controlCall : Instr → State → Option Call
  | .setDTR b, s => some (setDTRCall b s)
  | .setRTS b, s => some (setRTSCall b s)
  | .sleep n, s => some (sleepCall n s)
  | i, s => (programOf i).map fun p => (runProgram p.1 p.2 s).reported (isCustom i)

theorem final_reported (w : Bool) (c : Call) : (c.reported w).final = c.final := by
  cases w
  · rfl
  · exact final_wrapErrors c

/-- The four shapes of such a call. -/
theorem controlCall_cases {i : Instr} {s : State} {c : Call} (h : controlCall i s = some c) :
    (∃ b, i = .setDTR b ∧ c = setDTRCall b s) ∨ (∃ b, i = .setRTS b ∧ c = setRTSCall b s) ∨
      (∃ n, i = .sleep n ∧ c = sleepCall n s) ∨
      ∃ t P, programOf i = some (t, P) ∧ c = (runProgram t P s).reported (isCustom i) := by
  have program : ∀ {j : Instr}, (programOf j).map (fun p => (runProgram p.1 p.2 s).reported (isCustom j)) = some c →
      ∃ t P, programOf j = some (t, P) ∧ c = (runProgram t P s).reported (isCustom j) := by
    intro j hj
    obtain ⟨⟨t, P⟩, hp, hc⟩ := Option.map_eq_some_iff.1 hj
    exact ⟨t, P, hp, hc.symm⟩
  cases i
  case setDTR b => exact .inl ⟨b, rfl, (Option.some.inj h).symm⟩
  case setRTS b => exact .inr (.inl ⟨b, rfl, (Option.some.inj h).symm⟩)
  case sleep n => exact .inr (.inr (.inl ⟨n, rfl, (Option.some.inj h).symm⟩))
  all_goals exact .inr (.inr (.inr (program h)))

theorem controlCall_controlOnly {i : Instr} {s v : State} {c : Call} (h : controlCall i s = some c)
    (hv : c.final = some v) : ControlOnly s v := by
  rcases controlCall_cases h with ⟨b, -, rfl⟩ | ⟨b, -, rfl⟩ | ⟨n, -, rfl⟩ | ⟨t, P, -, rfl⟩
  · exact setDTRCall_controlOnly hv
  · exact setRTSCall_controlOnly hv
  · exact sleepCall_controlOnly hv
  · exact runProgram_controlOnly ((final_reported _ _).symm.trans hv)

/-! ### Which calls write the latch -/

theorem devSignal_dtrState {l : Line} {b : Bool} {s v : State} (h : (devSignal l b s).final = some v) :
    v.dtrState = s.dtrState := by
  cases hn : s.nextAnswer with
  | ok => rw [devSignal_ok hn] at h; cases h; simp
  | fail c => rw [devSignal_fail hn] at h; cases h; simp
  | never => rw [devSignal_never hn] at h; cases h

/-- R137: `setRTS` reads the latch and does not write it. -/
theorem setRTSCall_dtrState {b : Bool} {s v : State} (h : (setRTSCall b s).final = some v) :
    v.dtrState = s.dtrState := by
  rcases final_andThen h with ⟨u, hu, hv⟩ | ⟨e, he⟩
  · exact (devSignal_dtrState hv).trans (devSignal_dtrState (by rw [hu]; rfl))
  · exact devSignal_dtrState (by rw [he]; rfl)

theorem foreignCall_dtrState {c : Command} {s v : State} (h : (foreignCall c s).final = some v) :
    v.dtrState = s.dtrState := by
  unfold foreignCall at h
  split at h
  · cases c <;> cases h <;> rfl
  · cases h; rfl
  · cases h

/-- R24: of the commands `setDTR` on the Transport alone writes the latch. -/
theorem runCommand_dtrState {t : Target} {c : Command} {s v : State} (h : (runCommand t c s).final = some v)
    (hc : t = .transport → ∀ b, c ≠ .setDTR b) : v.dtrState = s.dtrState := by
  cases t with
  | foreign => exact foreignCall_dtrState (s := s.logCap c) h
  | transport =>
    cases c with
    | setDTR b => exact absurd rfl (hc rfl b)
    | setRTS b => exact setRTSCall_dtrState (s := s.logCap _) h
    | wait n => cases h; rfl

theorem runProgram_dtrState {t : Target} {P : List Command} {s v : State} (h : (runProgram t P s).final = some v)
    (hP : t = .transport → ∀ c ∈ P, ∀ b, c ≠ .setDTR b) : v.dtrState = s.dtrState := by
  induction P generalizing s with
  | nil => cases h; rfl
  | cons c P ih =>
    have hc : t = .transport → ∀ b, c ≠ .setDTR b := fun ht => hP ht c List.mem_cons_self
    rcases final_andThen h with ⟨u, hu, hv⟩ | ⟨e, he⟩
    · exact (ih hv fun ht x hx => hP ht x (List.mem_cons_of_mem c hx)).trans
        (runCommand_dtrState (by rw [hu]; rfl) hc)
    · exact runCommand_dtrState (by rw [he]; rfl) hc

theorem hardProgram_no_setDTR (otg : Bool) : ∀ c ∈ hardProgram otg, ∀ b, c ≠ .setDTR b := by
  cases otg <;> decide

/-- R24, R28: a program against the Transport that may not write the latch is `hard`. -/
theorem programOf_no_setDTR {i : Instr} {t : Target} {P : List Command} (hi : programOf i = some (t, P))
    (hl : writesLatch i = false) : t = .transport → ∀ c ∈ P, ∀ b, c ≠ .setDTR b := by
  rintro rfl
  cases i <;> simp only [programOf, Option.ite_none_left_eq_some, Option.ite_none_right_eq_some, Option.some.injEq,
    Prod.mk.injEq, reduceCtorEq] at hi
  case classic => obtain ⟨-, rfl, -⟩ := hi; cases hl
  case usbJTAGSerial => obtain ⟨rfl, -⟩ := hi; cases hl
  case hard otg => obtain ⟨-, rfl⟩ := hi; exact hardProgram_no_setDTR otg
  case customReset => obtain ⟨-, rfl, -⟩ := hi; cases hl

theorem controlCall_dtrState {i : Instr} {s v : State} {c : Call} (h : controlCall i s = some c)
    (hv : c.final = some v) (hl : writesLatch i = false) : v.dtrState = s.dtrState := by
  rcases controlCall_cases h with ⟨b, rfl, -⟩ | ⟨b, -, rfl⟩ | ⟨n, -, rfl⟩ | ⟨t, P, hi, rfl⟩
  · cases hl
  · exact setRTSCall_dtrState hv
  · cases hv; rfl
  · exact runProgram_dtrState ((final_reported _ _).symm.trans hv) (programOf_no_setDTR hi hl)

/-! ### Which errors a call raises -/

theorem devSignal_raised {l : Line} {b : Bool} {s v : State} {e : ErrorKind} (h : devSignal l b s = .raised e v) :
    ∃ c, e = .deviceError c := by
  cases hn : s.nextAnswer with
  | ok => rw [devSignal_ok hn] at h; cases h
  | fail c => rw [devSignal_fail hn] at h; cases h; exact ⟨c, rfl⟩
  | never => rw [devSignal_never hn] at h; cases h

theorem andThen_eq_raised {c : Call} {k : State → Call} {e : ErrorKind} {v : State} (h : c.andThen k = .raised e v) :
    c = .raised e v ∨ ∃ s, c = .ok s ∧ k s = .raised e v := by
  cases c with
  | ok s => exact .inr ⟨s, rfl, h⟩
  | raised e' s => exact .inl h
  | stuck f => cases h

theorem setRTSCall_raised {b : Bool} {s v : State} {e : ErrorKind} (h : setRTSCall b s = .raised e v) :
    ∃ c, e = .deviceError c := by
  rcases andThen_eq_raised h with h | ⟨u, -, h⟩
  exacts [devSignal_raised h, devSignal_raised h]

/-- R220, R227: a command raises `DeviceError` alone. -/
theorem runCommand_raised {t : Target} {c : Command} {s v : State} {e : ErrorKind}
    (h : runCommand t c s = .raised e v) : ∃ cause, e = .deviceError cause := by
  cases t with
  | foreign =>
    unfold runCommand foreignCall at h
    simp only at h
    split at h
    · cases c <;> cases h
    · cases h; exact ⟨_, rfl⟩
    · cases h
  | transport =>
    cases c with
    | setDTR b => exact devSignal_raised h
    | setRTS b => exact setRTSCall_raised h
    | wait n => cases h

theorem runProgram_raised {t : Target} {P : List Command} {s v : State} {e : ErrorKind}
    (h : runProgram t P s = .raised e v) : ∃ cause, e = .deviceError cause := by
  induction P generalizing s with
  | nil => cases h
  | cons c P ih =>
    rcases andThen_eq_raised h with h | ⟨u, -, h⟩
    exacts [runCommand_raised h, ih h]

/-- R228: a custom program reports `CustomSequenceError`, a fixed one `DeviceError`. -/
theorem mayRaise_program {i : Instr} {t : Target} {P : List Command} (hi : programOf i = some (t, P)) (cause : Cause) :
    mayRaise i (if isCustom i then .customSequenceError else .deviceError cause) = true := by
  cases i
  case classic => rfl
  case usbJTAGSerial => rfl
  case hard => rfl
  case customReset => rfl
  all_goals cases hi

theorem controlCall_raised {i : Instr} {s v : State} {e : ErrorKind} (h : controlCall i s = some (.raised e v)) :
    mayRaise i e = true := by
  rcases controlCall_cases h with ⟨b, rfl, hc⟩ | ⟨b, rfl, hc⟩ | ⟨n, -, hc⟩ | ⟨t, P, hi, hc⟩
  · obtain ⟨c, rfl⟩ := devSignal_raised hc.symm; rfl
  · obtain ⟨c, rfl⟩ := setRTSCall_raised hc.symm; rfl
  · cases hc
  · cases hr : runProgram t P s with
    | ok u => rw [hr, reported_ok] at hc; cases hc
    | stuck f => rw [hr, reported_stuck] at hc; cases hc
    | raised e' u =>
      obtain ⟨cause, rfl⟩ := runProgram_raised hr
      rw [hr, reported_raised] at hc
      cases hc
      exact mayRaise_program hi cause

/-! ### What an instruction has done -/

/-- A result that is no error but `DeviceError`. -/
def Result.DoneOrDeviceError (r : Result) : Prop := r = .done ∨ ∃ c, r = .error (.deviceError c)

/-- The next states that an instruction answers from `s`, instruction by instruction. -/
inductive Did (s : State) : Instr → State → Prop
  | encode (p : Bytes) : Did s (.encode p) (s.give (.bytes (slipEncode p)))
  | decode (b : Bytes) : Did s (.decode b) (s.give (.frame (slipDecode b)))
  | validate (t : Text) : Did s (.validateCustomSequence t) (s.give (.bool (validText t)))
  | symbol {i : Instr} (hf : i.format = .slip) (d : DeframeRun) : Did s i { s with codec := some d }
  | closesFrame (f : Frame) : Did s .slipEnd ({ s with codec := none }.give (.frame f))
  | command {c : Command} {q : SeqRun} {v : State} (hc : positiveCommand c = true) (hr : s.run = .sequence q)
      (hv : runCommand q.target c s = .ok v) : Did s (instrOfCommand c) { v with run := .sequence q.advance }
  | commandFails {c : Command} {q : SeqRun} {e : ErrorKind} {v : State} (hc : positiveCommand c = true)
      (hr : s.run = .sequence q) (hv : runCommand q.target c s = .raised e v) :
      Did s (instrOfCommand c) (v.raise (q.errorOf e))
  | separator {q : SeqRun} (hr : s.run = .sequence q) :
      Did s .sep { s with run := .sequence { q with rest := q.rest.tail } }
  | connects (baud : Nat) (hi : s.run = .idle) (hl : s.life = .created) : Did s (.connect baud) { s with
      leftover := [], baudRate := baud, life := .connected, devOpen := true, answers := s.answers.tail,
      devTrace := s.devTrace ++ [.open baud], results := s.results ++ [.done] }
  | connectFails (baud : Nat) (hi : s.run = .idle) (hl : s.life = .created) : Did s (.connect baud) { s with
      answers := s.answers.tail, devTrace := s.devTrace ++ [.open baud],
      results := s.results ++ [.error .deviceOpenError] }
  | polls (hs : s.Ready) (hl : s.anyLocked = true) : Did s .disconnect { s with life := .closed, run := .closing }
  | disconnects (hs : s.Ready) (isOpen : Bool) (draws : Nat) {r : Result} (hr : r.DoneOrDeviceError) :
      Did s .disconnect { s with
        life := .closed, devOpen := isOpen, draws := draws, answers := s.answers.tail,
        devTrace := s.devTrace ++ [.close], results := s.results ++ [r] }
  | setFraming (b : Bool) (hi : s.run = .idle) :
      Did s (.setFraming b) { s with framingEnabled := b, results := s.results ++ [.done] }
  | write (p out : Bytes) (hs : s.Ready) (hw : s.wrLocked = false) {r : Result} (hr : r.DoneOrDeviceError) :
      Did s (.write p) { s with
        answers := s.answers.tail, outbound := s.outbound ++ out, devTrace := s.devTrace ++ [.tx out],
        results := s.results ++ [r] }
  | read {t : Int} {m : Nat} {u : State} (h : exec (.read t m) s = .next u) : Did s (.read t m) u
  | rawRead {t : Int} {u : State} (h : exec (.rawRead t) s = .next u) : Did s (.rawRead t) u
  | control {i : Instr} {c : Call} {u : State} (hi : s.run = .idle) (hc : controlCall i s = some c)
      (hu : c.deliver = .next u) : Did s i u
  | noProgram (t : Target) (text : Text) (hi : s.run = .idle) : Did s (.customReset t text) (s.finish .done)

/-- A SLIP symbol that has run stands in a `decode` in progress. -/
theorem exec_symbol_codec {i : Instr} {s u : State} (hf : i.format = .slip) (h : exec i s = .next u) :
    i.wf = true ∧ ∃ d, s.codec = some d := by
  cases hw : i.wf with
  | false => rw [exec_symbol_illFormed hf hw] at h; cases h
  | true =>
    cases hc : s.codec with
    | none => rw [exec_symbol_noDecode hc hf hw] at h; cases h
    | some d => exact ⟨rfl, d, rfl⟩

theorem did_symbol {i : Instr} {s u : State} (hf : i.format = .slip) (h : exec i s = .next u) : Did s i u := by
  obtain ⟨hw, d, hd⟩ := exec_symbol_codec hf h
  by_cases hi : i = .slipEnd
  · subst hi
    rw [exec_slipEnd hd] at h
    cases hs : d.start with
    | none => rw [meetEnd_before hs] at h; cases h; exact .symbol hf _
    | some k => rw [meetEnd_inside hs] at h; cases h; exact .closesFrame _
  · rw [exec_symbol hd hf hw hi] at h
    cases hs : d.start with
    | none => rw [passSymbol_before hs] at h; cases h; exact .symbol hf _
    | some k => rw [passSymbol_inside hs] at h; cases h; exact .symbol hf _

theorem did_command {c : Command} {s u : State} (hc : positiveCommand c = true)
    (h : exec (instrOfCommand c) s = .next u) : Did s (instrOfCommand c) u := by
  rw [exec_instrOfCommand hc] at h
  obtain ⟨q, hr, -, ⟨v, hv, rfl⟩ | ⟨e, v, hv, rfl⟩⟩ := stepCommand_next h
  · exact .command hc hr hv
  · exact .commandFails hc hr hv

theorem did_token {i : Instr} {s u : State} (hf : i.format = .token) (h : exec i s = .next u) : Did s i u := by
  have hw : i.wf = true := by
    cases i <;> simp only [Instr.format, reduceCtorEq] at hf
    case w n =>
      cases n with
      | zero => cases h
      | succ n => rfl
    all_goals rfl
  rcases token_cases hf hw with rfl | ⟨c, hc, rfl⟩
  · simp only [exec, execSep] at h
    split at h
    · next q hq => cases h; exact .separator hq
    all_goals cases h
  · exact did_command hc h

theorem did_connect {baud : Nat} {s u : State} (h : exec (.connect baud) s = .next u) : Did s (.connect baud) u := by
  obtain ⟨hi, h'⟩ := whenIdle_next h
  obtain ⟨hl, -⟩ := whenCreated_next h'
  obtain ⟨succeeds, fails, -⟩ := connectOpensOnce baud s hi
  cases ha : s.nextAnswer with
  | ok => rw [succeeds hl ha] at h; cases h; exact .connects baud hi hl
  | fail c => rw [fails c hl ha] at h; cases h; exact .connectFails baud hi hl
  | never => rw [exec_connect hi hl, devOpenCall_never ha] at h; cases h

theorem did_disconnect {s u : State} (h : exec .disconnect s = .next u) : Did s .disconnect u := by
  obtain ⟨hi, h'⟩ := whenIdle_next h
  have hs : s.Ready := ⟨hi, (whenConnected_next h').1⟩
  cases hl : s.anyLocked with
  | true => rw [exec_disconnect_locked hs hl] at h; cases h; exact .polls hs hl
  | false =>
    obtain ⟨hr, hw⟩ := Bool.or_eq_false_iff.1 hl
    obtain ⟨succeeds, fails⟩ := disconnectCloses s hs hr hw
    cases ha : s.nextAnswer with
    | ok => rw [succeeds ha] at h; cases h; exact .disconnects hs _ _ (.inl rfl)
    | fail c =>
      obtain ⟨isOpen, draws, closes⟩ := fails c ha
      rw [closes] at h
      cases h
      exact .disconnects hs isOpen draws (.inr ⟨c, rfl⟩)
    | never =>
      rw [exec_disconnect_free hs hl, devCloseCall_never (s := { s with life := .closed }) ha] at h
      cases h

theorem did_write {p : Bytes} {s u : State} (h : exec (.write p) s = .next u) : Did s (.write p) u := by
  obtain ⟨hi, h'⟩ := whenIdle_next h
  obtain ⟨hl, h'⟩ := whenConnected_next h'
  cases hw : s.wrLocked with
  | true => rw [State.withWriteLock, hw] at h'; cases h'
  | false =>
    obtain ⟨succeeds, fails⟩ := writeSendsWhole p s ⟨hi, hl⟩ hw
    cases ha : s.nextAnswer with
    | ok => rw [succeeds ha] at h; cases h; exact .write p _ ⟨hi, hl⟩ hw (.inl rfl)
    | fail c => rw [fails c ha] at h; cases h; exact .write p _ ⟨hi, hl⟩ hw (.inr ⟨c, rfl⟩)
    | never =>
      rw [exec_write ⟨hi, hl⟩ hw, devWriteLocked_never (s := { s with wrLocked := true }) ha] at h
      cases h

theorem controlCall_program {i : Instr} {t : Target} {P : List Command} (hi : programOf i = some (t, P)) (s : State) :
    controlCall i s = some ((runProgram t P s).reported (isCustom i)) := by
  cases i
  case setDTR => cases hi
  case setRTS => cases hi
  case sleep => cases hi
  all_goals simp only [controlCall, hi, Option.map_some]

theorem did_program {i : Instr} {t : Target} {P : List Command} {s u : State} (hi : programOf i = some (t, P))
    (hs : s.ReadyFor t) (h : exec i s = .next u) : Did s i u :=
  .control hs.1 (controlCall_program hi s) ((exec_program hi hs).symm.trans h)

/-- Every instruction that answers a next state has done what `Did` says. -/
theorem exec_did {i : Instr} {s u : State} (h : exec i s = .next u) : Did s i u := by
  cases i
  case slipEnd => exact did_symbol rfl h
  case escEndPair => exact did_symbol rfl h
  case escEscPair => exact did_symbol rfl h
  case literal => exact did_symbol rfl h
  case loneEsc => exact did_symbol rfl h
  case d0 => exact did_token rfl h
  case d1 => exact did_token rfl h
  case r0 => exact did_token rfl h
  case r1 => exact did_token rfl h
  case w => exact did_token rfl h
  case sep => exact did_token rfl h
  case encode p => cases h; exact .encode p
  case decode b => cases h; exact .decode b
  case connect => exact did_connect h
  case disconnect => exact did_disconnect h
  case setDTR => exact .control (whenIdle_next h).1 rfl (whenConnected_next (whenIdle_next h).2).2
  case setRTS => exact .control (whenIdle_next h).1 rfl (whenConnected_next (whenIdle_next h).2).2
  case sleep => exact .control (whenIdle_next h).1 rfl (whenConnected_next (whenIdle_next h).2).2
  case setFraming b =>
    obtain ⟨hi, h'⟩ := whenIdle_next h
    rw [(setFramingWritesOneField b s).1 hi (whenNotClosed_next h').1] at h
    cases h
    exact .setFraming b hi
  case write => exact did_write h
  case read => exact .read h
  case rawRead => exact .rawRead h
  case classic t d =>
    obtain ⟨hi, h'⟩ := whenIdle_next h
    obtain ⟨hl, h'⟩ := whenTarget_next h'
    have hd : d ≠ some 0 := fun e => (whenDelayPositive_next h').1 (by rw [e]; rfl)
    exact did_program (programOf_classic t hd) ⟨hi, hl⟩ h
  case usbJTAGSerial t =>
    obtain ⟨hi, h'⟩ := whenIdle_next h
    exact did_program (i := .usbJTAGSerial t) rfl ⟨hi, (whenTarget_next h').1⟩ h
  case hard t otg =>
    obtain ⟨hi, h'⟩ := whenIdle_next h
    exact did_program (i := .hard t otg) rfl ⟨hi, (whenTarget_next h').1⟩ h
  case validateCustomSequence t => cases h; exact .validate t
  case customReset t text =>
    obtain ⟨hi, h'⟩ := whenIdle_next h
    obtain ⟨hl, h'⟩ := whenTarget_next h'
    cases hv : validText text with
    | true => exact did_program (programOf_customReset t hv) ⟨hi, hl⟩ h
    | false => rw [hv] at h'; cases h'; exact .noProgram t text hi

/-! ### The access summary -/

theorem ReadOnly.keeps {s u : State} (h : ReadOnly s u) : u.framingEnabled = s.framingEnabled ∧
    u.baudRate = s.baudRate ∧ u.dtrState = s.dtrState ∧ u.life = s.life ∧ u.handle = s.handle := by
  rw [h.same]
  exact ⟨rfl, rfl, rfl, rfl, rfl⟩

/-- Settles O49: of what an instruction has done only the named ones touch each field. -/
theorem accessSummary : Obligations.AccessSummary := by
  have token : ∀ {c : Command}, writesLatch (instrOfCommand c) = false → ∀ b, c ≠ .setDTR b := by
    rintro c h b rfl
    cases b <;> cases h
  intro i s u h
  cases exec_did h with
  | encode => exact ⟨fun _ => rfl, fun _ => rfl, fun _ => rfl, fun _ => rfl, fun _ _ => rfl, rfl⟩
  | decode => exact ⟨fun _ => rfl, fun _ => rfl, fun _ => rfl, fun _ => rfl, fun _ _ => rfl, rfl⟩
  | validate => exact ⟨fun _ => rfl, fun _ => rfl, fun _ => rfl, fun _ => rfl, fun _ _ => rfl, rfl⟩
  | symbol => exact ⟨fun _ => rfl, fun _ => rfl, fun _ => rfl, fun _ => rfl, fun _ _ => rfl, rfl⟩
  | closesFrame => exact ⟨fun _ => rfl, fun _ => rfl, fun _ => rfl, fun _ => rfl, fun _ _ => rfl, rfl⟩
  | separator => exact ⟨fun _ => rfl, fun _ => rfl, fun _ => rfl, fun _ => rfl, fun _ _ => rfl, rfl⟩
  | @command c q v hc hr hv =>
    have final : (runCommand q.target c s).final = some v := congrArg Call.final hv
    have latch := fun hl => runCommand_dtrState final fun _ => token hl
    obtain ⟨leftover, framing, baud, handle, life, -⟩ := (runCommand_controlOnly final).keeps
    exact ⟨fun _ => leftover, fun _ => framing, fun _ => baud, latch, fun _ _ => life, handle⟩
  | @commandFails c q e v hc hr hv =>
    have final : (runCommand q.target c s).final = some v := congrArg Call.final hv
    have latch := fun hl => runCommand_dtrState final fun _ => token hl
    obtain ⟨leftover, framing, baud, handle, life, -⟩ := (runCommand_controlOnly final).keeps
    exact ⟨fun _ => leftover, fun _ => framing, fun _ => baud, latch, fun _ _ => life, handle⟩
  | connects baud =>
    exact ⟨nofun, fun _ => rfl, fun h => absurd rfl (h baud), fun _ => rfl, fun h => absurd rfl (h baud), rfl⟩
  | connectFails => exact ⟨fun _ => rfl, fun _ => rfl, fun _ => rfl, fun _ => rfl, fun _ _ => rfl, rfl⟩
  | polls => exact ⟨fun _ => rfl, fun _ => rfl, fun _ => rfl, fun _ => rfl, fun _ h => absurd rfl h, rfl⟩
  | disconnects => exact ⟨fun _ => rfl, fun _ => rfl, fun _ => rfl, fun _ => rfl, fun _ h => absurd rfl h, rfl⟩
  | setFraming b => exact ⟨fun _ => rfl, fun h => absurd rfl (h b), fun _ => rfl, fun _ => rfl, fun _ _ => rfl, rfl⟩
  | write => exact ⟨fun _ => rfl, fun _ => rfl, fun _ => rfl, fun _ => rfl, fun _ _ => rfl, rfl⟩
  | read h =>
    obtain ⟨framing, baud, latch, life, handle⟩ := (execRead_readOnly h).keeps
    exact ⟨nofun, fun _ => framing, fun _ => baud, fun _ => latch, fun _ _ => life, handle⟩
  | rawRead h =>
    obtain ⟨framing, baud, latch, life, handle⟩ := (execRawRead_readOnly h).keeps
    exact ⟨nofun, fun _ => framing, fun _ => baud, fun _ => latch, fun _ _ => life, handle⟩
  | control hi hc hu =>
    obtain ⟨v, r, hv, only, rfl⟩ := deliver_controlOnly (fun _ => controlCall_controlOnly hc) hu
    have latch := controlCall_dtrState hc hv
    obtain ⟨leftover, framing, baud, handle, life, -⟩ := only.keeps
    exact ⟨fun _ => leftover, fun _ => framing, fun _ => baud, latch, fun _ _ => life, handle⟩
  | noProgram => exact ⟨fun _ => rfl, fun _ => rfl, fun _ => rfl, fun _ => rfl, fun _ _ => rfl, rfl⟩

/-! ### The errors handed over -/

theorem ControlOnly.results {s u : State} (h : ControlOnly s u) : u.results = s.results := by
  rw [h.same]

/-- The last result is the one handed over. -/
theorem handed_eq {rs : List Result} {r : Result} {e : ErrorKind} (h : rs ++ [r] = rs ++ [.error e]) :
    r = .error e := List.singleton_inj.1 (List.append_cancel_left h)

/-- Nothing has been handed over. -/
theorem not_handed {rs : List Result} {r : Result} (h : rs = rs ++ [r]) : False := by
  simp at h

theorem deviceError_of_handed {rs : List Result} {r : Result} {e : ErrorKind} (hr : r.DoneOrDeviceError)
    (h : rs ++ [r] = rs ++ [.error e]) : ∃ c, e = .deviceError c := by
  obtain rfl := handed_eq h
  rcases hr with hr | ⟨c, hr⟩
  · cases hr
  · cases hr; exact ⟨c, rfl⟩

/-- R228: a command of a program in progress may raise either kind. -/
theorem mayRaise_command (c : Command) (q : SeqRun) (cause : Cause) :
    mayRaise (instrOfCommand c) (q.errorOf (.deviceError cause)) = true := by
  unfold SeqRun.errorOf
  cases c with
  | setDTR b => cases b <;> split_ifs <;> rfl
  | setRTS b => cases b <;> split_ifs <;> rfl
  | wait n => split_ifs <;> rfl

theorem error_of_readHandsOver {t : Int} {s u : State} {e : ErrorKind} (h : ReadHandsOver t s u)
    (he : u.results = s.results ++ [.error e]) : (e = .timeoutError ∧ 0 < t) ∨ ∃ c, e = .deviceError c := by
  rcases h with ⟨b, hb⟩ | ⟨ht, hb⟩ | ⟨c, hb⟩ <;> rw [hb] at he <;> cases handed_eq he
  exacts [.inl ⟨rfl, ht⟩, .inr ⟨c, rfl⟩]

/-- Settles O51: of what an instruction has done only the named ones hand over each error. -/
theorem errorsByOperation : Obligations.ErrorsByOperation := by
  intro i s u e h he
  cases exec_did h with
  | encode => cases handed_eq he
  | decode => cases handed_eq he
  | validate => cases handed_eq he
  | symbol => exact (not_handed he).elim
  | closesFrame => cases handed_eq he
  | separator => exact (not_handed he).elim
  | command hc hr hv =>
    have kept := (runCommand_controlOnly (congrArg Call.final hv)).results
    exact (not_handed (kept.symm.trans he)).elim
  | commandFails hc hr hv =>
    obtain ⟨cause, rfl⟩ := runCommand_raised hv
    rw [State.raise_results, (runCommand_controlOnly (congrArg Call.final hv)).results] at he
    cases handed_eq he
    exact mayRaise_command _ _ _
  | connects => cases handed_eq he
  | connectFails => cases handed_eq he; rfl
  | polls => exact (not_handed he).elim
  | disconnects hs isOpen draws hr => obtain ⟨c, rfl⟩ := deviceError_of_handed hr he; rfl
  | setFraming => cases handed_eq he
  | write p out hs hw hr => obtain ⟨c, rfl⟩ := deviceError_of_handed hr he; rfl
  | read h =>
    rcases error_of_readHandsOver (exec_read_results h) he with ⟨rfl, ht⟩ | ⟨c, rfl⟩
    exacts [decide_eq_true ht, rfl]
  | rawRead h =>
    rcases error_of_readHandsOver (exec_rawRead_results h) he with ⟨rfl, ht⟩ | ⟨c, rfl⟩
    exacts [decide_eq_true ht, rfl]
  | control hi hc hu =>
    rcases deliver_next hu with ⟨v, rfl, rfl⟩ | ⟨e', v, rfl, rfl⟩
    · rw [State.finish_results, (controlCall_controlOnly hc rfl).results] at he
      cases handed_eq he
    · rw [State.raise_results, (controlCall_controlOnly hc rfl).results] at he
      cases handed_eq he
      exact controlCall_raised hc
  | noProgram => cases handed_eq he

end Sys2Proof.Machine
end

