-- ==== Sys2Proof/Proofs/BaudRate.lean ====
section
/-! PROOFS. No instruction but `connect` reads or writes the baud rate (R23): run from a state that differs in it alone,
it ends alike, differing in it alone. -/

namespace Sys2Proof.Machine

/-- `s` with another baud rate. -/
abbrev State.withBaud (n : Nat) (s : State) : State := { s with baudRate := n }

/-- The outcome with its next state changed. -/
def Out.mapNext (f : State → State) : Out → Out
  | .next s => .next (f s)
  | .fault x => .fault x
  | .refused r => .refused r

/-! ### Requirements and ends -/

section
variable (n : Nat) (s : State) {k k' : Out}

theorem whenIdle_withBaud (h : k' = Out.mapNext (State.withBaud n) k) :
    (s.withBaud n).whenIdle k' = Out.mapNext (State.withBaud n) (s.whenIdle k) := by
  by_cases hi : s.run = .idle
  · rw [whenIdle_idle hi, whenIdle_idle (s := s.withBaud n) hi, h]
  · rw [whenIdle_busy hi, whenIdle_busy (s := s.withBaud n) hi]
    rfl

theorem whenConnected_withBaud (h : k' = Out.mapNext (State.withBaud n) k) :
    (s.withBaud n).whenConnected k' = Out.mapNext (State.withBaud n) (s.whenConnected k) := by
  by_cases hl : s.life = .connected
  · rw [whenConnected_connected hl, whenConnected_connected (s := s.withBaud n) hl, h]
  · rw [whenConnected_other hl, whenConnected_other (s := s.withBaud n) hl]
    rfl

theorem whenNotClosed_withBaud (h : k' = Out.mapNext (State.withBaud n) k) :
    (s.withBaud n).whenNotClosed k' = Out.mapNext (State.withBaud n) (s.whenNotClosed k) := by
  by_cases hl : s.life = .closed
  · rw [whenNotClosed_closed hl, whenNotClosed_closed (s := s.withBaud n) hl]
    rfl
  · rw [whenNotClosed_open hl, whenNotClosed_open (s := s.withBaud n) hl, h]

theorem whenTarget_withBaud (t : Target) (h : k' = Out.mapNext (State.withBaud n) k) :
    (s.withBaud n).whenTarget t k' = Out.mapNext (State.withBaud n) (s.whenTarget t k) := by
  cases t with
  | transport => exact whenConnected_withBaud n s h
  | foreign => exact h

theorem whenReady_withBaud (h : k' = Out.mapNext (State.withBaud n) k) :
    (s.withBaud n).whenIdle ((s.withBaud n).whenConnected k') =
      Out.mapNext (State.withBaud n) (s.whenIdle (s.whenConnected k)) :=
  whenIdle_withBaud n s (whenConnected_withBaud n s h)

theorem whenReadyFor_withBaud (t : Target) (h : k' = Out.mapNext (State.withBaud n) k) :
    (s.withBaud n).whenIdle ((s.withBaud n).whenTarget t k') =
      Out.mapNext (State.withBaud n) (s.whenIdle (s.whenTarget t k)) :=
  whenIdle_withBaud n s (whenTarget_withBaud n s t h)

theorem deliver_map (c : Call) : (c.map (State.withBaud n)).deliver = Out.mapNext (State.withBaud n) c.deliver := by
  cases c <;> rfl

theorem wrapErrors_map (f : State → State) (c : Call) : (c.map f).wrapErrors = c.wrapErrors.map f := by
  cases c <;> rfl

theorem whenDelayPositive_withBaud (d : Nat) (h : k' = Out.mapNext (State.withBaud n) k) :
    whenDelayPositive d k' = Out.mapNext (State.withBaud n) (whenDelayPositive d k) := by
  cases d with
  | zero => rfl
  | succ d => exact h

/-! ### Calls -/

theorem setDTRCall_withBaud (b : Bool) : setDTRCall b (s.withBaud n) = (setDTRCall b s).map (State.withBaud n) :=
  setDTRCall_replace id (fun _ => n) b s

theorem setRTSCall_withBaud (b : Bool) : setRTSCall b (s.withBaud n) = (setRTSCall b s).map (State.withBaud n) :=
  setRTSCall_replace id (fun _ => n) b s

theorem runCommand_withBaud (t : Target) (c : Command) :
    runCommand t c (s.withBaud n) = (runCommand t c s).map (State.withBaud n) :=
  runCommand_replace id (fun _ => n) t c s

theorem runProgram_withBaud (t : Target) (P : List Command) :
    runProgram t P (s.withBaud n) = (runProgram t P s).map (State.withBaud n) :=
  runProgram_replace id (fun _ => n) t P s

theorem devCloseCall_withBaud : devCloseCall (s.withBaud n) = (devCloseCall s).map (State.withBaud n) := by
  have answer : (s.withBaud n).nextAnswer = s.nextAnswer := rfl
  cases h : s.nextAnswer with
  | ok => rw [devCloseCall_ok h, devCloseCall_ok (answer.trans h)]; rfl
  | fail c => rw [devCloseCall_fail h, devCloseCall_fail (answer.trans h)]; rfl
  | never => rw [devCloseCall_never h, devCloseCall_never (answer.trans h)]; rfl

theorem devWriteLocked_withBaud (b : Bytes) :
    devWriteLocked b (s.withBaud n) = (devWriteLocked b s).map (State.withBaud n) := by
  have answer : (s.withBaud n).nextAnswer = s.nextAnswer := rfl
  cases h : s.nextAnswer with
  | ok => rw [devWriteLocked_ok h, devWriteLocked_ok (answer.trans h)]; rfl
  | fail c => rw [devWriteLocked_fail h, devWriteLocked_fail (answer.trans h)]; rfl
  | never => rw [devWriteLocked_never h, devWriteLocked_never (answer.trans h)]; rfl

/-! ### Reads -/

/-- The end of a `DevRead` with its state changed. -/
def ReadAnswer.map (f : State → State) : ReadAnswer → ReadAnswer
  | .chunk b s => .chunk b (f s)
  | .cancelled s => .cancelled (f s)
  | .failed c s => .failed c (f s)
  | .never => .never

theorem takeArrival_withBaud (a : Arrival) (rest : List Arrival) :
    takeArrival a rest (s.withBaud n) = (takeArrival a rest s).map (State.withBaud n) := by
  obtain ⟨time, c | cause⟩ := a <;> rfl

theorem devRead_withBaud (timer : Option Nat) :
    devRead timer (s.withBaud n) = (devRead timer s).map (State.withBaud n) := by
  cases hi : s.inbound with
  | nil => cases timer <;> simp only [devRead, hi] <;> rfl
  | cons a rest =>
    cases timer with
    | none => simp only [devRead, hi]; exact takeArrival_withBaud n s a rest
    | some T =>
      simp only [devRead, hi]
      split_ifs
      · rfl
      · exact takeArrival_withBaud n s a rest
      · rfl
      · rfl
      · exact takeArrival_withBaud n s.draw a rest

theorem completeRead_withBaud (r : ReadRun) : completeRead r (s.withBaud n) = (completeRead r s).withBaud n := by
  unfold completeRead
  split_ifs <;> rfl

theorem readStep_withBaud (r : ReadRun) :
    readStep r (s.withBaud n) = Out.mapNext (State.withBaud n) (readStep r s) := by
  unfold readStep
  rw [devRead_withBaud]
  cases devRead r.timer s with
  | chunk c u =>
    simp only [ReadAnswer.map, acceptChunk]
    split_ifs
    · rw [completeRead_withBaud]; rfl
    · rfl
  | cancelled u => rfl
  | failed c u => rfl
  | never => rfl

theorem readToEnd_withBaud (fuel : Nat) :
    readToEnd fuel (s.withBaud n) = Out.mapNext (State.withBaud n) (readToEnd fuel s) := by
  induction fuel generalizing s with
  | zero => rfl
  | succ fuel ih =>
    cases hr : s.run with
    | reading r =>
      rw [readToEnd_reading hr, readToEnd_reading (s := s.withBaud n) hr, readStep_withBaud]
      cases readStep r s with
      | next u => exact ih u
      | fault f => rfl
      | refused x => rfl
    | idle => rw [readToEnd_idle hr, readToEnd_idle (s := s.withBaud n) hr]; rfl
    | sequence q => simp only [readToEnd, hr]; rfl
    | closing => simp only [readToEnd, hr]; rfl

theorem finishReading_mapNext (o : Out) :
    finishReading (Out.mapNext (State.withBaud n) o) = Out.mapNext (State.withBaud n) (finishReading o) := by
  cases o with
  | next u => exact readToEnd_withBaud n u _
  | fault f => rfl
  | refused x => rfl

theorem startReading_withBaud (r : ReadRun) :
    (s.withBaud n).startReading r = Out.mapNext (State.withBaud n) (s.startReading r) := by
  unfold State.startReading
  split_ifs <;> rfl

theorem beginRead_withBaud (t : Int) (m : Nat) :
    beginRead t m (s.withBaud n) = Out.mapNext (State.withBaud n) (beginRead t m s) := by
  refine whenReady_withBaud n s ?_
  split_ifs
  · rfl
  · exact startReading_withBaud n { s with leftover := [] } _
  · rfl

theorem beginRawRead_withBaud (t : Int) :
    beginRawRead t (s.withBaud n) = Out.mapNext (State.withBaud n) (beginRawRead t s) := by
  refine whenReady_withBaud n s ?_
  cases s.leftover with
  | cons b bs => rfl
  | nil =>
    dsimp only
    split_ifs
    · exact startReading_withBaud n s _
    · rfl

/-! ### Symbols and tokens -/

theorem passSymbol_withBaud (len : Nat) (p : Bytes) (d : DeframeRun) :
    passSymbol len p d (s.withBaud n) = Out.mapNext (State.withBaud n) (passSymbol len p d s) := by
  unfold passSymbol
  split <;> rfl

theorem meetEnd_withBaud (d : DeframeRun) :
    meetEnd d (s.withBaud n) = Out.mapNext (State.withBaud n) (meetEnd d s) := by
  unfold meetEnd
  split <;> rfl

theorem afterCommand_map (q : SeqRun) (c : Call) :
    afterCommand q (c.map (State.withBaud n)) = Out.mapNext (State.withBaud n) (afterCommand q c) := by
  cases c <;> rfl

theorem stepCommand_withBaud (c : Command) :
    stepCommand c (s.withBaud n) = Out.mapNext (State.withBaud n) (stepCommand c s) := by
  have run : (s.withBaud n).run = s.run := rfl
  unfold stepCommand
  rw [run]
  cases s.run with
  | sequence q =>
    simp only [runCommand_withBaud]
    exact whenTarget_withBaud n s q.target (afterCommand_map n q _)
  | idle => rfl
  | reading r => rfl
  | closing => rfl

/-! ### Operations -/

theorem exec_write_withBaud (p : Bytes) :
    exec (.write p) (s.withBaud n) = Out.mapNext (State.withBaud n) (exec (.write p) s) := by
  refine whenReady_withBaud n s ?_
  unfold State.withWriteLock
  split_ifs
  · rfl
  · exact (congrArg Call.deliver (devWriteLocked_withBaud n { s with wrLocked := true } _)).trans (deliver_map n _)

theorem exec_disconnect_withBaud :
    exec .disconnect (s.withBaud n) = Out.mapNext (State.withBaud n) (exec .disconnect s) := by
  refine whenReady_withBaud n s ?_
  have locked : (s.withBaud n).anyLocked = s.anyLocked := rfl
  rw [locked]
  split_ifs
  · rfl
  · exact (congrArg Call.deliver (devCloseCall_withBaud n { s with life := .closed })).trans (deliver_map n _)

theorem deliver_runProgram_withBaud (t : Target) (P : List Command) : (runProgram t P (s.withBaud n)).deliver =
    Out.mapNext (State.withBaud n) (runProgram t P s).deliver := by
  rw [runProgram_withBaud, deliver_map]

theorem exec_customReset_withBaud (t : Target) (text : Text) :
    exec (.customReset t text) (s.withBaud n) = Out.mapNext (State.withBaud n) (exec (.customReset t text) s) := by
  refine whenReadyFor_withBaud n s t ?_
  split_ifs
  · rw [runProgram_withBaud, wrapErrors_map, deliver_map]
  · rfl

end

theorem exec_symbol_withBaud {i : Instr} (hf : i.format = .slip) (n : Nat) (s : State) :
    exec i (s.withBaud n) = Out.mapNext (State.withBaud n) (exec i s) := by
  cases hw : i.wf with
  | false =>
    rw [exec_symbol_illFormed hf hw, exec_symbol_illFormed hf hw]
    rfl
  | true =>
    cases hd : s.codec with
    | none =>
      rw [exec_symbol_noDecode hd hf hw, exec_symbol_noDecode (s := s.withBaud n) hd hf hw]
      rfl
    | some d =>
      by_cases hi : i = .slipEnd
      · subst hi
        rw [exec_slipEnd hd, exec_slipEnd (s := s.withBaud n) hd, meetEnd_withBaud]
      · rw [exec_symbol hd hf hw hi, exec_symbol (s := s.withBaud n) hd hf hw hi, passSymbol_withBaud]

/-- R23: every instruction but `connect`. -/
theorem exec_withBaud {i : Instr} (hi : ∀ b, i ≠ .connect b) (n : Nat) (s : State) :
    exec i (s.withBaud n) = Out.mapNext (State.withBaud n) (exec i s) := by
  cases i
  case slipEnd => exact exec_symbol_withBaud rfl n s
  case escEndPair => exact exec_symbol_withBaud rfl n s
  case escEscPair => exact exec_symbol_withBaud rfl n s
  case literal => exact exec_symbol_withBaud rfl n s
  case loneEsc => exact exec_symbol_withBaud rfl n s
  case d0 => exact stepCommand_withBaud n s _
  case d1 => exact stepCommand_withBaud n s _
  case r0 => exact stepCommand_withBaud n s _
  case r1 => exact stepCommand_withBaud n s _
  case w m =>
    cases m with
    | zero => rfl
    | succ m => exact stepCommand_withBaud n s _
  case sep =>
    simp only [exec, execSep]
    cases s.run <;> rfl
  case encode => rfl
  case decode => rfl
  case connect baud => exact absurd rfl (hi baud)
  case disconnect => exact exec_disconnect_withBaud n s
  case setDTR b => exact whenReady_withBaud n s (by rw [setDTRCall_withBaud, deliver_map])
  case setRTS b => exact whenReady_withBaud n s (by rw [setRTSCall_withBaud, deliver_map])
  case sleep => exact whenReady_withBaud n s rfl
  case setFraming => exact whenIdle_withBaud n s (whenNotClosed_withBaud n s rfl)
  case write p => exact exec_write_withBaud n s p
  case read t m => exact (congrArg finishReading (beginRead_withBaud n s t m)).trans (finishReading_mapNext n _)
  case rawRead t => exact (congrArg finishReading (beginRawRead_withBaud n s t)).trans (finishReading_mapNext n _)
  case classic t d =>
    exact whenReadyFor_withBaud n s t (whenDelayPositive_withBaud n _ (deliver_runProgram_withBaud n s t _))
  case usbJTAGSerial t => exact whenReadyFor_withBaud n s t (deliver_runProgram_withBaud n s t _)
  case hard t otg => exact whenReadyFor_withBaud n s t (deliver_runProgram_withBaud n s t _)
  case validateCustomSequence => rfl
  case customReset t text => exact exec_customReset_withBaud n s t text

/-- Settles O50. -/
theorem baudRateNeverRead : Obligations.BaudRateNeverRead := by
  intro i s n hi
  rw [exec_withBaud hi n s]
  cases exec i s <;> rfl

end Sys2Proof.Machine
end

