-- ==== Sys2Proof/Proofs/Steps.lean ====
section
/-! PROOFS. One step of the machine: what it runs, by what is in progress, and what follows from that for every step
that answers a next state (R25, R231). -/

namespace Sys2Proof.Machine

/-! ### What a step runs -/

theorem decodeSymbol_of_decodeInstr {b rest : Bytes} {i : Instr} (h : decodeInstr (.wire b) = .ok (i, .wire rest)) :
    decodeSymbol b = .ok (i, rest) := by
  unfold decodeInstr at h
  cases hd : decodeSymbol b with
  | error e => simp [hd] at h
  | ok p =>
    obtain ⟨j, r⟩ := p
    simp only [hd, Except.ok.injEq, Prod.mk.injEq, Code.wire.injEq] at h
    obtain ⟨rfl, rfl⟩ := h
    rfl

theorem decodeToken_of_decodeInstr {t rest : Text} {i : Instr}
    (h : decodeInstr (.chars t) = .ok (i, .chars rest)) : decodeToken t = .ok (i, rest) := by
  unfold decodeInstr at h
  cases hd : decodeToken t with
  | error e => simp [hd] at h
  | ok p =>
    obtain ⟨j, r⟩ := p
    simp only [hd, Except.ok.injEq, Prod.mk.injEq, Code.chars.injEq] at h
    obtain ⟨rfl, rfl⟩ := h
    rfl

/-- What a step makes of what is fetched. -/
def Fetched.outcome : Fetched → Out
  | .instr i s => exec i s
  | .other o => o

theorem step_eq_outcome (s : State) : step s = (fetch s).outcome := by
  unfold step
  cases fetch s <;> rfl

/-- Log 1: an operation without small steps of its own runs whole. -/
theorem invokedStepped_whole {i : Instr} (ho : i.format = .op) (hs : hasSmallSteps i = false) (u : State) :
    invokedStepped i u = .instr i u := by
  cases i <;> simp only [Instr.format, reduceCtorEq] at ho
  case decode => cases hs
  case read => cases hs
  case rawRead => cases hs
  case classic => cases hs
  case usbJTAGSerial => cases hs
  case hard => cases hs
  case customReset => cases hs
  all_goals rfl

section
variable {s : State}

/-- Log 1: an operation invoked to run in small steps. -/
theorem step_invokeStepped {i : Instr} {rest : List Input} (hc : s.codec = none) (hr : s.run = .idle)
    (hi : s.inputs = .invokeStepped i :: rest) : step s = (invokedStepped i { s with inputs := rest }).outcome := by
  rw [step_eq_outcome]
  simp only [fetch, hc, fetchUrgent, hi, continueRun, hr, fetchInput]

theorem step_device {e : DeviceEvent} {rest : List Input} (hc : s.codec = none)
    (hi : s.inputs = .device e :: rest) : step s = .next (deviceActs e { s with inputs := rest }) := by
  simp [step, fetch, hc, fetchUrgent, hi]

end

/-- Settles O57, by what is in progress and what comes first of the inputs. -/
theorem stepRunsTheInstruction : Obligations.StepRunsTheInstruction := by
  refine ⟨fun s d i rest hc hd => step_symbol hc (decodeSymbol_of_decodeInstr hd),
    fun s d hc hd => step_endOfBuffer hc (List.drop_eq_nil_of_le hd),
    fun s q i rest hc hu hr hd => step_token hc hu hr (decodeToken_of_decodeInstr hd),
    fun s q hc hu hr hd => step_endOfText hc hu hr hd,
    fun s r hc hu hr => step_reading hc hu hr,
    fun s i rest hc hr hi ho => step_invoke hc hr hi ho,
    fun s i rest hc hi ho => step_invokeNow hc hi ho,
    fun s i rest hc hr hi ho hs => ?whole, fun s i rest hc hr hi => ?begins, fun s e rest hc hi => ?device,
    fun s hc hr hi => step_idle hc hr hi⟩
  case whole => rw [step_invokeStepped hc hr hi, invokedStepped_whole (beq_iff_eq.1 ho) hs, Fetched.outcome]
  case begins =>
    rw [step_invokeStepped hc hr hi]
    refine ⟨?_, ?_, ?_, ?_, ?_, ?_, ?_⟩
    · rintro b rfl; rfl
    · rintro t m rfl; rfl
    · rintro t rfl; rfl
    · rintro t d rfl; rfl
    · rintro t rfl; rfl
    · rintro t otg rfl; rfl
    · rintro t text rfl; rfl
  case device =>
    rw [step_device hc hi]
    refine ⟨?_, ?_, ?_, ?_⟩
    · rintro b rfl; rfl
    · rintro a rfl; rfl
    · rintro a rfl; rfl
    · rintro a rfl; rfl

/-! ### No way back from Closed -/

theorem ControlOnly.life {s u : State} (h : ControlOnly s u) : u.life = s.life := by
  rw [h.same]

/-- R25: only `connect` leaves a lifecycle state for another than `Closed`, and it is refused in `Closed`. -/
theorem exec_closed {i : Instr} {s u : State} (h : exec i s = .next u) (hl : s.life = .closed) : u.life = .closed := by
  by_cases hc : ∃ n, i = .connect n
  · obtain ⟨n, rfl⟩ := hc
    have created := (whenCreated_next (whenIdle_next h).2).1
    rw [created] at hl
    cases hl
  by_cases hd : i = .disconnect
  · subst hd
    have connected := (whenConnected_next (whenIdle_next h).2).1
    rw [connected] at hl
    cases hl
  obtain ⟨-, -, -, -, life, -⟩ := accessSummary i s u h
  exact (life (fun n e => hc ⟨n, e⟩) hd).trans hl

theorem pollStep_closed {s u : State} (h : pollStep s = .next u) (hl : s.life = .closed) : u.life = .closed := by
  unfold pollStep at h
  split_ifs at h
  · cases h; exact hl
  · rcases devCloseCall_cases s with ⟨-, k⟩ | ⟨c, -, k⟩ | ⟨-, k⟩ <;> rw [k] at h <;> cases h
    exacts [hl, hl]

/-- Settles O53, by everything that a step can have been. -/
theorem closedIsForever : Obligations.ClosedIsForever := by
  refine step_next (P := fun s u => s.life = .closed → u.life = .closed)
    (instr := fun i s u h => exec_closed h) (input := fun s rest u h => h) (endOfDecode := fun d s h => h)
    (decodeBegins := fun b s h => h) (readBegins := fun t m s u h hl => ?read)
    (rawReadBegins := fun t s u h hl => ?rawRead) (programBegins := fun q s hi h => h) (ends := fun s h => h)
    (reads := fun r s u h hl => ?reads) (polls := fun s u hr h => pollStep_closed h) (device := fun e s h => ?device)
    (rests := fun s h => h)
  case read => rw [(beginRead_readOnly h).same]; exact hl
  case rawRead => rw [(beginRawRead_readOnly h).same]; exact hl
  case reads => rw [(readStep_readOnly h).same]; exact hl
  case device => cases e <;> exact h

/-! ### Errors end what is in progress -/

/-- R231: an instruction that has handed over an error has left the block idle. -/
theorem exec_error_idle {i : Instr} {s u : State} {e : ErrorKind} (h : exec i s = .next u)
    (he : u.results = s.results ++ [.error e]) : u.run = .idle := by
  cases exec_did h with
  | encode => cases handed_eq he
  | decode => cases handed_eq he
  | validate => cases handed_eq he
  | symbol => exact (not_handed he).elim
  | closesFrame => cases handed_eq he
  | separator => exact (not_handed he).elim
  | command hc hr hv =>
    exact (not_handed ((runCommand_controlOnly (congrArg Call.final hv)).results.symm.trans he)).elim
  | commandFails => rfl
  | connects baud hi => exact hi
  | connectFails baud hi => exact hi
  | polls => exact (not_handed he).elim
  | disconnects hs => exact hs.1
  | setFraming b hi => exact hi
  | write p out hs => exact hs.1
  | read h =>
    obtain ⟨v, hv, hu⟩ := finishReading_next h
    exact readToEnd_ends (beginRead_run hv) hu
  | rawRead h =>
    obtain ⟨v, hv, hu⟩ := finishReading_next h
    exact readToEnd_ends (beginRawRead_run hv) hu
  | control hi hc hu => exact deliver_idle hu
  | noProgram => rfl

/-- R155, R159: so has a step of a read. -/
theorem readStep_error_idle {r : ReadRun} {s u : State} {e : ErrorKind} (h : readStep r s = .next u)
    (he : u.results = s.results ++ [.error e]) : u.run = .idle := by
  rcases readStep_cases r s with ⟨_, _, _, _, -, -, k⟩ | ⟨_, _, _, _, -, -, k⟩ | ⟨_, _, -, k⟩ |
    ⟨_, _, _, _, -, k⟩ | ⟨-, -, k⟩ <;> rw [k] at h <;> cases h
  exacts [completeRead_run _ _, (not_handed he).elim, rfl, rfl]

theorem pollStep_error_idle {s u : State} {e : ErrorKind} (h : pollStep s = .next u)
    (he : u.results = s.results ++ [.error e]) : u.run = .idle := by
  unfold pollStep at h
  split_ifs at h
  · cases h; exact (not_handed he).elim
  · exact deliver_idle h

theorem step_error_idle : ∀ s u : State, step s = .next u →
    ∀ e : ErrorKind, u.results = s.results ++ [Result.error e] → u.run = .idle := by
  refine step_next (P := fun s u => ∀ e : ErrorKind, u.results = s.results ++ [Result.error e] → u.run = .idle)
    (instr := fun i s u h e => exec_error_idle h) (input := fun s rest u h => h)
    (endOfDecode := fun d s e he => nomatch handed_eq (e := e) he)
    (decodeBegins := fun b s e he => (not_handed he).elim) (readBegins := fun t m s u h e he => ?read)
    (rawReadBegins := fun t s u h e he => ?rawRead)
    (programBegins := fun q s hi e he => (not_handed he).elim) (ends := fun s e he => rfl)
    (reads := fun r s u h e => readStep_error_idle h) (polls := fun s u hr h e => pollStep_error_idle h)
    (device := fun d s e he => ?device) (rests := fun s e he => (not_handed he).elim)
  case read =>
    obtain ⟨hi, -, rfl | ⟨-, rfl⟩ | rfl⟩ := beginRead_next h
    exacts [hi, (not_handed he).elim, hi]
  case rawRead =>
    obtain ⟨hi, -, ⟨-, rfl⟩ | ⟨-, -, rfl⟩ | ⟨-, rfl⟩⟩ := beginRawRead_next h
    exacts [hi, (not_handed he).elim, hi]
  case device => cases d <;> exact (not_handed he).elim

end Sys2Proof.Machine
end

