-- ==== Sys2Proof/Proofs/Invariant.lean ====
section
/-! PROOFS. The invariant (R21, R25, R31, R33, R34, R206): every operation, every step of an operation in progress and
with them every step of the machine keeps it. -/

namespace Sys2Proof.Machine

/-! ### What a step can be -/

/-- The outcomes a step can have, each with what is in progress and what was fetched. -/
inductive StepIs (s : State) : Out → Prop
  | symbol {d : DeframeRun} {i : Instr} {rest : Bytes} (hc : s.codec = some d)
      (hi : decodeSymbol d.ahead = .ok (i, rest)) : StepIs s (exec i s)
  | endOfBuffer {d : DeframeRun} (hc : s.codec = some d) : StepIs s (endOfBuffer d s)
  | operation {i : Instr} (rest : List Input) (hi : i.isOp = true) : StepIs s (exec i { s with inputs := rest })
  | begins {i : Instr} (rest : List Input) : StepIs s (invokedStepped i { s with inputs := rest }).outcome
  | notOperation : StepIs s (.refused .notAnOperation)
  | token {q : SeqRun} {i : Instr} {rest : Text} (hr : s.run = .sequence q) (hi : decodeToken q.rest = .ok (i, rest)) :
      StepIs s (exec i s)
  | undecodable {q : SeqRun} {e : DecodeError} (hr : s.run = .sequence q) (hne : q.rest ≠ [])
      (he : decodeToken q.rest = .error e) : StepIs s (.refused (.undecodable e))
  | endOfText {q : SeqRun} (hr : s.run = .sequence q) : StepIs s (.next (s.finish .done))
  | reads {r : ReadRun} (hr : s.run = .reading r) : StepIs s (readStep r s)
  | polls (hr : s.run = .closing) : StepIs s (pollStep s)
  | device (e : DeviceEvent) (rest : List Input) : StepIs s (.next (deviceActs e { s with inputs := rest }))
  | rests : StepIs s (.next s)

theorem invoked_is (s : State) (i : Instr) (rest : List Input) :
    StepIs s (invoked i { s with inputs := rest }).outcome := by
  cases hi : i.isOp with
  | true => simp only [invoked, hi, if_true, Fetched.outcome]; exact .operation rest hi
  | false => simp only [invoked, hi, Bool.false_eq_true, if_false, Fetched.outcome]; exact .notOperation

theorem fetchSymbol_is {s : State} {d : DeframeRun} (hc : s.codec = some d) :
    StepIs s (fetchSymbol d s).outcome := by
  unfold fetchSymbol
  split
  · next i rest hi => exact .symbol hc hi
  · exact .endOfBuffer hc

theorem fetchToken_is {s : State} {q : SeqRun} (hr : s.run = .sequence q) : StepIs s (fetchToken q s).outcome := by
  unfold fetchToken
  split
  · exact .endOfText hr
  · next c cs hq =>
    split
    · next i rest hi => exact .token hr (hq ▸ hi)
    · next e he => exact .undecodable hr (by rw [hq]; nofun) (hq ▸ he)

theorem fetchInput_is (s : State) : StepIs s (fetchInput s).outcome := by
  unfold fetchInput
  split
  · exact .rests
  · exact invoked_is s _ _
  · exact .begins _
  · exact invoked_is s _ _
  · exact .device _ _

theorem continueRun_is (s : State) : StepIs s (continueRun s).outcome := by
  unfold continueRun
  split
  · exact fetchInput_is s
  · next q hr => exact fetchToken_is hr
  · next r hr => exact .reads hr
  · next hr => exact .polls hr

theorem fetchUrgent_is (s : State) : StepIs s (fetchUrgent s).outcome := by
  unfold fetchUrgent
  split
  · exact invoked_is s _ _
  · exact .device _ _
  · exact continueRun_is s
  · exact continueRun_is s
  · exact continueRun_is s

theorem step_is (s : State) : StepIs s (step s) := by
  rw [step_eq_outcome, fetch]
  split
  · next d hc => exact fetchSymbol_is hc
  · exact fetchUrgent_is s

/-! ### What the invariant looks at -/

/-- R55: an entry that is no chunk adds nothing to what was received. -/
theorem received_append {s u : State} {es : List DevEvent} (h : u.devTrace = s.devTrace ++ es)
    (hes : ∀ e ∈ es, receivedIn e = []) : u.received = s.received := by
  have none : es.flatMap receivedIn = [] := List.flatMap_eq_nil_iff.2 hes
  rw [State.received, h, List.flatMap_append, none, List.append_nil]
  rfl

/-- The invariant is about these fields alone. -/
structure Alike (s u : State) : Prop where
  leftover : u.leftover = s.leftover
  received : u.received = s.received
  rdLocked : u.rdLocked = s.rdLocked
  wrLocked : u.wrLocked = s.wrLocked
  run : u.run = s.run
  life : u.life = s.life
  codec : u.codec = s.codec
  devOpen : u.devOpen = s.devOpen

theorem State.Inv.alike {s u : State} (h : s.Inv) (a : Alike s u) : u.Inv where
  heldSuffix := by
    have held : u.held = s.held := by rw [State.held, State.held, a.run, a.leftover]
    rw [held, a.received]
    exact h.heldSuffix
  writeLockFree := a.wrLocked.trans h.writeLockFree
  runFits := by
    have fits : u.run.fits u = s.run.fits s := by
      rw [a.run]
      cases s.run <;> simp only [Run.fits, a.rdLocked, a.leftover, a.life]
    exact fits.trans h.runFits
  codecFits := fun d hd => h.codecFits d (a.codec ▸ hd)
  openFits := by
    have fits : u.openFits = s.openFits := by rw [State.openFits, State.openFits, a.life, a.devOpen]
    exact fits.trans h.openFits

theorem ControlOnly.received {s u : State} (h : ControlOnly s u) : u.received = s.received := by
  obtain ⟨-, es, trace, noChunk⟩ := h
  refine received_append trace fun e he => ?_
  cases e with
  | rx c => exact absurd rfl (noChunk _ he c)
  | _ => rfl

theorem ControlOnly.alike {s u : State} (h : ControlOnly s u) : Alike s u := by
  obtain ⟨leftover, -, -, -, life, rdLocked, wrLocked, run, codec, devOpen, -⟩ := h.keeps
  exact ⟨leftover, h.received, rdLocked, wrLocked, run, life, codec, devOpen⟩

section
variable {s : State} (h : s.Inv)
include h

/-- R21, R33: with nothing in progress the leftover is what is held, and the read lock is free. -/
theorem inv_of_idle (hr : s.run = .idle) : s.leftover <:+ s.received ∧ s.rdLocked = false := by
  have held := h.heldSuffix
  have fits := h.runFits
  rw [State.held, hr] at held
  rw [hr, Run.fits, Bool.not_eq_true'] at fits
  exact ⟨held, fits⟩

/-- R33: with nothing in progress both locks are free. -/
theorem inv_anyLocked_idle (hr : s.run = .idle) : s.anyLocked = false :=
  anyLocked_eq_false (inv_of_idle h hr).2 h.writeLockFree

/-- R34: a read in progress holds the lock and all bytes, of a connected Transport. -/
theorem inv_of_reading {r : ReadRun} (hr : s.run = .reading r) :
    r.acc <:+ s.received ∧ s.rdLocked = true ∧ s.leftover = [] ∧ s.life = .connected := by
  have held := h.heldSuffix
  have fits := h.runFits
  rw [State.held, hr] at held
  rw [hr, Run.fits, Bool.and_eq_true_iff, Bool.and_eq_true_iff, beq_iff_eq, beq_iff_eq] at fits
  obtain ⟨⟨locked, empty⟩, connected⟩ := fits
  exact ⟨held, locked, empty, connected⟩

/-- R206: what a program in progress holds. -/
theorem inv_of_sequence {q : SeqRun} (hr : s.run = .sequence q) : s.leftover <:+ s.received ∧ s.rdLocked = false ∧
    restValid q.rest = true ∧ (q.target == .foreign || s.life == .connected) = true := by
  have held := h.heldSuffix
  have fits := h.runFits
  rw [State.held, hr] at held
  rw [hr, Run.fits, Bool.and_eq_true_iff, Bool.and_eq_true_iff, Bool.not_eq_true'] at fits
  obtain ⟨⟨free, valid⟩, target⟩ := fits
  exact ⟨held, free, valid, target⟩

/-- Becoming or staying idle, with the read lock free. -/
theorem inv_idle {u : State} (hr : u.run = .idle) (leftover : u.leftover <:+ u.received) (rdLocked : u.rdLocked = false)
    (wrLocked : u.wrLocked = s.wrLocked) (codec : u.codec = s.codec) (openFits : u.openFits = true) : u.Inv where
  heldSuffix := by rw [State.held, hr]; exact leftover
  writeLockFree := wrLocked.trans h.writeLockFree
  runFits := by rw [hr, Run.fits, rdLocked]; rfl
  codecFits := fun d hd => h.codecFits d (codec ▸ hd)
  openFits := openFits

/-- R206: a program in progress with a valid text to run. -/
theorem inv_sequencing {u : State} {q : SeqRun} (hr : u.run = .sequence q) (leftover : u.leftover <:+ u.received)
    (rdLocked : u.rdLocked = false) (valid : restValid q.rest = true)
    (target : (q.target == .foreign || u.life == .connected) = true)
    (wrLocked : u.wrLocked = s.wrLocked) (codec : u.codec = s.codec) (openFits : u.openFits = true) : u.Inv where
  heldSuffix := by rw [State.held, hr]; exact leftover
  writeLockFree := wrLocked.trans h.writeLockFree
  runFits := by rw [hr, Run.fits, rdLocked, valid, target]; rfl
  codecFits := fun d hd => h.codecFits d (codec ▸ hd)
  openFits := openFits

/-- R34: a read in progress. -/
theorem inv_inRead {u : State} {r : ReadRun} (hr : u.run = .reading r) (acc : r.acc <:+ u.received)
    (rdLocked : u.rdLocked = true) (leftover : u.leftover = []) (life : u.life = .connected)
    (wrLocked : u.wrLocked = s.wrLocked) (codec : u.codec = s.codec) (openFits : u.openFits = true) : u.Inv where
  heldSuffix := by rw [State.held, hr]; exact acc
  writeLockFree := wrLocked.trans h.writeLockFree
  runFits := by rw [hr, Run.fits, rdLocked, leftover, life]; rfl
  codecFits := fun d hd => h.codecFits d (codec ▸ hd)
  openFits := openFits

/-- An operation that was not in progress hands over its result. -/
theorem inv_finish (hr : s.run = .idle) (r : Result) : (s.finish r).Inv := by
  obtain ⟨held, free⟩ := inv_of_idle h hr
  exact inv_idle h rfl held free rfl rfl h.openFits

/-! ### A read in progress -/

theorem inv_readStep {r : ReadRun} {u : State} (hr : s.run = .reading r) (hu : readStep r s = .next u) : u.Inv := by
  obtain ⟨acc, locked, empty, connected⟩ := inv_of_reading h hr
  have extended : ∀ c : Bytes, r.acc ++ c <:+ (s.devTrace ++ [DevEvent.rx c]).flatMap receivedIn := by
    intro c
    rw [List.flatMap_append, List.flatMap_singleton]
    obtain ⟨before, hb⟩ := acc
    exact ⟨before, by rw [← List.append_assoc, hb]; rfl⟩
  rcases readStep_cases r s with ⟨_, c, _, _, -, -, k⟩ | ⟨_, c, _, _, -, -, k⟩ | ⟨T, _, -, k⟩ |
    ⟨_, cause, _, _, -, k⟩ | ⟨-, -, k⟩ <;> rw [k] at hu <;> cases hu
  · have kept : keptOf r.deframes (r.acc ++ c) <:+ (s.devTrace ++ [DevEvent.rx c]).flatMap receivedIn := by
      cases r.deframes with
      | true => exact (slipDecode_remainder_suffix _).trans (extended c)
      | false => exact List.nil_suffix
    rw [completeRead_eq]
    · exact inv_idle h rfl kept rfl rfl rfl h.openFits
    · exact empty
  · exact inv_inRead h rfl (extended c) locked empty connected rfl rfl h.openFits
  · refine inv_idle h rfl ?_ rfl rfl rfl h.openFits
    rw [received_append (s := s) (es := [.cancel]) rfl (by simp [receivedIn])]
    exact acc
  · exact inv_idle h rfl acc rfl rfl rfl h.openFits

theorem inv_beginRead {t : Int} {m : Nat} {u : State} (hu : beginRead t m s = .next u) : u.Inv := by
  obtain ⟨hr, connected, hu⟩ := beginRead_next hu
  obtain ⟨held, free⟩ := inv_of_idle h hr
  rcases hu with rfl | ⟨-, rfl⟩ | rfl
  · exact inv_idle h hr ((slipDecode_remainder_suffix _).trans held) free rfl rfl h.openFits
  · exact inv_inRead h rfl held rfl rfl connected rfl rfl h.openFits
  · exact h.alike ⟨rfl, rfl, rfl, rfl, rfl, rfl, rfl, rfl⟩

theorem inv_beginRawRead {t : Int} {u : State} (hu : beginRawRead t s = .next u) : u.Inv := by
  obtain ⟨hr, connected, hu⟩ := beginRawRead_next hu
  obtain ⟨-, free⟩ := inv_of_idle h hr
  rcases hu with ⟨-, rfl⟩ | ⟨empty, -, rfl⟩ | ⟨-, rfl⟩
  · exact inv_idle h hr List.nil_suffix free rfl rfl h.openFits
  · exact inv_inRead h rfl List.nil_suffix rfl empty connected rfl rfl h.openFits
  · exact h.alike ⟨rfl, rfl, rfl, rfl, rfl, rfl, rfl, rfl⟩

end

theorem inv_finishReading {o : Out} (hb : ∀ v, o = .next v → v.Inv) {u : State} (hu : finishReading o = .next u) :
    u.Inv :=
  finishReading_keeps (P := State.Inv) (fun _ _ _ hr hs hv => inv_readStep hv hr hs) hb hu

/-! ### Operations -/

theorem isOp_instrOfCommand (c : Command) : (instrOfCommand c).isOp = false := by
  cases c with
  | setDTR b => cases b <;> rfl
  | setRTS b => cases b <;> rfl
  | wait n => rfl

/-- R21 to R36: an operation that runs whole. -/
theorem inv_operation {i : Instr} {s u : State} (hi : i.isOp = true) (h : s.Inv) (hu : exec i s = .next u) : u.Inv := by
  cases exec_did hu with
  | encode => exact h.alike ⟨rfl, rfl, rfl, rfl, rfl, rfl, rfl, rfl⟩
  | decode => exact h.alike ⟨rfl, rfl, rfl, rfl, rfl, rfl, rfl, rfl⟩
  | validate => exact h.alike ⟨rfl, rfl, rfl, rfl, rfl, rfl, rfl, rfl⟩
  | symbol hf => rw [Instr.isOp, hf] at hi; cases hi
  | closesFrame => cases hi
  | separator => cases hi
  | command => rw [isOp_instrOfCommand] at hi; cases hi
  | commandFails => rw [isOp_instrOfCommand] at hi; cases hi
  | connects baud hr =>
    obtain ⟨-, free⟩ := inv_of_idle h hr
    exact inv_idle h hr List.nil_suffix free rfl rfl rfl
  | connectFails baud hr =>
    exact h.alike
      ⟨rfl, received_append (es := [.open baud]) rfl (by simp [receivedIn]), rfl, rfl, rfl, rfl, rfl, rfl⟩
  | polls hs hl => rw [inv_anyLocked_idle h hs.1] at hl; cases hl
  | disconnects hs =>
    obtain ⟨held, free⟩ := inv_of_idle h hs.1
    refine inv_idle h hs.1 ?_ free rfl rfl rfl
    rw [received_append (s := s) (es := [.close]) rfl (by simp [receivedIn])]
    exact held
  | setFraming => exact h.alike ⟨rfl, rfl, rfl, rfl, rfl, rfl, rfl, rfl⟩
  | write p out =>
    exact h.alike ⟨rfl, received_append (es := [.tx out]) rfl (by simp [receivedIn]), rfl, rfl, rfl, rfl, rfl, rfl⟩
  | read hu => exact inv_finishReading (fun _ => inv_beginRead h) hu
  | rawRead hu => exact inv_finishReading (fun _ => inv_beginRawRead h) hu
  | control hr hc hu =>
    obtain ⟨v, r, -, only, rfl⟩ := deliver_controlOnly (fun _ => controlCall_controlOnly hc) hu
    exact inv_finish (h.alike only.alike) (only.alike.run.trans hr) r
  | noProgram t text hr => exact inv_finish h hr _

/-! ### A program in progress -/

/-- R206: behind the token at the front, if there is one, a valid rest is valid. -/
theorem restValid_behind {t : Text} (h : restValid t = true) : restValid (afterToken t) = true := by
  rcases restValid_decodes h with rfl | ⟨u, rfl, -⟩ | ⟨c, hv, -⟩
  · rfl
  · have here : afterToken (sepChar :: u) = sepChar :: u := List.dropWhile_cons_of_neg (by simp)
    rw [here]
    exact h
  · exact restValid_afterToken hv

/-- R206, R228: the commands of a program in progress. -/
theorem inv_command {c : Command} {s u : State} (h : s.Inv) (hu : stepCommand c s = .next u) : u.Inv := by
  obtain ⟨q, hr, -, hcall⟩ := stepCommand_next hu
  have called : ∀ v, (runCommand q.target c s).final = some v → v.Inv ∧ Alike s v := fun v hv =>
    have alike := (runCommand_controlOnly hv).alike
    ⟨h.alike alike, alike⟩
  rcases hcall with ⟨v, hv, rfl⟩ | ⟨e, v, hv, rfl⟩
  · obtain ⟨inv, alike⟩ := called v (by rw [hv]; rfl)
    obtain ⟨leftover, free, valid, target⟩ := inv_of_sequence inv (alike.run.trans hr)
    exact inv_sequencing inv rfl leftover free (restValid_behind valid) target rfl rfl inv.openFits
  · obtain ⟨inv, alike⟩ := called v (by rw [hv]; rfl)
    obtain ⟨leftover, free, -, -⟩ := inv_of_sequence inv (alike.run.trans hr)
    exact inv_idle inv rfl leftover free rfl rfl inv.openFits

/-- R201, R206: a step at a token or separator of a program in progress. -/
theorem inv_token {q : SeqRun} {i : Instr} {rest : Text} {s u : State} (h : s.Inv) (hr : s.run = .sequence q)
    (hi : decodeToken q.rest = .ok (i, rest)) (hu : exec i s = .next u) : u.Inv := by
  obtain ⟨leftover, free, valid, target⟩ := inv_of_sequence h hr
  rcases restValid_decodes valid with hq | ⟨text, hq, hv, hd⟩ | ⟨c, -, hc, hd⟩
  · rw [hq] at hi; cases hi
  · rw [hd] at hi
    cases hi
    rw [separatorPassedOver q s hr] at hu
    cases hu
    have behind : restValid q.rest.tail = true := by rw [hq]; exact restValid_of_validText hv
    exact inv_sequencing h rfl leftover free behind target rfl rfl h.openFits
  · rw [hd] at hi
    cases hi
    rw [exec_instrOfCommand (positive_of_parseToken hc)] at hu
    exact inv_command h hu

/-! ### A decode in progress -/

/-- R31: what the invariant says of a `decode` in progress before its START. -/
theorem fits_before {d : DeframeRun} (hs : d.start = none) : d.fits = true ↔
    d.pos ≤ d.buffer.length ∧ d.out = [] ∧ endMarker ∉ d.buffer.take d.pos := by
  simp [DeframeRun.fits, hs]

/-- R31: and inside a frame. -/
theorem fits_inside {d : DeframeRun} {k : Nat} (hs : d.start = some k) : d.fits = true ↔
    d.pos ≤ d.buffer.length ∧ k < d.pos ∧ d.buffer[k]? = some endMarker := by
  simp [DeframeRun.fits, hs]

theorem fits_pos {d : DeframeRun} (h : d.fits = true) : d.pos ≤ d.buffer.length := by
  cases hs : d.start with
  | none => exact ((fits_before hs).1 h).1
  | some k => exact ((fits_inside hs).1 h).1

/-- The bytes ahead are bytes of the buffer. -/
theorem pos_add_le {d : DeframeRun} {a b : Bytes} (h : d.pos ≤ d.buffer.length) (hd : d.ahead = a ++ b) :
    d.pos + a.length ≤ d.buffer.length := by
  have length := congrArg List.length hd
  rw [DeframeRun.ahead, List.length_drop, List.length_append] at length
  omega

theorem take_add_of_ahead {d : DeframeRun} {a b : Bytes} (hd : d.ahead = a ++ b) :
    d.buffer.take (d.pos + a.length) = d.buffer.take d.pos ++ a := by
  have front : d.buffer.drop d.pos = a ++ b := hd
  rw [List.take_add, front, List.take_left]

/-- R83: a symbol that is no END is passed. -/
theorem fits_pass {d : DeframeRun} {a b : Bytes} (h : d.fits = true) (hd : d.ahead = a ++ b) (ha : endMarker ∉ a)
    (p : Bytes) : (d.pass a.length p).fits = true := by
  have pos := pos_add_le (fits_pos h) hd
  cases hs : d.start with
  | none =>
    obtain ⟨-, out, before⟩ := (fits_before hs).1 h
    refine (fits_before (d := d.pass a.length p) hs).2 ⟨pos, (if_pos hs).trans out, ?_⟩
    show endMarker ∉ d.buffer.take (d.pos + a.length)
    rw [take_add_of_ahead hd]
    exact fun hm => (List.mem_append.1 hm).elim before ha
  | some k =>
    obtain ⟨-, behind, start⟩ := (fits_inside hs).1 h
    exact (fits_inside (d := d.pass a.length p) hs).2 ⟨pos, Nat.lt_add_right _ behind, start⟩

/-- R113: the START is met. -/
theorem fits_start {d : DeframeRun} {b : Bytes} (h : d.fits = true) (hd : d.ahead = endMarker :: b) :
    DeframeRun.fits { d with pos := d.pos + 1, start := some d.pos } = true := by
  have start : d.buffer[d.pos]? = some endMarker := by
    rw [← List.head?_drop]
    exact congrArg List.head? hd
  exact (fits_inside rfl).2 ⟨pos_add_le (a := [endMarker]) (fits_pos h) hd, Nat.lt_succ_self _, start⟩

/-- Only the `decode` in progress has changed. -/
theorem inv_codec {s u : State} (h : s.Inv) (hu : Alike s { u with codec := s.codec })
    (fits : ∀ d, u.codec = some d → d.fits = true) : u.Inv := by
  obtain ⟨held, writeLock, run, -, isOpen⟩ := h.alike hu
  exact ⟨held, writeLock, run, fits, isOpen⟩

theorem inv_symbol {d : DeframeRun} {i : Instr} {rest : Bytes} {s u : State} (h : s.Inv) (hc : s.codec = some d)
    (hi : decodeSymbol d.ahead = .ok (i, rest)) (hu : exec i s = .next u) : u.Inv := by
  have fits := h.codecFits d hc
  obtain ⟨bytes, -⟩ := decodeSymbol_consumes hi
  obtain ⟨hf, hw⟩ := decodeSymbol_wf hi
  by_cases hEnd : i = .slipEnd
  · subst hEnd
    rw [exec_slipEnd hc] at hu
    cases hs : d.start with
    | none =>
      rw [meetEnd_before hs] at hu
      cases hu
      exact inv_codec h ⟨rfl, rfl, rfl, rfl, rfl, rfl, rfl, rfl⟩
        fun e he => Option.some.inj he ▸ fits_start fits bytes
    | some k =>
      rw [meetEnd_inside hs] at hu
      cases hu
      exact inv_codec h ⟨rfl, rfl, rfl, rfl, rfl, rfl, rfl, rfl⟩ nofun
  · have noEnd : endMarker ∉ symbolBytes i := ((decodeSymbol_kind hi).resolve_left hEnd).1
    rw [exec_symbol hc hf hw hEnd, passSymbol_eq] at hu
    cases hu
    exact inv_codec h ⟨rfl, rfl, rfl, rfl, rfl, rfl, rfl, rfl⟩
      fun e he => Option.some.inj he ▸ fits_pass fits bytes noEnd _

/-! ### Every step -/

theorem inv_pollStep {s u : State} (h : s.Inv) (hr : s.run = .closing) (hu : pollStep s = .next u) : u.Inv := by
  have held := h.heldSuffix
  have fits := h.runFits
  rw [State.held, hr] at held
  rw [hr, Run.fits, Bool.and_eq_true_iff, Bool.not_eq_true', beq_iff_eq] at fits
  obtain ⟨free, closed⟩ := fits
  have openFits : ∀ v : State, v.life = .closed → v.openFits = true := fun v hv => by rw [State.openFits, hv]
  rw [pollStep, anyLocked_eq_false free h.writeLockFree] at hu
  rcases devCloseCall_cases s with ⟨-, k⟩ | ⟨c, -, k⟩ | ⟨-, k⟩ <;> rw [k] at hu <;> cases hu
  all_goals
    refine inv_idle h rfl ?_ free rfl rfl (openFits _ closed)
    rw [received_append (s := s) (es := [.close]) rfl (by simp [receivedIn])]
    exact held

/-- R206: a program begins at the front of a valid text. -/
theorem inv_beginProgram {t : Target} {text : Text} {w : Bool} {s u : State} (h : s.Inv) (hs : s.ReadyFor t)
    (hv : validText text = true) (hu : beginProgram t text w s = .next u) : u.Inv := by
  cases hu
  obtain ⟨held, free⟩ := inv_of_idle h hs.1
  have target : (t == .foreign || s.life == .connected) = true := by
    cases t with
    | foreign => rfl
    | transport => rw [hs.2 rfl]; rfl
  exact inv_sequencing h rfl held free (restValid_of_validText hv) target rfl rfl h.openFits

/-- Log 1: an operation invoked to run in small steps. -/
theorem inv_begins {i : Instr} {s u : State} (h : s.Inv) (hu : (invokedStepped i s).outcome = .next u) : u.Inv := by
  have whole : i.isOp = true → exec i s = .next u → u.Inv := fun hi => inv_operation hi h
  cases i
  case decode b =>
    cases hu
    refine inv_codec h ⟨rfl, rfl, rfl, rfl, rfl, rfl, rfl, rfl⟩ fun e he => ?_
    cases he
    exact (fits_before rfl).2 ⟨Nat.zero_le _, rfl, List.not_mem_nil⟩
  case read => exact inv_beginRead h hu
  case rawRead => exact inv_beginRawRead h hu
  case classic t d =>
    obtain ⟨hr, hu⟩ := whenIdle_next hu
    obtain ⟨hl, hu⟩ := whenTarget_next hu
    obtain ⟨hd, hu⟩ := whenDelayPositive_next hu
    exact inv_beginProgram h ⟨hr, hl⟩
      (validText_programText (P := classicProgram _) nofun (classicProgram_positive hd)) hu
  case usbJTAGSerial t =>
    obtain ⟨hr, hu⟩ := whenIdle_next hu
    obtain ⟨hl, hu⟩ := whenTarget_next hu
    exact inv_beginProgram h ⟨hr, hl⟩
      (validText_programText (P := usbJTAGSerialProgram) nofun usbJTAGSerialProgram_positive) hu
  case hard t otg =>
    obtain ⟨hr, hu⟩ := whenIdle_next hu
    obtain ⟨hl, hu⟩ := whenTarget_next hu
    exact inv_beginProgram h ⟨hr, hl⟩ (validText_programText (hardProgram_ne_nil otg) (hardProgram_positive otg)) hu
  case customReset t text =>
    obtain ⟨hr, hu⟩ := whenIdle_next hu
    obtain ⟨hl, hu⟩ := whenTarget_next hu
    split_ifs at hu with hv
    · exact inv_beginProgram h ⟨hr, hl⟩ hv hu
    · cases hu; exact inv_finish h hr _
  case encode | connect | disconnect | setDTR | setRTS | sleep | setFraming | write | validateCustomSequence =>
    exact whole rfl hu
  all_goals cases hu

theorem State.Inv.withInputs {s : State} (h : s.Inv) (inputs : List Input) : State.Inv { s with inputs := inputs } :=
  h.alike ⟨rfl, rfl, rfl, rfl, rfl, rfl, rfl, rfl⟩

/-- Settles O55, by everything that a step can be. -/
theorem invariantKept : Obligations.InvariantKept := by
  intro s u h hu
  have is := step_is s
  rw [hu] at is
  generalize ho : Host.Outcome.next u = o at is
  cases is with
  | symbol hc hi => exact inv_symbol h hc hi ho.symm
  | endOfBuffer hc => cases ho; exact inv_codec h ⟨rfl, rfl, rfl, rfl, rfl, rfl, rfl, rfl⟩ nofun
  | operation rest hi => exact inv_operation hi (h.withInputs rest) ho.symm
  | begins rest => exact inv_begins (h.withInputs rest) ho.symm
  | notOperation => cases ho
  | token hr hi => exact inv_token h hr hi ho.symm
  | undecodable => cases ho
  | endOfText hr =>
    cases ho
    obtain ⟨held, free, -, -⟩ := inv_of_sequence h hr
    exact inv_idle h rfl held free rfl rfl h.openFits
  | reads hr => exact inv_readStep h hr ho.symm
  | polls hr => exact inv_pollStep h hr ho.symm
  | device e rest =>
    cases ho
    cases e <;> exact h.alike ⟨rfl, rfl, rfl, rfl, rfl, rfl, rfl, rfl⟩
  | rests => cases ho; exact h

/-- Settles O52: the block is idle, and the invariant frees the locks of an idle block. -/
theorem idleAfterAnError : Obligations.IdleAfterAnError := by
  intro s u e h hu he
  have idle := step_error_idle s u hu e he
  have inv := invariantKept s u h hu
  exact ⟨idle, (inv_of_idle inv idle).2, inv.writeLockFree⟩

/-- Settles O54. -/
theorem creationState : Obligations.CreationState :=
  ⟨rfl, rfl, rfl, rfl, rfl, rfl, rfl, rfl, rfl, ⟨List.nil_suffix, rfl, rfl, nofun, rfl⟩⟩

end Sys2Proof.Machine
end

