-- ==== Sys2Proof/Proofs/Misfetch.lean ====
section
/-! PROOFS. The refusals that no step from a state with the invariant meets (R63, R206, log 13). -/

namespace Sys2Proof.Machine

/-- Text that is no custom sequence, a held lock, or a row without meaning. -/
def Refusal.isMisfetch : Refusal → Bool
  | .undecodable _ | .lockHeld | .notModelled _ => true
  | .busy | .wrongLifecycle _ | .resetDelayZero | .noDecodeRunning | .noProgramRunning | .illFormed
  | .notAnOperation => false

/-- An outcome that is no such refusal. -/
def Out.NoMisfetch (o : Out) : Prop := ∀ r, o = .refused r → r.isMisfetch = false

theorem noMisfetch_next (u : State) : Out.NoMisfetch (.next u) := nofun

theorem noMisfetch_fault (f : Fault) : Out.NoMisfetch (.fault f) := nofun

theorem noMisfetch_refused {r : Refusal} (h : r.isMisfetch = false) : Out.NoMisfetch (.refused r) := fun _ hr =>
  Host.Outcome.refused.inj hr ▸ h

/-! ### Requirements -/

section
variable {s : State} {k : Out}

theorem noMisfetch_whenIdle (h : s.run = .idle → k.NoMisfetch) : (s.whenIdle k).NoMisfetch := by
  by_cases hi : s.run = .idle
  · rw [whenIdle_idle hi]; exact h hi
  · rw [whenIdle_busy hi]; exact noMisfetch_refused rfl

theorem noMisfetch_whenConnected (h : k.NoMisfetch) : (s.whenConnected k).NoMisfetch := by
  by_cases hl : s.life = .connected
  · rw [whenConnected_connected hl]; exact h
  · rw [whenConnected_other hl]; exact noMisfetch_refused rfl

theorem noMisfetch_whenCreated (h : k.NoMisfetch) : (s.whenCreated k).NoMisfetch := by
  unfold State.whenCreated
  split
  · exact h
  all_goals exact noMisfetch_refused rfl

theorem noMisfetch_whenNotClosed (h : k.NoMisfetch) : (s.whenNotClosed k).NoMisfetch := by
  by_cases hl : s.life = .closed
  · rw [whenNotClosed_closed hl]; exact noMisfetch_refused rfl
  · rw [whenNotClosed_open hl]; exact h

theorem noMisfetch_whenTarget (t : Target) (h : k.NoMisfetch) : (s.whenTarget t k).NoMisfetch := by
  cases t with
  | transport => exact noMisfetch_whenConnected h
  | foreign => exact h

theorem noMisfetch_whenDelayPositive (d : Nat) (h : k.NoMisfetch) : (whenDelayPositive d k).NoMisfetch := by
  cases d with
  | zero => exact noMisfetch_refused rfl
  | succ d => exact h

theorem noMisfetch_deliver (c : Call) : c.deliver.NoMisfetch := by
  cases c with
  | ok u => exact noMisfetch_next _
  | raised e u => exact noMisfetch_next _
  | stuck f => exact noMisfetch_fault f

theorem noMisfetch_ite {c : Prop} [Decidable c] {o₁ o₂ : Out} (h₁ : o₁.NoMisfetch) (h₂ : o₂.NoMisfetch) :
    (if c then o₁ else o₂).NoMisfetch := by
  split
  exacts [h₁, h₂]

/-! ### Reads -/

theorem noMisfetch_readStep (r : ReadRun) (s : State) : (readStep r s).NoMisfetch := by
  rcases readStep_cases r s with ⟨_, _, _, _, -, -, k⟩ | ⟨_, _, _, _, -, -, k⟩ | ⟨_, _, -, k⟩ |
    ⟨_, _, _, _, -, k⟩ | ⟨-, -, k⟩ <;> rw [k]
  case inr.inr.inr.inr => exact noMisfetch_fault _
  all_goals exact noMisfetch_next _

theorem noMisfetch_readToEnd (fuel : Nat) (s : State) : (readToEnd fuel s).NoMisfetch := by
  induction fuel generalizing s with
  | zero => exact noMisfetch_fault _
  | succ fuel ih =>
    unfold readToEnd
    split
    · next r _ =>
      have sound := noMisfetch_readStep r s
      split
      · exact ih _
      · exact noMisfetch_fault _
      · next x hx => rw [hx] at sound; exact noMisfetch_refused (sound x rfl)
    all_goals exact noMisfetch_next s

theorem noMisfetch_finishReading {o : Out} (h : o.NoMisfetch) : (finishReading o).NoMisfetch := by
  cases o with
  | next u => exact noMisfetch_readToEnd _ u
  | fault f => exact noMisfetch_fault f
  | refused r => exact h

/-- R63: the read lock is free. -/
theorem noMisfetch_startReading (h : s.rdLocked = false) (r : ReadRun) : (s.startReading r).NoMisfetch := by
  rw [State.startReading, h]
  exact noMisfetch_next _

/-! ### Symbols and tokens -/

/-- R83: a symbol is refused for want of a `decode` or of form, if at all. -/
theorem noMisfetch_symbol {i : Instr} (hf : i.format = .slip) (s : State) : Out.NoMisfetch (exec i s) := by
  cases hw : i.wf with
  | false => rw [exec_symbol_illFormed hf hw]; exact noMisfetch_refused rfl
  | true =>
    cases hc : s.codec with
    | none => rw [exec_symbol_noDecode hc hf hw]; exact noMisfetch_refused rfl
    | some d =>
      by_cases hi : i = .slipEnd
      · subst hi
        rw [exec_slipEnd hc]
        cases hs : d.start with
        | none => rw [meetEnd_before hs]; exact noMisfetch_next _
        | some k => rw [meetEnd_inside hs]; exact noMisfetch_next _
      · rw [exec_symbol hc hf hw hi, passSymbol_eq]; exact noMisfetch_next _

theorem noMisfetch_afterCommand (q : SeqRun) (c : Call) : (afterCommand q c).NoMisfetch := by
  cases c with
  | ok u => exact noMisfetch_next _
  | raised e u => exact noMisfetch_next _
  | stuck f => exact noMisfetch_fault f

theorem noMisfetch_stepCommand (c : Command) (s : State) : (stepCommand c s).NoMisfetch := by
  unfold stepCommand
  split
  · exact noMisfetch_whenTarget _ (noMisfetch_afterCommand _ _)
  all_goals exact noMisfetch_refused rfl

theorem noMisfetch_sep (s : State) : Out.NoMisfetch (exec .sep s) := by
  show (execSep s).NoMisfetch
  unfold execSep
  split
  · exact noMisfetch_next _
  all_goals exact noMisfetch_refused rfl

theorem noMisfetch_w (n : Nat) (s : State) : Out.NoMisfetch (exec (.w n) s) := by
  cases n with
  | zero => exact noMisfetch_refused rfl
  | succ n => exact noMisfetch_stepCommand (.wait (n + 1)) s

end

/-! ### Operations, under the invariant -/

section
variable {s : State} (h : s.Inv)
include h

theorem noMisfetch_beginRead (t : Int) (m : Nat) : (beginRead t m s).NoMisfetch :=
  noMisfetch_whenIdle fun hi => noMisfetch_whenConnected <| noMisfetch_ite (noMisfetch_next _) <|
    noMisfetch_ite (noMisfetch_startReading (s := { s with leftover := [] }) (inv_of_idle h hi).2 _) (noMisfetch_next _)

theorem noMisfetch_beginRawRead (t : Int) : (beginRawRead t s).NoMisfetch :=
  noMisfetch_whenIdle fun hi => noMisfetch_whenConnected <| by
    split
    · exact noMisfetch_next _
    · exact noMisfetch_ite (noMisfetch_startReading (inv_of_idle h hi).2 _) (noMisfetch_next _)

theorem noMisfetch_write (p : Bytes) : Out.NoMisfetch (exec (.write p) s) :=
  noMisfetch_whenIdle fun _ => noMisfetch_whenConnected <| by
    rw [State.withWriteLock, h.writeLockFree, if_neg Bool.false_ne_true]
    exact noMisfetch_deliver _

theorem noMisfetch_exec (i : Instr) : Out.NoMisfetch (exec i s) := by
  cases i
  case slipEnd | escEndPair | escEscPair | literal | loneEsc => exact noMisfetch_symbol rfl s
  case d0 | d1 | r0 | r1 => exact noMisfetch_stepCommand _ s
  case w n => exact noMisfetch_w n s
  case sep => exact noMisfetch_sep s
  case encode | decode | validateCustomSequence => exact noMisfetch_next _
  case connect => exact noMisfetch_whenIdle fun _ => noMisfetch_whenCreated (noMisfetch_deliver _)
  case disconnect =>
    exact noMisfetch_whenIdle fun _ => noMisfetch_whenConnected <|
      noMisfetch_ite (noMisfetch_next _) (noMisfetch_deliver _)
  case setDTR | setRTS | sleep => exact noMisfetch_whenIdle fun _ => noMisfetch_whenConnected (noMisfetch_deliver _)
  case setFraming => exact noMisfetch_whenIdle fun _ => noMisfetch_whenNotClosed (noMisfetch_deliver _)
  case write p => exact noMisfetch_write h p
  case read t m => exact noMisfetch_finishReading (noMisfetch_beginRead h t m)
  case rawRead t => exact noMisfetch_finishReading (noMisfetch_beginRawRead h t)
  case classic t d =>
    exact noMisfetch_whenIdle fun _ => noMisfetch_whenTarget t (noMisfetch_whenDelayPositive _ (noMisfetch_deliver _))
  case usbJTAGSerial t | hard t _ => exact noMisfetch_whenIdle fun _ => noMisfetch_whenTarget t (noMisfetch_deliver _)
  case customReset t text =>
    exact noMisfetch_whenIdle fun _ => noMisfetch_whenTarget t <|
      noMisfetch_ite (noMisfetch_deliver _) (noMisfetch_next _)

/-! ### Every step -/

/-- Log 1: an operation invoked to run in small steps begins or runs whole. -/
theorem noMisfetch_begins (i : Instr) : (invokedStepped i s).outcome.NoMisfetch := by
  have whole := noMisfetch_exec h i
  cases i
  case decode => exact noMisfetch_next _
  case read t m => exact noMisfetch_beginRead h t m
  case rawRead t => exact noMisfetch_beginRawRead h t
  case classic t d =>
    exact noMisfetch_whenIdle fun _ => noMisfetch_whenTarget t (noMisfetch_whenDelayPositive _ (noMisfetch_next _))
  case usbJTAGSerial t | hard t _ => exact noMisfetch_whenIdle fun _ => noMisfetch_whenTarget t (noMisfetch_next _)
  case customReset t text =>
    exact noMisfetch_whenIdle fun _ => noMisfetch_whenTarget t (noMisfetch_ite (noMisfetch_next _) (noMisfetch_next _))
  case encode | connect | disconnect | setDTR | setRTS | sleep | setFraming | write | validateCustomSequence =>
    exact whole
  all_goals exact noMisfetch_refused rfl

theorem noMisfetch_step : Out.NoMisfetch (step s) := by
  have is := step_is s
  generalize step s = o at is
  cases is with
  | symbol => exact noMisfetch_exec h _
  | endOfBuffer => exact noMisfetch_next _
  | operation rest => exact noMisfetch_exec (h.withInputs rest) _
  | begins rest => exact noMisfetch_begins (h.withInputs rest) _
  | notOperation => exact noMisfetch_refused rfl
  | token => exact noMisfetch_exec h _
  | @undecodable q e hr hne he =>
    obtain ⟨-, -, valid, -⟩ := inv_of_sequence h hr
    rcases restValid_decodes valid with hq | ⟨_, -, -, hd⟩ | ⟨_, -, -, hd⟩
    · exact absurd hq hne
    all_goals rw [hd] at he; cases he
  | endOfText => exact noMisfetch_next _
  | reads => exact noMisfetch_readStep _ s
  | polls => exact noMisfetch_ite (noMisfetch_next _) (noMisfetch_deliver _)
  | device => exact noMisfetch_next _
  | rests => exact noMisfetch_next s

end

/-- Settles O56: a program in progress holds valid text, and a lock is asked for only when the block is idle. -/
theorem goodStatesNeverMisfetch : Obligations.GoodStatesNeverMisfetch := by
  intro s r h hs
  have sound := noMisfetch_step h r hs
  refine ⟨?_, ?_, ?_⟩
  · rintro e rfl; cases sound
  · rintro rfl; cases sound
  · rintro m rfl; cases sound

end Sys2Proof.Machine
end
